-- ==== Sys2Proof/Word.lean ====
section
/-!
DEFINITION. The value types of the block: bytes and character strings, bit vectors in wire order,
real operand ports, and the exact real numbers the physical layer computes with.

Only types and the real number a value stands for are here; the arithmetic is Machine/Exact.lean.
-/

namespace Sys2Proof

/-- An 8-bit character value, read as ASCII (30_encoding R68, log 20). -/
abbrev Byte := BitVec 8

/-- A character string, first character first (20_memory R49). -/
abbrev Chars := List Byte

/-- A bit vector of variable length in wire order: the first element is wire bit 0, the most
significant bit (00_scope R16). Vectors of fixed width are `BitVec`. -/
abbrev Bits := List Bool

/-- What a real-valued operand port carries: a finite value, or one of the non-finite values that
the block refuses with OPERAND_RANGE (00_scope R15). -/
inductive Port (α : Type) where
  | finite (a : α)
  | posInf
  | negInf
  | nan
  deriving DecidableEq, Repr

/-- `a + b * √2` with rational `a`, `b`: the numbers of the field ℚ(cos(π/4)). -/
structure Surd1 where
  a : Rat
  b : Rat
  deriving DecidableEq, Repr, Inhabited

/-- `a + b * √(2 + √2)`: the numbers of the field ℚ(cos(π/8)). -/
structure Surd2 where
  a : Surd1
  b : Surd1
  deriving DecidableEq, Repr, Inhabited

/-- `a + b * √(2 + √(2 + √2))`: the numbers of the field ℚ(cos(π/16)). Every sample of the two
reference waveforms is one of these, for both legal values of SPS (44_phy_channel R181). -/
structure Surd3 where
  a : Surd2
  b : Surd2
  deriving DecidableEq, Repr, Inhabited

/-- The exact real numbers of the physical layer, as plain data (00_scope R14: the reference
semantics is exact arithmetic over the reals). A number is an exact field element, or an expression
for a real function of 00_scope R17 that does not reduce to one. -/
inductive ExactReal where
  /-- An exact element of ℚ(cos(π/16)); every rational is one. -/
  | alg (x : Surd3)
  /-- `10 ^ x`. -/
  | pow10 (x : Rat)
  /-- `sqrt x`. -/
  | sqrt (x : ExactReal)
  /-- `x + y`. -/
  | add (x y : ExactReal)
  /-- `x * y`. -/
  | mul (x y : ExactReal)
  /-- `x / y`. -/
  | div (x y : ExactReal)
  deriving DecidableEq, Repr, Inhabited

/-- The real number a `Surd1` stands for. -/
noncomputable def Surd1.val (x : Surd1) : ℝ := (x.a : ℝ) + (x.b : ℝ) * √2

/-- The real number a `Surd2` stands for. -/
noncomputable def Surd2.val (x : Surd2) : ℝ := x.a.val + x.b.val * √(2 + √2)

/-- The real number a `Surd3` stands for. -/
noncomputable def Surd3.val (x : Surd3) : ℝ := x.a.val + x.b.val * √(2 + √(2 + √2))

/-- The real number a `ExactReal` stands for. No operation of the machine computes with it: it is what
statements compare the machine's exact data with. -/
noncomputable def ExactReal.val : ExactReal → ℝ
  | .alg x => x.val
  | .pow10 x => (10 : ℝ) ^ (x : ℝ)
  | .sqrt x => √x.val
  | .add x y => x.val + y.val
  | .mul x y => x.val * y.val
  | .div x y => x.val / y.val

end Sys2Proof
end

