-- ==== Sys2Proof/Config.lean ====
section
/-!
DEFINITION. What an implementation of the block fixes and the spec leaves open (00_scope R12,
93_implementation_defined). Each constant without a body is a free value: nothing can be proved of
it, so a statement holds whatever a build chooses.
-/

namespace Sys2Proof

/-! ### The numerics record -/

/-- `Num`, the arithmetic the block computes real-valued results with (00_scope R12, R14): exact real
arithmetic, the reference, or the arithmetic of a build that rounds, whose results at the operands item
U1 lists are free (log 6). -/
inductive Numerics where
  | exact
  | rounded
  deriving DecidableEq, Repr

/-- The places where a build that rounds can differ from the reference (00_scope R14, item U1): the
floors of ALT.ENC, of CPR.ENC and of CPR.PAIR, the comparisons with 50000, 270 and 180, and the comparison
of a latitude with 0. -/
inductive Place where
  | altitudeStep
  | altitudeMagnitude
  | cprLat
  | cprLon
  | zoneIndex
  | lonIndex
  | latEven
  | latOdd
  | longitude
  | equator
  deriving DecidableEq, Repr

namespace Config

/-- How far CS_MAX lies above its stated lower bound 8 (00_scope R12, item U14). Free, log 13. -/
opaque csMaxExtra : Nat

/-- CS_MAX, the longest callsign operand the port carries: open, at least 8 (00_scope R12). -/
def csMax : Nat := csMaxExtra + 8

/-- How far NBITS_MAX lies above its stated lower bound 112 (00_scope R12, item U14). Free, log 12. -/
opaque nbitsExtra : Nat

/-- NBITS_MAX, the longest bit vector MOD and DEMOD take: open, at least 112 (00_scope R12). -/
def nbitsMax : Nat := nbitsExtra + 112

/-- `Draw(seed, i)`, the noise source's answer to the draw of index `i` after SEED `seed`: an
uninterpreted total function (10_state R36, item U7). Free, log 9. -/
opaque draw (seed i : Nat) : Surd3

/-- The floor a build that rounds takes of a number within rounding distance of an integer, from what it
computes the number from (00_scope R14, item U1). Free, log 6. -/
opaque roundedFloor (p : Place) (operands : List Rat) : Int

/-- Whether a build that rounds takes a number within rounding distance of a bound to reach it, from what
it computes the number from: two ways to the same number may round to two sides (00_scope R14, item U1).
Free, log 6. -/
opaque roundedAtLeast (p : Place) (operands : List Rat) : Bool

/-- The bit a build that rounds decides on window `j` of a signal, when the correlation is within rounding
distance of 0, from FC, SPS and all it computes the signal from (00_scope R14, 44_phy_channel R194, item
U1). Free, log 6. -/
opaque roundedBit (fc : Rat) (sps j : Nat) (sources : List (List ExactReal)) : Bool

/-- Whether `|lat| ≤ L(n)` is taken to hold for a latitude within 1e-9 degrees of the transition
latitude `L(n)`, where 43_cpr R151 calls the value of NL implementation-defined (item U1); in a build that
rounds, from what it computes the latitude from. Free, log 8. -/
opaque atTransition (n : Nat) (absLat : Rat) (origin : List Rat) : Bool

end Config

end Sys2Proof
end

