-- ==== Sys2Proof/Syntax.lean ====
section
/-!
DEFINITION. The block's instruction set: one constructor for each row of spec/opcode_table.json, in
the table's order (30_encoding R78, R81), with the operands as the typed values of R76.
-/

namespace Sys2Proof

/-- One operation of the block, or one received frame of a given type code.

The operand names and widths are those of the table of 30_encoding R78. Real operands are `Port Rat`
(log 5), signals are lists of `Port ExactReal`, bit vectors of variable length are in wire order. A frame
row carries the whole 112-bit frame integer `F` of R60. -/
inductive Instr where
  | reset
  | cfgWr (reg : BitVec 4) (value : Port Rat)
  | cfgRd (reg : BitVec 4)
  | seed (seed : Nat)
  | cntRd
  | histLen
  | histRd (i : Nat)
  | hex2bit (s : Chars)
  | bit2hex (v : Bits)
  | char2six (c : Byte)
  | six2char (x : BitVec 6)
  | crcGen (d : BitVec 88)
  | crcChk (f : BitVec 112)
  | altEnc (m : Port Rat)
  | altDec (a : BitVec 12)
  | encId (address : BitVec 24) (category : BitVec 3) (callsign : Chars) (typeCode : BitVec 5)
  | encPos (address : BitVec 24) (surveillance : BitVec 2) (singleAntenna : BitVec 1)
      (altitudeMeters lat lon : Port Rat) (timeFlag : BitVec 1) (typeCode : BitVec 5)
      (cprParity : BitVec 1)
  | dec (s : Chars)
  | cprNl (lat : Port Rat)
  | cprEnc (lat lon : Port Rat) (parity : BitVec 1)
  | cprPair (yzE xzE : BitVec 17) (tE : BitVec 1) (yzO xzO : BitVec 17) (tO : BitVec 1)
  | cprResolve (address : BitVec 24) (fp : BitVec 1) (yz xz : BitVec 17) (t : BitVec 1)
  | mod (bits : Bits)
  | chan (signal : List (Port ExactReal))
  | demod (signal : List (Port ExactReal))
  | xmit (hexIn : Chars)
  | frameTc0Other (f : BitVec 112)
  | frameTc1Ident (f : BitVec 112)
  | frameTc2Ident (f : BitVec 112)
  | frameTc3Ident (f : BitVec 112)
  | frameTc4Ident (f : BitVec 112)
  | frameTc5Other (f : BitVec 112)
  | frameTc6Other (f : BitVec 112)
  | frameTc7Other (f : BitVec 112)
  | frameTc8Other (f : BitVec 112)
  | frameTc9Position (f : BitVec 112)
  | frameTc10Position (f : BitVec 112)
  | frameTc11Position (f : BitVec 112)
  | frameTc12Position (f : BitVec 112)
  | frameTc13Position (f : BitVec 112)
  | frameTc14Position (f : BitVec 112)
  | frameTc15Position (f : BitVec 112)
  | frameTc16Position (f : BitVec 112)
  | frameTc17Position (f : BitVec 112)
  | frameTc18Position (f : BitVec 112)
  | frameTc19Other (f : BitVec 112)
  | frameTc20Position (f : BitVec 112)
  | frameTc21Position (f : BitVec 112)
  | frameTc22Position (f : BitVec 112)
  | frameTc23Other (f : BitVec 112)
  | frameTc24Other (f : BitVec 112)
  | frameTc25Other (f : BitVec 112)
  | frameTc26Other (f : BitVec 112)
  | frameTc27Other (f : BitVec 112)
  | frameTc28Other (f : BitVec 112)
  | frameTc29Other (f : BitVec 112)
  | frameTc30Other (f : BitVec 112)
  | frameTc31Other (f : BitVec 112)
  deriving DecidableEq, Repr

/-- A typed operand value on the request port (30_encoding R76). -/
inductive Operand where
  /-- A bit vector of a stated width. -/
  | bits (w : Nat) (v : BitVec w)
  /-- A natural number. -/
  | nat (n : Nat)
  /-- A real value. -/
  | real (x : Port Rat)
  /-- A character string. -/
  | chars (s : Chars)
  /-- A bit vector of variable length, in wire order. -/
  | vector (v : Bits)
  /-- A sample sequence. -/
  | signal (s : List (Port ExactReal))
  deriving DecidableEq, Repr

/-- What the host presents to the block: an operation code with its operands (30_encoding R76), or
a received frame (the second kind of table row, R81, log 4). -/
inductive Request where
  | op (code : BitVec 8) (args : List Operand)
  | frame (f : BitVec 112)
  deriving DecidableEq, Repr

end Sys2Proof
end

