-- ==== Sys2Proof/Decode.lean ====
section
/-!
DEFINITION. The decoder: a request of the host to the instruction it asks for, total, rejecting by
name; and the encoder. The spec gives an operation an 8-bit code and typed operands and no
serialisation (30_encoding R76), so a request is the code and the operand values themselves; a frame
is its 112-bit integer (30_encoding R60), its row chosen by the type code (R72, R81).
-/

namespace Sys2Proof

/-- Why a request is no instruction. -/
inductive Reject where
  /-- The code is not in the table of 30_encoding R78: the block answers STATUS = ILLEGAL_OP (R79). -/
  | illegalOp
  /-- The operands are not of the number and types the operation lists. The typed ports of R76 cannot
  carry such a request, so the spec gives it no meaning (log 3). -/
  | operandTypes
  /-- An ENC.ID whose callsign is longer than CS_MAX, the longest the port carries (00_scope R12): the
  block answers STATUS = OPERAND_RANGE (item U14, log 13). -/
  | callsignTooLong
  deriving DecidableEq, Repr

/-- The type code of a frame, `F[79:75]` (30_encoding R60). -/
def frameTypeCode (f : BitVec 112) : BitVec 5 := f.extractLsb' 75 5

/-- The row of the type-code table (30_encoding R72, R81) a received frame belongs to. -/
def decodeFrame (f : BitVec 112) : Instr :=
  match (frameTypeCode f).toNat with
  | 0 => .frameTc0Other f
  | 1 => .frameTc1Ident f
  | 2 => .frameTc2Ident f
  | 3 => .frameTc3Ident f
  | 4 => .frameTc4Ident f
  | 5 => .frameTc5Other f
  | 6 => .frameTc6Other f
  | 7 => .frameTc7Other f
  | 8 => .frameTc8Other f
  | 9 => .frameTc9Position f
  | 10 => .frameTc10Position f
  | 11 => .frameTc11Position f
  | 12 => .frameTc12Position f
  | 13 => .frameTc13Position f
  | 14 => .frameTc14Position f
  | 15 => .frameTc15Position f
  | 16 => .frameTc16Position f
  | 17 => .frameTc17Position f
  | 18 => .frameTc18Position f
  | 19 => .frameTc19Other f
  | 20 => .frameTc20Position f
  | 21 => .frameTc21Position f
  | 22 => .frameTc22Position f
  | 23 => .frameTc23Other f
  | 24 => .frameTc24Other f
  | 25 => .frameTc25Other f
  | 26 => .frameTc26Other f
  | 27 => .frameTc27Other f
  | 28 => .frameTc28Other f
  | 29 => .frameTc29Other f
  | 30 => .frameTc30Other f
  | _ => .frameTc31Other f

/-- The operation of 30_encoding R78 with code `code`, its operands read at their stated types. -/
def decodeOp (code : BitVec 8) (args : List Operand) : Except Reject Instr :=
  match code.toNat with
  | 0x01 => match args with | [] => .ok .reset | _ => .error .operandTypes
  | 0x02 =>
    match args with
    | [.bits 4 reg, .real value] =>
      .ok (.cfgWr reg value)
    | _ => .error .operandTypes
  | 0x03 => match args with | [.bits 4 reg] => .ok (.cfgRd reg) | _ => .error .operandTypes
  | 0x04 => match args with | [.nat n] => .ok (.seed n) | _ => .error .operandTypes
  | 0x05 => match args with | [] => .ok .cntRd | _ => .error .operandTypes
  | 0x06 => match args with | [] => .ok .histLen | _ => .error .operandTypes
  | 0x07 => match args with | [.nat i] => .ok (.histRd i) | _ => .error .operandTypes
  | 0x10 => match args with | [.chars s] => .ok (.hex2bit s) | _ => .error .operandTypes
  | 0x11 => match args with | [.vector v] => .ok (.bit2hex v) | _ => .error .operandTypes
  | 0x12 => match args with | [.bits 8 c] => .ok (.char2six c) | _ => .error .operandTypes
  | 0x13 => match args with | [.bits 6 x] => .ok (.six2char x) | _ => .error .operandTypes
  | 0x20 => match args with | [.bits 88 d] => .ok (.crcGen d) | _ => .error .operandTypes
  | 0x21 => match args with | [.bits 112 f] => .ok (.crcChk f) | _ => .error .operandTypes
  | 0x30 => match args with | [.real m] => .ok (.altEnc m) | _ => .error .operandTypes
  | 0x31 => match args with | [.bits 12 a] => .ok (.altDec a) | _ => .error .operandTypes
  | 0x32 =>
    match args with
    | [.bits 24 address, .bits 3 category, .chars callsign, .bits 5 typeCode] =>
      if callsign.length ≤ Config.csMax then .ok (.encId address category callsign typeCode)
      else .error .callsignTooLong
    | _ => .error .operandTypes
  | 0x33 =>
    match args with
    | [.bits 24 address, .bits 2 surveillance, .bits 1 singleAntenna, .real altitudeMeters,
        .real lat, .real lon, .bits 1 timeFlag, .bits 5 typeCode, .bits 1 cprParity] =>
      .ok (.encPos address surveillance singleAntenna altitudeMeters lat lon timeFlag typeCode
        cprParity)
    | _ => .error .operandTypes
  | 0x34 => match args with | [.chars s] => .ok (.dec s) | _ => .error .operandTypes
  | 0x40 => match args with | [.real lat] => .ok (.cprNl lat) | _ => .error .operandTypes
  | 0x41 =>
    match args with
    | [.real lat, .real lon, .bits 1 parity] =>
      .ok (.cprEnc lat lon parity)
    | _ => .error .operandTypes
  | 0x42 =>
    match args with
    | [.bits 17 yzE, .bits 17 xzE, .bits 1 tE, .bits 17 yzO, .bits 17 xzO, .bits 1 tO] =>
      .ok (.cprPair yzE xzE tE yzO xzO tO)
    | _ => .error .operandTypes
  | 0x43 =>
    match args with
    | [.bits 24 address, .bits 1 fp, .bits 17 yz, .bits 17 xz, .bits 1 t] =>
      .ok (.cprResolve address fp yz xz t)
    | _ => .error .operandTypes
  | 0x50 => match args with | [.vector bits] => .ok (.mod bits) | _ => .error .operandTypes
  | 0x51 => match args with | [.signal signal] => .ok (.chan signal) | _ => .error .operandTypes
  | 0x52 => match args with | [.signal signal] => .ok (.demod signal) | _ => .error .operandTypes
  | 0x53 => match args with | [.chars hexIn] => .ok (.xmit hexIn) | _ => .error .operandTypes
  | _ => .error .illegalOp

/-- The instruction a request asks for. -/
def decode : Request → Except Reject Instr
  | .op code args => decodeOp code args
  | .frame f => .ok (decodeFrame f)

/-- The request that asks for an instruction, written from the operation table of 30_encoding R78
and, for a frame row, from R81. -/
def encode : Instr → Request
  | .reset => .op 0x01 []
  | .cfgWr reg value => .op 0x02 [.bits 4 reg, .real value]
  | .cfgRd reg => .op 0x03 [.bits 4 reg]
  | .seed n => .op 0x04 [.nat n]
  | .cntRd => .op 0x05 []
  | .histLen => .op 0x06 []
  | .histRd i => .op 0x07 [.nat i]
  | .hex2bit s => .op 0x10 [.chars s]
  | .bit2hex v => .op 0x11 [.vector v]
  | .char2six c => .op 0x12 [.bits 8 c]
  | .six2char x => .op 0x13 [.bits 6 x]
  | .crcGen d => .op 0x20 [.bits 88 d]
  | .crcChk f => .op 0x21 [.bits 112 f]
  | .altEnc m => .op 0x30 [.real m]
  | .altDec a => .op 0x31 [.bits 12 a]
  | .encId address category callsign typeCode =>
    .op 0x32 [.bits 24 address, .bits 3 category, .chars callsign, .bits 5 typeCode]
  | .encPos address surveillance singleAntenna altitudeMeters lat lon timeFlag typeCode
      cprParity =>
    .op 0x33 [.bits 24 address, .bits 2 surveillance, .bits 1 singleAntenna,
      .real altitudeMeters, .real lat, .real lon, .bits 1 timeFlag, .bits 5 typeCode,
      .bits 1 cprParity]
  | .dec s => .op 0x34 [.chars s]
  | .cprNl lat => .op 0x40 [.real lat]
  | .cprEnc lat lon parity => .op 0x41 [.real lat, .real lon, .bits 1 parity]
  | .cprPair yzE xzE tE yzO xzO tO =>
    .op 0x42 [.bits 17 yzE, .bits 17 xzE, .bits 1 tE, .bits 17 yzO, .bits 17 xzO, .bits 1 tO]
  | .cprResolve address fp yz xz t =>
    .op 0x43 [.bits 24 address, .bits 1 fp, .bits 17 yz, .bits 17 xz, .bits 1 t]
  | .mod bits => .op 0x50 [.vector bits]
  | .chan signal => .op 0x51 [.signal signal]
  | .demod signal => .op 0x52 [.signal signal]
  | .xmit hexIn => .op 0x53 [.chars hexIn]
  | .frameTc0Other f => .frame f
  | .frameTc1Ident f => .frame f
  | .frameTc2Ident f => .frame f
  | .frameTc3Ident f => .frame f
  | .frameTc4Ident f => .frame f
  | .frameTc5Other f => .frame f
  | .frameTc6Other f => .frame f
  | .frameTc7Other f => .frame f
  | .frameTc8Other f => .frame f
  | .frameTc9Position f => .frame f
  | .frameTc10Position f => .frame f
  | .frameTc11Position f => .frame f
  | .frameTc12Position f => .frame f
  | .frameTc13Position f => .frame f
  | .frameTc14Position f => .frame f
  | .frameTc15Position f => .frame f
  | .frameTc16Position f => .frame f
  | .frameTc17Position f => .frame f
  | .frameTc18Position f => .frame f
  | .frameTc19Other f => .frame f
  | .frameTc20Position f => .frame f
  | .frameTc21Position f => .frame f
  | .frameTc22Position f => .frame f
  | .frameTc23Other f => .frame f
  | .frameTc24Other f => .frame f
  | .frameTc25Other f => .frame f
  | .frameTc26Other f => .frame f
  | .frameTc27Other f => .frame f
  | .frameTc28Other f => .frame f
  | .frameTc29Other f => .frame f
  | .frameTc30Other f => .frame f
  | .frameTc31Other f => .frame f

/-- The operands of an operation whose operand words are all zeros: bit vectors and numbers 0, empty
strings, vectors and signals (log 3). An unknown code has none. -/
def zeroOperands (code : BitVec 8) : List Operand :=
  match code.toNat with
  | 0x02 => [.bits 4 0, .real (.finite 0)]
  | 0x03 => [.bits 4 0]
  | 0x04 => [.nat 0]
  | 0x07 => [.nat 0]
  | 0x10 => [.chars []]
  | 0x11 => [.vector []]
  | 0x12 => [.bits 8 0]
  | 0x13 => [.bits 6 0]
  | 0x20 => [.bits 88 0]
  | 0x21 => [.bits 112 0]
  | 0x30 => [.real (.finite 0)]
  | 0x31 => [.bits 12 0]
  | 0x32 => [.bits 24 0, .bits 3 0, .chars [], .bits 5 0]
  | 0x33 =>
    [.bits 24 0, .bits 2 0, .bits 1 0, .real (.finite 0), .real (.finite 0), .real (.finite 0),
      .bits 1 0, .bits 5 0, .bits 1 0]
  | 0x34 => [.chars []]
  | 0x40 => [.real (.finite 0)]
  | 0x41 => [.real (.finite 0), .real (.finite 0), .bits 1 0]
  | 0x42 => [.bits 17 0, .bits 17 0, .bits 1 0, .bits 17 0, .bits 17 0, .bits 1 0]
  | 0x43 => [.bits 24 0, .bits 1 0, .bits 17 0, .bits 17 0, .bits 1 0]
  | 0x50 => [.vector []]
  | 0x51 => [.signal []]
  | 0x52 => [.signal []]
  | 0x53 => [.chars []]
  | _ => []

/-- The request whose table bits are `w`: an operation row has 8 bits, a frame row 112, numbered as
spec/opcode_table.json numbers them; operands the table gives no bits are zeros. -/
def tableRequest (nbits w : Nat) : Option Request :=
  if nbits = 8 then some (.op (BitVec.ofNat 8 w) (zeroOperands (BitVec.ofNat 8 w)))
  else if nbits = 112 then some (.frame (BitVec.ofNat 112 w))
  else none

/-- The instruction the decoder reads from the table word `w` of `nbits` bits; none where it refuses. -/
def decodeTableWord (nbits w : Nat) : Option Instr :=
  match tableRequest nbits w with
  | none => none
  | some r =>
    match decode r with
    | .ok i => some i
    | .error _ => none

end Sys2Proof
end

