-- ==== Sys2Proof/Machine/State.lean ====
section
/-!
DEFINITION. The state of the block (10_state), the results and statuses it hands to the host (R34),
and the state after reset (R38). All of it is plain data.
-/

namespace Sys2Proof.Machine

/-- The block never stops: every operation ends by returning a status (60_exceptions R230, R243;
93_implementation_defined: nothing is treated as `stuck`). So there is no fault, and the type is empty. -/
inductive Fault where
  deriving DecidableEq, Repr

/-- Why a request has no meaning. -/
inductive Refusal where
  /-- Raised by `exec` for an instruction without a meaning. Safe: nothing is claimed of it. -/
  | notModelled (mnemonic : String)
  /-- Raised by `step` for a request whose operands are not of the number and types its operation
  lists; the typed ports of 30_encoding R76 cannot carry one (log 3). Safe: the model stops. -/
  | operandTypes
  deriving DecidableEq, Repr

/-- The fading family, register FADING (10_state R26). -/
inductive Fading where
  | rayleigh
  | rician
  deriving DecidableEq, Repr

/-- The samples per symbol, register SPS: 7 bits, of whose values 48 and 96 alone are legal (10_state
R27). -/
inductive Sps where
  | s48
  | s96
  deriving DecidableEq, Repr

/-- The exceptional outcomes of an operation, the statuses other than OK (60_exceptions R231). -/
inductive Exc where
  | checksumFailure
  | malformedInput
  | operandRange
  | configUnset
  | illegalOp
  | divZero
  deriving DecidableEq, Repr

/-- A History record (10_state R31). -/
structure Record where
  addr : BitVec 24
  f : BitVec 1
  yz : BitVec 17
  xz : BitVec 17
  t : BitVec 1
  altM : Rat
  pos : Option (Rat × Rat)
  deriving DecidableEq, Repr

/-- The noise source's position (10_state R36). -/
structure Rng where
  seed : Nat
  n : Nat
  deriving DecidableEq, Repr

/-- A stretch of the noise source's answers that is known: after SEED `seed`, the draws of index
`first` up to `first + count - 1` are all `value` (log 9). -/
structure NoiseRun where
  seed : Nat
  first : Nat
  count : Nat
  value : Surd3
  deriving DecidableEq, Repr

/-- The source of a decoded altitude (30_encoding R72, 10_state R34). -/
inductive AltSrc where
  | barometric
  | gnss
  deriving DecidableEq, Repr

/-- The prefix fields and type code every report carries (42_frame_codec R133). -/
structure ReportPrefix where
  df : BitVec 5
  ca : BitVec 3
  addr : BitVec 24
  tc : BitVec 5
  deriving DecidableEq, Repr

/-- The fields of an IdentificationReport after the prefix (42_frame_codec R135). -/
structure IdentFields where
  cat : BitVec 3
  callsign : Chars
  deriving DecidableEq, Repr

/-- The fields of a PositionReport after the prefix (42_frame_codec R137, R139). `pos` is
RESOLVED with LAT and LON. -/
structure PositionFields where
  ss : BitVec 2
  saf : BitVec 1
  altSrc : AltSrc
  q : BitVec 1
  ft : Int
  altM : Rat
  t : BitVec 1
  fp : BitVec 1
  yz : BitVec 17
  xz : BitVec 17
  pos : Option (Rat × Rat)
  deriving DecidableEq, Repr

/-- What an operation returns with STATUS = OK (30_encoding R78, column "result"). -/
inductive Result where
  /-- No result beyond the status. -/
  | nothing
  /-- The value of a configuration register. -/
  | value (x : Rat)
  /-- A natural number: the counter, the length of the History. -/
  | count (n : Nat)
  /-- A History record. -/
  | record (r : Record)
  /-- A bit vector, in wire order. -/
  | bits (v : Bits)
  /-- A hex string. -/
  | hex (s : Chars)
  /-- A 6-bit character code. -/
  | six (x : BitVec 6)
  /-- A character. -/
  | char (c : Byte)
  /-- A CRC. -/
  | crc (c : BitVec 24)
  /-- PASS and the computed CRC. -/
  | check (pass : Bool) (computed : BitVec 24)
  /-- An altitude field. -/
  | altField (a : BitVec 12)
  /-- Q, N, feet and metres of a decoded altitude field. -/
  | altitude (q : BitVec 1) (n : BitVec 11) (ft : Int) (altM : Rat)
  /-- A built frame and its hex string. -/
  | frame (f : BitVec 112) (hex : Chars)
  /-- KIND = IDENT. -/
  | ident (p : ReportPrefix) (r : IdentFields)
  /-- KIND = POSITION. -/
  | position (p : ReportPrefix) (r : PositionFields)
  /-- KIND = OTHER. -/
  | other (p : ReportPrefix)
  /-- A longitude zone count. -/
  | nl (n : Nat)
  /-- A pair of CPR integers. -/
  | cpr (yz xz : BitVec 17)
  /-- RESOLVED with latitude and longitude; none for RESOLVED = 0. -/
  | resolved (pos : Option (Rat × Rat))
  /-- A signal. -/
  | signal (s : List ExactReal)
  deriving DecidableEq, Repr

/-- How an operation ended: STATUS = OK with its result, or another status and no result field
(60_exceptions R230). -/
inductive Response where
  | ok (r : Result)
  | raised (e : Exc)
  deriving DecidableEq, Repr

/-- The state of one block instance. The first nine fields are the spec's (10_state R21, R30, R36);
an unset register is the spec's own state (R28). The last four are the model's own: the arithmetic of
the build, which the spec makes a parameter and no operation writes (00_scope R14, log 6), what is known
of the noise source (log 9), and the requests the host has issued and the last answer (log 1). -/
structure State where
  df : Option (BitVec 5)
  ca : Option (BitVec 3)
  fc : Option Rat
  snrDb : Option Rat
  fading : Option Fading
  sps : Option Sps
  hist : List Record
  corruptCnt : Nat
  rng : Option Rng
  num : Numerics
  noise : List NoiseRun
  requests : List Request
  response : Option Response
  deriving DecidableEq, Repr

/-- The state after reset or power-up: every register unset, the History empty, the counter 0, the
noise source unset (10_state R38, 70_reset_and_hazards R255). The arithmetic is the reference, no
request is pending, nothing has been answered and nothing is known of the noise source (log 16). -/
def State.reset : State where
  df := none
  ca := none
  fc := none
  snrDb := none
  fading := none
  sps := none
  hist := []
  corruptCnt := 0
  rng := none
  num := .exact
  noise := []
  requests := []
  response := none

end Sys2Proof.Machine
end

