-- ==== Sys2Proof/Machine/Ops.lean ====
section
/-!
DEFINITION. The named operations over the state: the request port, ending an operation (with a
result, or with an exceptional status), the configuration registers, the History memory and the
noise source.
-/

namespace Sys2Proof.Machine

/-! ### The request port -/

/-- The request the next step executes: the oldest the host has issued and the block has not answered
(20_memory R53). -/
def fetch (s : State) : Option Request := s.requests.head?

/-! ### Ending an operation -/

/-- The operation at the head of the port is answered: the host reads `r` and the request is done. -/
def State.respond (s : State) (r : Response) : State :=
  { s with response := some r, requests := s.requests.tail }

/-- An operation ends with STATUS = OK and its result (60_exceptions R230). -/
def State.complete (s : State) (r : Result) : State := s.respond (.ok r)

/-- Taking an exception: the operation ends with a status other than OK and returns nothing else.
The state is as before the operation, but for the corruption counter, to which CHECKSUM_FAILURE
adds 1 (60_exceptions R230, R232, R238). There is no handler, saved state or return (R246). -/
def State.raise (s : State) (e : Exc) : State :=
  match e with
  | .checksumFailure => { s with corruptCnt := s.corruptCnt + 1 }.respond (.raised e)
  | .malformedInput | .operandRange | .configUnset | .illegalOp | .divZero => s.respond (.raised e)

/-- An operation computed on a copy of the state: committed on OK, given up on any other status
(60_exceptions R238). -/
def commit (s : State) (x : Except Exc (State × Result)) : Host.Outcome State Fault Refusal :=
  match x with
  | .ok (s', r) => .next (s'.complete r)
  | .error e => .next (s.raise e)

/-- An operation that changes no state when it succeeds. -/
def answer (s : State) (x : Except Exc Result) : Host.Outcome State Fault Refusal :=
  match x with
  | .ok r => .next (s.complete r)
  | .error e => .next (s.raise e)

/-- Reading something unset raises CONFIG_UNSET (10_state R28, R36). -/
def whenSet {α : Type} (x : Option α) : Except Exc α :=
  match x with
  | some a => .ok a
  | none => .error .configUnset

/-- What a request that is no instruction does: an unknown code ends with ILLEGAL_OP (30_encoding
R79, 60_exceptions R235); operands of the wrong types cannot arrive (log 3); a callsign the port does not
carry ends with OPERAND_RANGE, once DF and CA are set (00_scope R12, 60_exceptions R241, log 13). -/
def rejected (r : Reject) (s : State) : Host.Outcome State Fault Refusal :=
  match r with
  | .illegalOp => .next (s.raise .illegalOp)
  | .operandTypes => .refused .operandTypes
  | .callsignTooLong =>
    match whenSet s.df, whenSet s.ca with
    | .ok _, .ok _ => .next (s.raise .operandRange)
    | .error e, _ => .next (s.raise e)
    | _, .error e => .next (s.raise e)

/-! ### Configuration registers -/

/-- The code of the FADING register (10_state R26). -/
def Fading.code (f : Fading) : BitVec 1 :=
  match f with
  | .rayleigh => 0
  | .rician => 1

/-- The number of samples per symbol (10_state R27). -/
def Sps.count (n : Sps) : Nat :=
  match n with
  | .s48 => 48
  | .s96 => 96

/-- `cfg[reg]` as CFG.RD returns it (45_system_ops R213). -/
def State.cfgRead (s : State) (reg : BitVec 4) : Except Exc Rat :=
  match reg.toNat with
  | 0 => (whenSet s.df).map fun v => (v.toNat : Rat)
  | 1 => (whenSet s.ca).map fun v => (v.toNat : Rat)
  | 2 => whenSet s.fc
  | 3 => whenSet s.snrDb
  | 4 => (whenSet s.fading).map fun v => (v.code.toNat : Rat)
  | 5 => (whenSet s.sps).map fun v => (v.count : Rat)
  | _ => .error .operandRange

/-- The natural number a value is, if it is an integer from 0 to `max`. -/
def legalNat (max : Nat) (v : Port Rat) : Except Exc Nat :=
  match v with
  | .finite q =>
    if q.den = 1 ∧ 0 ≤ q.num ∧ q.num ≤ max then .ok q.num.toNat else .error .operandRange
  | .posInf | .negInf | .nan => .error .operandRange

/-- A finite value; a non-finite one is refused (00_scope R15, 60_exceptions R236). -/
def finiteValue {α : Type} (v : Port α) : Except Exc α :=
  match v with
  | .finite a => .ok a
  | .posInf | .negInf | .nan => .error .operandRange

/-- `cfg[reg] <- value`, for a value legal for the register (45_system_ops R212). -/
def State.cfgWrite (s : State) (reg : BitVec 4) (v : Port Rat) : Except Exc State :=
  match reg.toNat with
  | 0 => (legalNat 31 v).map fun n => { s with df := some (BitVec.ofNat 5 n) }
  | 1 => (legalNat 7 v).map fun n => { s with ca := some (BitVec.ofNat 3 n) }
  | 2 =>
    match finiteValue v with
    | .ok q => if 0 < q then .ok { s with fc := some q } else .error .operandRange
    | .error e => .error e
  | 3 => (finiteValue v).map fun q => { s with snrDb := some q }
  | 4 =>
    (legalNat 1 v).map fun n => { s with fading := some (if n = 0 then .rayleigh else .rician) }
  | 5 =>
    match legalNat 127 v with
    | .ok n =>
      if n = 48 then .ok { s with sps := some .s48 }
      else if n = 96 then .ok { s with sps := some .s96 }
      else .error .operandRange
    | .error e => .error e
  | _ => .error .operandRange

/-- Every register, the History, the counter and the noise source as after reset (45_system_ops
R210). The arithmetic of the build, the pending requests and what is known of the noise source's
answers are not the block's state. -/
def State.clear (s : State) : State :=
  { State.reset with
    num := s.num, noise := s.noise, requests := s.requests, response := s.response }

/-! ### The History memory -/

/-- `MemRead(i, 1)`: record `i`, whole and unchanged; none at or beyond the length (20_memory R42). -/
def memRead (h : List Record) (i : Nat) : Option Record := h[i]?

/-- `MemWrite(len(HIST), 1, rec)`: the append, the only write (20_memory R43). -/
def memAppend (h : List Record) (r : Record) : List Record := h ++ [r]

/-- `lookup(address)`: the records of one address in append order (20_memory R44). -/
def lookup (h : List Record) (addr : BitVec 24) : List Record := h.filter fun r => r.addr == addr

/-- `hist_find(addr, f)`: the newest record of the address with the other parity (20_memory R45). -/
def histFind (h : List Record) (addr : BitVec 24) (f : BitVec 1) : Option Record :=
  h.reverse.find? fun r => r.addr == addr && r.f != f

/-! ### The noise source -/

/-- Whether a known stretch of answers covers a draw. -/
def NoiseRun.covers (r : NoiseRun) (seed i : Nat) : Bool :=
  r.seed == seed && decide (r.first ≤ i) && decide (i < r.first + r.count)

/-- `Draw(seed, i)`: what is known of the noise source, else a free value (10_state R36, log 9). -/
def drawAt (noise : List NoiseRun) (seed i : Nat) : Surd3 :=
  match noise.find? fun r => r.covers seed i with
  | some r => r.value
  | none => Config.draw seed i

end Sys2Proof.Machine
end

