-- ==== Sys2Proof/Machine/Operands.lean ====
section
/-!
DEFINITION. The operand forms: bit vectors in wire order and their hex strings (20_memory R48, R49),
the field slices of a frame (30_encoding R60 to R66), the character map (R68, R69), signals.
-/

namespace Sys2Proof.Machine

/-! ### Wire order and hex strings -/

/-- The bits of a fixed-width vector in wire order: `w(v, 0)` first (00_scope R16). -/
def wireBits {w : Nat} (v : BitVec w) : Bits := (List.range w).map v.getMsbD

/-- The vector of width `w` whose wire bits are the given ones. -/
def ofWire (w : Nat) (v : Bits) : BitVec w :=
  BitVec.ofNat w (v.foldl (fun acc b => 2 * acc + b.toNat) 0)

/-- The value of a hex digit; none for a character outside `0-9A-F` (40_bitcodec R90). -/
def hexValue (c : Byte) : Option (BitVec 4) :=
  if 48 ≤ c.toNat ∧ c.toNat ≤ 57 then some (BitVec.ofNat 4 (c.toNat - 48))
  else if 65 ≤ c.toNat ∧ c.toNat ≤ 70 then some (BitVec.ofNat 4 (c.toNat - 55))
  else none

/-- The upper-case hex digit of four bits (40_bitcodec R91). -/
def hexChar (d : BitVec 4) : Byte :=
  if d.toNat < 10 then BitVec.ofNat 8 (48 + d.toNat) else BitVec.ofNat 8 (55 + d.toNat)

/-- The bits of a string of hex digits, four to a character, first character first. -/
def hexDigits (s : Chars) : Except Exc Bits :=
  match s with
  | [] => .ok []
  | c :: cs =>
    match hexValue c with
    | none => .error .malformedInput
    | some d => (hexDigits cs).map fun v => wireBits d ++ v

/-- HEX2BIT: at most 28 characters, each a hex digit (40_bitcodec R90). -/
def hexToBits (s : Chars) : Except Exc Bits :=
  if 28 < s.length then .error .malformedInput else hexDigits s

/-- The hex digits of a vector, four wire bits to a character. -/
def hexChars (v : Bits) : Chars :=
  match v with
  | a :: b :: c :: d :: rest => hexChar (ofWire 4 [a, b, c, d]) :: hexChars rest
  | _ => []

/-- BIT2HEX: a width that is a multiple of 4 and at most 112 (40_bitcodec R91). -/
def bitsToHex (v : Bits) : Except Exc Chars :=
  if v.length % 4 ≠ 0 ∨ 112 < v.length then .error .operandRange else .ok (hexChars v)

/-- The hex string of a frame, always 28 characters (30_encoding R62). -/
def frameHex (f : BitVec 112) : Chars := hexChars (wireBits f)

/-- The 28 hex characters DEC and XMIT require (20_memory R51, 42_frame_codec R131). -/
def frameString (s : Chars) : Except Exc Bits :=
  if s.length ≠ 28 then .error .malformedInput else hexToBits s

/-! ### Slices of a frame -/

/-- `D = F[111:24]`, the data the CRC covers. -/
def frameData (f : BitVec 112) : BitVec 88 := f.extractLsb' 24 88
/-- `F[23:0]`, the received CRC. -/
def frameCrc (f : BitVec 112) : BitVec 24 := f.extractLsb' 0 24
/-- `DF = F[111:107]`. -/
def frameDf (f : BitVec 112) : BitVec 5 := f.extractLsb' 107 5
/-- `CA = F[106:104]`. -/
def frameCa (f : BitVec 112) : BitVec 3 := f.extractLsb' 104 3
/-- `ADDR = F[103:80]`. -/
def frameAddr (f : BitVec 112) : BitVec 24 := f.extractLsb' 80 24
/-- `CAT = F[74:72]`. -/
def frameCat (f : BitVec 112) : BitVec 3 := f.extractLsb' 72 3
/-- `CHAR_i = F[71-6i : 66-6i]`, for `i = 0 .. 7`. -/
def frameChar (f : BitVec 112) (i : Nat) : BitVec 6 := f.extractLsb' (66 - 6 * i) 6
/-- `SS = F[74:73]`. -/
def frameSs (f : BitVec 112) : BitVec 2 := f.extractLsb' 73 2
/-- `SAF = F[72]`. -/
def frameSaf (f : BitVec 112) : BitVec 1 := f.extractLsb' 72 1
/-- `A = F[71:60]`, the altitude field. -/
def frameAlt (f : BitVec 112) : BitVec 12 := f.extractLsb' 60 12
/-- `T = F[59]`. -/
def frameT (f : BitVec 112) : BitVec 1 := f.extractLsb' 59 1
/-- `FP = F[58]`, the CPR format parity. -/
def frameParity (f : BitVec 112) : BitVec 1 := f.extractLsb' 58 1
/-- `YZ = F[57:41]`. -/
def frameYz (f : BitVec 112) : BitVec 17 := f.extractLsb' 41 17
/-- `XZ = F[40:24]`. -/
def frameXz (f : BitVec 112) : BitVec 17 := f.extractLsb' 24 17

/-- The prefix fields and the type code of a frame (42_frame_codec R133). -/
def framePrefix (f : BitVec 112) : ReportPrefix :=
  ⟨frameDf f, frameCa f, frameAddr f, frameTypeCode f⟩

/-- `PREFIXBYTE = (DF << 3) | CA` (30_encoding R61). -/
def prefixByte (df : BitVec 5) (ca : BitVec 3) : BitVec 8 :=
  (df.setWidth 8 <<< 3) ||| ca.setWidth 8

/-- `ME = TC || CAT || CALLSIGN` (30_encoding R63). -/
def identMe (tc : BitVec 5) (cat : BitVec 3) (callsign : BitVec 48) : BitVec 56 :=
  tc ++ cat ++ callsign

/-- `ME = TC || SS || SAF || ALT || T || F || YZ || XZ` (30_encoding R65). -/
def positionMe (tc : BitVec 5) (ss : BitVec 2) (saf : BitVec 1) (alt : BitVec 12) (t f : BitVec 1)
    (yz xz : BitVec 17) : BitVec 56 :=
  tc ++ ss ++ saf ++ alt ++ t ++ f ++ yz ++ xz

/-- `A = N[10:4] || Q || N[3:0]` (30_encoding R66). -/
def altField (q : BitVec 1) (n : BitVec 11) : BitVec 12 :=
  n.extractLsb' 4 7 ++ q ++ n.extractLsb' 0 4

/-- The Q bit of an altitude field, `A[4]`. -/
def altQ (a : BitVec 12) : BitVec 1 := a.extractLsb' 4 1

/-- The magnitude of an altitude field, `N = A[11:5] || A[3:0]`. -/
def altN (a : BitVec 12) : BitVec 11 := a.extractLsb' 5 7 ++ a.extractLsb' 0 4

/-! ### The character map -/

/-- Character to 6-bit code (30_encoding R68, 40_bitcodec R92). -/
def charToSix (c : Byte) : BitVec 6 :=
  if 65 ≤ c.toNat ∧ c.toNat ≤ 90 then BitVec.ofNat 6 (c.toNat - 64)
  else if 48 ≤ c.toNat ∧ c.toNat ≤ 57 then BitVec.ofNat 6 c.toNat
  else 32

/-- 6-bit code to character; `#` for an undefined code (30_encoding R69, 40_bitcodec R93, log 17). -/
def sixToChar (x : BitVec 6) : Byte :=
  if 1 ≤ x.toNat ∧ x.toNat ≤ 26 then BitVec.ofNat 8 (x.toNat + 64)
  else if 48 ≤ x.toNat ∧ x.toNat ≤ 57 then BitVec.ofNat 8 x.toNat
  else if x.toNat = 32 then 32
  else 35

/-- Code `i` of a callsign: the character's code, or the space code past its end (30_encoding R64). -/
def callsignCode (s : Chars) (i : Nat) : BitVec 6 :=
  match s[i]? with
  | some c => charToSix c
  | none => 32

/-- The 48 bits of a callsign: eight codes, the first in the most significant place
(30_encoding R63, R64). -/
def callsignBits (s : Chars) : BitVec 48 :=
  callsignCode s 0 ++ callsignCode s 1 ++ callsignCode s 2 ++ callsignCode s 3 ++
    callsignCode s 4 ++ callsignCode s 5 ++ callsignCode s 6 ++ callsignCode s 7

/-! ### Signals -/

/-- The samples of a signal; a non-finite one is refused (60_exceptions R236). -/
def samples (s : List (Port ExactReal)) : Except Exc (List ExactReal) :=
  match s with
  | [] => .ok []
  | p :: ps =>
    match finiteValue p with
    | .error e => .error e
    | .ok x => (samples ps).map fun xs => x :: xs

end Sys2Proof.Machine
end

