-- ==== Sys2Proof/Machine/BitCodec.lean ====
section
/-!
DEFINITION. The BitCodec operations HEX2BIT, BIT2HEX, CHAR2SIX, SIX2CHAR (40_bitcodec).
-/

namespace Sys2Proof.Machine

/-- HEX2BIT (40_bitcodec R90). -/
def execHex2bit (str : Chars) (s : State) : Host.Outcome State Fault Refusal :=
  answer s ((hexToBits str).map .bits)

/-- BIT2HEX (40_bitcodec R91). -/
def execBit2hex (v : Bits) (s : State) : Host.Outcome State Fault Refusal :=
  answer s ((bitsToHex v).map .hex)

/-- CHAR2SIX (40_bitcodec R92). -/
def execChar2six (c : Byte) (s : State) : Host.Outcome State Fault Refusal :=
  answer s (.ok (.six (charToSix c)))

/-- SIX2CHAR (40_bitcodec R93). -/
def execSix2char (x : BitVec 6) (s : State) : Host.Outcome State Fault Refusal :=
  answer s (.ok (.char (sixToChar x)))

end Sys2Proof.Machine
end

