-- ==== Sys2Proof/Machine/Sign.lean ====
section
/-!
DEFINITION. The sign of every number of the physical layer, decided exactly (00_scope R14, item U1: over
the exact reals every rule is a total function).

Each number is algebraic: it is built from rationals by square roots, powers `10^(m/d)`, sums, products and
inverses. So a number that is not 0 is at least a computable distance away from 0 (`gap`): it lies in a field
whose degree over the rationals is at most `degreeOf`, is a quotient of algebraic integers, and the conjugates
of these are at most `height`. An approximation closer than that decides the sign.
-/

namespace Sys2Proof

/-- The greatest natural below `acc + 2 ^ bits` whose `d`-th power is at most `n`, one bit at a time. -/
def rootBits (d n : Nat) : Nat → Nat → Nat
  | 0, acc => acc
  | k + 1, acc => rootBits d n k (if (acc + 2 ^ k) ^ d ≤ n then acc + 2 ^ k else acc)

/-- An expression over rationals whose sign is to be decided. -/
inductive Radical where
  | rat (q : Rat)
  /-- `10 ^ (m / (k + 1))`. -/
  | root10 (m k : Nat)
  | sqrt (a : Radical)
  | add (a b : Radical)
  | mul (a b : Radical)
  | inv (a : Radical)
  deriving DecidableEq, Repr

namespace Radical

/-- The real number an expression stands for. No operation of the machine computes with it. -/
noncomputable def val : Radical → ℝ
  | rat q => q
  | root10 m k => (10 : ℝ) ^ ((m : ℝ) / ((k + 1 : Nat) : ℝ))
  | sqrt a => √a.val
  | add a b => a.val + b.val
  | mul a b => a.val * b.val
  | inv a => a.val⁻¹

/-! ### The numbers of the physical layer as such expressions -/

/-- `√2`. -/
def root1 : Radical := sqrt (rat 2)
/-- `√(2 + √2)`. -/
def root2 : Radical := sqrt (add (rat 2) root1)
/-- `√(2 + √(2 + √2))`. -/
def root3 : Radical := sqrt (add (rat 2) root2)

/-- An element of ℚ(√2). -/
def ofSurd1 (x : Surd1) : Radical := if x.b = 0 then rat x.a else add (rat x.a) (mul (rat x.b) root1)

/-- An element of ℚ(√(2 + √2)). -/
def ofSurd2 (x : Surd2) : Radical :=
  if x.b = ⟨0, 0⟩ then ofSurd1 x.a else add (ofSurd1 x.a) (mul (ofSurd1 x.b) root2)

/-- An element of ℚ(√(2 + √(2 + √2))), the field of the waveforms. -/
def ofSurd3 (x : Surd3) : Radical :=
  if x.b = ⟨⟨0, 0⟩, ⟨0, 0⟩⟩ then ofSurd2 x.a else add (ofSurd2 x.a) (mul (ofSurd2 x.b) root3)

/-- `10 ^ x`. -/
def ofTenPow (x : Rat) : Radical :=
  if 0 ≤ x then root10 x.num.toNat (x.den - 1) else inv (root10 (-x).num.toNat (x.den - 1))

/-- A number of the physical layer. -/
def ofExact : ExactReal → Radical
  | .alg x => ofSurd3 x
  | .pow10 x => ofTenPow x
  | .sqrt x => sqrt (ofExact x)
  | .add x y => add (ofExact x) (ofExact y)
  | .mul x y => mul (ofExact x) (ofExact y)
  | .div x y => mul (ofExact x) (inv (ofExact y))

/-! ### How near 0 a number can be -/

/-- The roots an expression is built from, each once, added to those of `acc`. -/
def roots : Radical → List Radical → List Radical
  | rat _, acc => acc
  | root10 m k, acc => if root10 m k ∈ acc then acc else root10 m k :: acc
  | sqrt a, acc => if sqrt a ∈ roots a acc then roots a acc else sqrt a :: roots a acc
  | add a b, acc => roots b (roots a acc)
  | mul a b, acc => roots b (roots a acc)
  | inv a, acc => roots a acc

/-- How much a root can multiply the degree of a field it is joined to. -/
def rootDegree : Radical → Nat
  | root10 _ k => k + 1
  | sqrt _ => 2
  | rat _ | add _ _ | mul _ _ | inv _ => 1

/-- A bound on the degree of a field that holds the roots. -/
def degreeOf (l : List Radical) : Nat := (l.map rootDegree).prod

/-- Bounds on the conjugates of two algebraic integers whose quotient a number is. -/
structure Height where
  num : Nat
  den : Nat
  deriving DecidableEq, Repr

/-- The heights of an expression, from those of its parts. -/
def height : Radical → Height
  | rat q => ⟨q.num.natAbs, q.den⟩
  | root10 m k => ⟨10 ^ (m / (k + 1) + 1), 1⟩
  | sqrt a => ⟨a.height.num * a.height.den, a.height.den⟩
  | add a b => ⟨a.height.num * b.height.den + b.height.num * a.height.den, a.height.den * b.height.den⟩
  | mul a b => ⟨a.height.num * b.height.num, a.height.den * b.height.den⟩
  | inv a => ⟨a.height.den, max a.height.num 1⟩

/-- A number of a field of degree at most `n` is 0, or at least `1 / gap` in size. -/
def gap (n : Nat) (a : Radical) : Nat := a.height.num ^ n * a.height.den

/-- A number of a field of degree at most `n` is at most this in size. -/
def size (n : Nat) (a : Radical) : Nat := a.height.num * a.height.den ^ n

/-- The number of bits after which an approximation decides whether a number is 0. -/
def gapBits (n : Nat) (a : Radical) : Nat := Nat.log2 (gap n a) + 2

/-- A rational within `2 ^ -p` of a number of a field of degree at most `n`. -/
def approx (n : Nat) : Radical → Nat → Rat
  | rat q, _ => q
  | root10 m k, p =>
    mkRat (rootBits (k + 1) (10 ^ m * 2 ^ (p * (k + 1))) (p + 4 * (m / (k + 1) + 1)) 0) (2 ^ p)
  | sqrt a, p =>
    mkRat (Nat.sqrt (approx n a (2 * p + 2) * 4 ^ (p + 1)).floor.toNat) (2 ^ (p + 1))
  | add a b, p => approx n a (p + 1) + approx n b (p + 1)
  | mul a b, p =>
    approx n a (p + 2 + Nat.log2 (size n b + 1)) * approx n b (p + 2 + Nat.log2 (size n a + 1))
  | inv a, p =>
    if |approx n a (gapBits n a)| * 2 ^ (gapBits n a) ≤ 1 then 0
    else (approx n a (p + 2 * gapBits n a))⁻¹

/-- The sign of an expression. -/
def sign (a : Radical) : SignType :=
  let n := degreeOf (roots a [])
  let q := approx n a (gapBits n a)
  if q * 2 ^ (gapBits n a) > 1 then 1 else if q * 2 ^ (gapBits n a) < -1 then -1 else 0

end Radical

end Sys2Proof
end

