-- ==== Sys2Proof/Machine/Exact.lean ====
section
/-!
DEFINITION. Exact real arithmetic (00_scope R14, R17): the field ℚ(cos(π/16)) as a tower of three
square roots, the real expressions over it, their signs, and floored division over the rationals.

Every sign is exact: from the exact field, from an enclosure between rationals, and where these do not
decide it, from Machine/Sign.lean (log 7). Floors and comparisons of rationals go through the numerics
record (00_scope R14, log 6).
-/

namespace Sys2Proof

/-! ### The tower of square roots -/

def Surd1.ofRat (q : Rat) : Surd1 := ⟨q, 0⟩
def Surd2.ofRat (q : Rat) : Surd2 := ⟨Surd1.ofRat q, Surd1.ofRat 0⟩
def Surd3.ofRat (q : Rat) : Surd3 := ⟨Surd2.ofRat q, Surd2.ofRat 0⟩

def Surd1.add (x y : Surd1) : Surd1 := ⟨x.a + y.a, x.b + y.b⟩
def Surd2.add (x y : Surd2) : Surd2 := ⟨x.a.add y.a, x.b.add y.b⟩
def Surd3.add (x y : Surd3) : Surd3 := ⟨x.a.add y.a, x.b.add y.b⟩

def Surd1.neg (x : Surd1) : Surd1 := ⟨-x.a, -x.b⟩
def Surd2.neg (x : Surd2) : Surd2 := ⟨x.a.neg, x.b.neg⟩
def Surd3.neg (x : Surd3) : Surd3 := ⟨x.a.neg, x.b.neg⟩

/-- `√2 * √2 = 2`. -/
def Surd1.mul (x y : Surd1) : Surd1 :=
  ⟨x.a * y.a + 2 * (x.b * y.b), x.a * y.b + x.b * y.a⟩

/-- Multiplication by `2 + √2`, the square of the second root. -/
def Surd1.mulD (x : Surd1) : Surd1 := ⟨2 * x.a + 2 * x.b, x.a + 2 * x.b⟩

def Surd2.mul (x y : Surd2) : Surd2 :=
  ⟨(x.a.mul y.a).add (x.b.mul y.b).mulD, (x.a.mul y.b).add (x.b.mul y.a)⟩

/-- Multiplication by `2 + √(2 + √2)`, the square of the third root. -/
def Surd2.mulD (x : Surd2) : Surd2 :=
  ⟨(x.a.add x.a).add x.b.mulD, x.a.add (x.b.add x.b)⟩

def Surd3.mul (x y : Surd3) : Surd3 :=
  ⟨(x.a.mul y.a).add (x.b.mul y.b).mulD, (x.a.mul y.b).add (x.b.mul y.a)⟩

/-- The candidate inverse: the conjugate over the norm. `ExactReal.div` uses it only after checking that
it is the inverse. -/
def Surd1.inv (x : Surd1) : Surd1 :=
  let n := x.a * x.a - 2 * (x.b * x.b)
  ⟨x.a / n, -x.b / n⟩

def Surd2.inv (x : Surd2) : Surd2 :=
  let n := ((x.a.mul x.a).add (x.b.mul x.b).mulD.neg).inv
  ⟨x.a.mul n, x.b.neg.mul n⟩

def Surd3.inv (x : Surd3) : Surd3 :=
  let n := ((x.a.mul x.a).add (x.b.mul x.b).mulD.neg).inv
  ⟨x.a.mul n, x.b.neg.mul n⟩

/-- The rational a field element is, if its irrational parts are 0. -/
def Surd3.toRat (x : Surd3) : Option Rat :=
  if x = Surd3.ofRat x.a.a.a then some x.a.a.a else none

/-- The sign of a rational. -/
def ratSign (q : Rat) : SignType := if 0 < q then 1 else if q < 0 then -1 else 0

/-- The sign of `a + b * √d`, from the signs of `a`, of `b` and of `a² - b² d`. -/
def surdSign (sa sb sn : SignType) : SignType :=
  if sa = sb then sa
  else if sa = 0 then sb
  else if sb = 0 then sa
  else sa * sn

def Surd1.sign (x : Surd1) : SignType :=
  surdSign (ratSign x.a) (ratSign x.b) (ratSign (x.a * x.a - 2 * (x.b * x.b)))

def Surd2.sign (x : Surd2) : SignType :=
  surdSign x.a.sign x.b.sign ((x.a.mul x.a).add (x.b.mul x.b).mulD.neg).sign

def Surd3.sign (x : Surd3) : SignType :=
  surdSign x.a.sign x.b.sign ((x.a.mul x.a).add (x.b.mul x.b).mulD.neg).sign

/-! ### The sine at multiples of π/16 -/

/-- `sin(π j / 16)` for `j = 0 .. 8`. -/
def sinEighth (j : Nat) : Surd3 :=
  match j with
  | 0 => ⟨⟨⟨0, 0⟩, ⟨0, 0⟩⟩, ⟨⟨0, 0⟩, ⟨0, 0⟩⟩⟩
  | 1 => ⟨⟨⟨0, 0⟩, ⟨0, 0⟩⟩, ⟨⟨-1/2, -1/2⟩, ⟨0, 1/2⟩⟩⟩
  | 2 => ⟨⟨⟨0, 0⟩, ⟨-1/2, 1/2⟩⟩, ⟨⟨0, 0⟩, ⟨0, 0⟩⟩⟩
  | 3 => ⟨⟨⟨0, 0⟩, ⟨0, 0⟩⟩, ⟨⟨1/2, 1/2⟩, ⟨-1/2, 0⟩⟩⟩
  | 4 => ⟨⟨⟨0, 1/2⟩, ⟨0, 0⟩⟩, ⟨⟨0, 0⟩, ⟨0, 0⟩⟩⟩
  | 5 => ⟨⟨⟨0, 0⟩, ⟨0, 0⟩⟩, ⟨⟨-1/2, 0⟩, ⟨1/2, 0⟩⟩⟩
  | 6 => ⟨⟨⟨0, 0⟩, ⟨1/2, 0⟩⟩, ⟨⟨0, 0⟩, ⟨0, 0⟩⟩⟩
  | 7 => ⟨⟨⟨0, 0⟩, ⟨0, 0⟩⟩, ⟨⟨1/2, 0⟩, ⟨0, 0⟩⟩⟩
  | _ => ⟨⟨⟨1, 0⟩, ⟨0, 0⟩⟩, ⟨⟨0, 0⟩, ⟨0, 0⟩⟩⟩

/-- `sin(π j / 16)` for `j = 0 .. 31`, by the symmetries of the sine. -/
def sinTurn32 (j : Nat) : Surd3 :=
  if j ≤ 8 then sinEighth j
  else if j ≤ 16 then sinEighth (16 - j)
  else if j ≤ 24 then (sinEighth (j - 16)).neg
  else (sinEighth (32 - j)).neg

namespace ExactReal

/-! ### Real functions, reduced to a field element where they are one -/

def ofRat (q : Rat) : ExactReal := .alg (Surd3.ofRat q)

/-- `sin(2π t)` for `32 t` an integer, as at every sample instant of both legal values of SPS
(44_phy_channel R181). -/
def sinTurns (t : Rat) : ExactReal := .alg (sinTurn32 ((t * 32).floor % 32).toNat)

/-- `10 ^ x`: rational when `x` is an integer. -/
def tenPow (x : Rat) : ExactReal :=
  if x.den = 1 then ofRat ((10 : Rat) ^ x.num) else .pow10 x

/-- The square root of a rational that is the square of a rational. -/
def ratSqrt (q : Rat) : Option Rat :=
  let r : Rat := mkRat (Nat.sqrt q.num.toNat) (Nat.sqrt q.den)
  if r * r = q then some r else none

/-- The square root of a rational `q` as a field element: `r`, or `r √2`, with `r` rational. -/
def fieldSqrt (q : Rat) : Option Surd3 :=
  match ratSqrt q with
  | some r => some (Surd3.ofRat r)
  | none =>
    match ratSqrt (q / 2) with
    | some r => some ⟨⟨⟨0, r⟩, ⟨0, 0⟩⟩, ⟨⟨0, 0⟩, ⟨0, 0⟩⟩⟩
    | none => none

/-- `sqrt x`. -/
def root (x : ExactReal) : ExactReal :=
  match x with
  | .alg y =>
    match y.toRat with
    | some q =>
      match fieldSqrt q with
      | some r => .alg r
      | none => .sqrt x
    | none => .sqrt x
  | _ => .sqrt x

/-- The number 0 as the exact field holds it. -/
def isLitZero (x : ExactReal) : Bool := x == ofRat 0

/-- The number 1 as the exact field holds it. -/
def isLitOne (x : ExactReal) : Bool := x == ofRat 1

/-- `x + y`. -/
def plus (x y : ExactReal) : ExactReal :=
  if x.isLitZero then y
  else if y.isLitZero then x
  else
    match x, y with
    | .alg u, .alg v => .alg (u.add v)
    | _, _ => .add x y

/-- `x * y`. -/
def times (x y : ExactReal) : ExactReal :=
  if x.isLitZero || y.isLitZero then ofRat 0
  else if x.isLitOne then y
  else if y.isLitOne then x
  else
    match x, y with
    | .alg u, .alg v => .alg (u.mul v)
    | _, _ => .mul x y

/-- `x / y`, for a divisor that is not 0. -/
def quot (x y : ExactReal) : ExactReal :=
  if x.isLitZero then ofRat 0
  else if y.isLitOne then x
  else
    match x, y with
    | .alg u, .alg v => if v.mul v.inv = Surd3.ofRat 1 then .alg (u.mul v.inv) else .div x y
    | _, _ => .div x y

/-- `-x`. -/
def opp (x : ExactReal) : ExactReal :=
  match x with
  | .alg u => .alg u.neg
  | _ => times (ofRat (-1)) x

/-- `x - y`. -/
def minus (x y : ExactReal) : ExactReal := plus x (opp y)

/-- The sum of a sequence. -/
def total (l : List ExactReal) : ExactReal := l.foldr plus (ofRat 0)

/-- The exact sign of an expression where it is decided without enclosures; none otherwise. -/
def exactSign : ExactReal → Option SignType
  | .alg x => some x.sign
  | .pow10 _ => some 1
  | .sqrt x =>
    match exactSign x with
    | some s => some (if s = 1 then 1 else 0)
    | none => none
  | .add x y =>
    match exactSign x, exactSign y with
    | some s, some t =>
      if s = t then some s else if s = 0 then some t else if t = 0 then some s else none
    | _, _ => none
  | .mul x y | .div x y =>
    match exactSign x, exactSign y with
    | some s, some t => some (s * t)
    | _, _ => none

/-! ### Enclosures -/

/-- The number of bits an enclosed root is computed to. -/
def precision : Nat := 128

/-- The bits of a rational's numerator and denominator. -/
def ratBits (q : Rat) : Nat := Nat.log2 q.num.natAbs + Nat.log2 q.den + 2

def surdBits (x : Surd1) : Nat := ratBits x.a + ratBits x.b

/-- The number of bits the roots of a field element are computed to: enough above `precision` for the
cancellation its eight coefficients allow, its seven conjugates being at most as large as their sum. -/
def fieldPrecision (x : Surd3) : Nat :=
  precision + 8 * (surdBits x.a.a + surdBits x.a.b + surdBits x.b.a + surdBits x.b.b)

/-- A pair of rationals with `lo ≤ x ≤ hi`. -/
structure Enclosure where
  lo : Rat
  hi : Rat
  deriving DecidableEq, Repr

/-- A rational at most the square root of `q`: with `q = m/d`, `floor(√(m d 4^p)) / (d 2^p)`. -/
def sqrtBelow (p : Nat) (q : Rat) : Rat :=
  mkRat (Nat.sqrt (q.num.toNat * q.den * 4 ^ p)) (q.den * 2 ^ p)

/-- A rational above the square root of `q`. -/
def sqrtAbove (p : Nat) (q : Rat) : Rat :=
  mkRat (Nat.sqrt (q.num.toNat * q.den * 4 ^ p) + 1) (q.den * 2 ^ p)

def Enclosure.ofRat (q : Rat) : Enclosure := ⟨q, q⟩
def Enclosure.add (x y : Enclosure) : Enclosure := ⟨x.lo + y.lo, x.hi + y.hi⟩
def Enclosure.sqrt (p : Nat) (x : Enclosure) : Enclosure := ⟨sqrtBelow p x.lo, sqrtAbove p x.hi⟩

/-- The least and the greatest product of end points. -/
def Enclosure.mul (x y : Enclosure) : Enclosure :=
  ⟨min (min (x.lo * y.lo) (x.lo * y.hi)) (min (x.hi * y.lo) (x.hi * y.hi)),
   max (max (x.lo * y.lo) (x.lo * y.hi)) (max (x.hi * y.lo) (x.hi * y.hi))⟩

/-- The inverse of a number whose enclosure does not contain 0. -/
def Enclosure.inv (x : Enclosure) : Option Enclosure :=
  if 0 < x.lo ∨ x.hi < 0 then some ⟨1 / x.hi, 1 / x.lo⟩ else none

/-- An enclosure of `√2`. -/
def Enclosure.root1 (p : Nat) : Enclosure := (Enclosure.ofRat 2).sqrt p
/-- An enclosure of `√(2 + √2)`. -/
def Enclosure.root2 (p : Nat) : Enclosure := ((Enclosure.ofRat 2).add (Enclosure.root1 p)).sqrt p
/-- An enclosure of `√(2 + √(2 + √2))`. -/
def Enclosure.root3 (p : Nat) : Enclosure := ((Enclosure.ofRat 2).add (Enclosure.root2 p)).sqrt p

def Enclosure.ofSurd1 (p : Nat) (x : Surd1) : Enclosure :=
  (Enclosure.ofRat x.a).add ((Enclosure.ofRat x.b).mul (Enclosure.root1 p))
def Enclosure.ofSurd2 (p : Nat) (x : Surd2) : Enclosure :=
  (Enclosure.ofSurd1 p x.a).add ((Enclosure.ofSurd1 p x.b).mul (Enclosure.root2 p))
def Enclosure.ofSurd3 (p : Nat) (x : Surd3) : Enclosure :=
  (Enclosure.ofSurd2 p x.a).add ((Enclosure.ofSurd2 p x.b).mul (Enclosure.root3 p))

/-- An enclosure of `10 ^ x`: with `x = m/d` and `m = d w + r`, the `d`-th root of `10 ^ r` to
`precision` bits, times `10 ^ w`. -/
def Enclosure.tenPow (x : Rat) : Enclosure :=
  let w := x.num / (x.den : Int)
  let r := (x.num % (x.den : Int)).toNat
  let m := rootBits x.den (10 ^ r * 2 ^ (precision * x.den)) (precision + 4) 0
  ⟨mkRat m (2 ^ precision) * (10 : Rat) ^ w, mkRat (m + 1) (2 ^ precision) * (10 : Rat) ^ w⟩

/-- An enclosure of an expression; none where a divisor may be 0. -/
def enclose : ExactReal → Option Enclosure
  | .alg x => some (Enclosure.ofSurd3 (fieldPrecision x) x)
  | .pow10 x => some (Enclosure.tenPow x)
  | .sqrt x =>
    match enclose x with
    | some e => some (e.sqrt precision)
    | none => none
  | .add x y =>
    match enclose x, enclose y with
    | some e, some e' => some (e.add e')
    | _, _ => none
  | .mul x y =>
    match enclose x, enclose y with
    | some e, some e' => some (e.mul e')
    | _, _ => none
  | .div x y =>
    match enclose x, enclose y with
    | some e, some e' =>
      match e'.inv with
      | some i => some (e.mul i)
      | none => none
    | _, _ => none

/-- The sign of an expression, where the exact field or an enclosure decides it: most signs, soon. -/
def decidedSign (x : ExactReal) : Option SignType :=
  match exactSign x with
  | some s => some s
  | none =>
    match enclose x with
    | some e => if 0 < e.lo then some 1 else if e.hi < 0 then some (-1) else none
    | none => none

/-- The sign of an expression. -/
def sgn (x : ExactReal) : SignType :=
  match decidedSign x with
  | some s => s
  | none => (Radical.ofExact x).sign

/-- `x > y`. -/
def greater (x y : ExactReal) : Bool := (minus x y).sgn == 1

end ExactReal

/-! ### Rational functions of 00_scope R17 -/

/-- The floored modulo `a - b * floor(a / b)` of reals (00_scope R17). -/
def fmod (a b : Rat) : Rat := a - b * ((a / b).floor : Int)

/-- `|x|`. -/
def ratAbs (x : Rat) : Rat := if x < 0 then -x else x

/-! ### The numerics record (00_scope R14) -/

/-- How near an integer a number of size `scale`, computed with a few roundings of relative size 2^-53,
counts as within rounding distance of it (log 6). -/
def roundingDistance (scale : Rat) : Rat := ratAbs scale / 2 ^ 40

/-- `floor x` in the arithmetic of the build: the floor, and in a build that rounds any floor of a number
within `dist` of `x`. -/
def Numerics.floorOf (num : Numerics) (p : Place) (operands : List Rat) (x dist : Rat) : Int :=
  match num with
  | .exact => x.floor
  | .rounded =>
    if (x - dist).floor = (x + dist).floor then x.floor
    else max (x - dist).floor (min (x + dist).floor (Config.roundedFloor p operands))

/-- What a number was computed from, where that can decide how it was rounded: nothing, for the
reference. -/
def Numerics.origin (num : Numerics) (computedFrom : List Rat) : List Rat :=
  match num with
  | .exact => []
  | .rounded => computedFrom

/-- `x ≥ bound` in the arithmetic of the build: the comparison, and in a build that rounds either answer
for an `x` within `dist` of the bound. -/
def Numerics.atLeast (num : Numerics) (p : Place) (operands : List Rat) (x bound dist : Rat) : Bool :=
  match num with
  | .exact => decide (bound ≤ x)
  | .rounded =>
    if bound + dist ≤ x then true
    else if x ≤ bound - dist then false
    else Config.roundedAtLeast p operands

end Sys2Proof
end

