-- ==== Sys2Proof/Machine/Cpr.lean ====
section
/-!
DEFINITION. The CPR unit: `calculateNL` and the operations CPR.NL, CPR.ENC, CPR.PAIR, CPR.RESOLVE
(43_cpr), over exact rationals (R168). The formulas are normative as written (R158, 90_conflicts C1).
-/

namespace Sys2Proof.Machine

/-! ### calculateNL -/

/-- The transition latitudes `L(n)` of 43_cpr R151 in units of 1e-10 degrees, for `n = 59 .. 3`. -/
def transitions : List (Nat × Nat) :=
  [(59, 104704713000), (58, 148281743687), (57, 181862635707), (56, 210293949260),
   (55, 235450448656), (54, 258292470706), (53, 279389871012), (52, 299113568573),
   (51, 317720970768), (50, 335399343630), (49, 352289959780), (48, 368502510759),
   (47, 384124189241), (46, 399225668433), (45, 413865183226), (44, 428091401224),
   (43, 441945495142), (42, 455462672266), (41, 468673325250), (40, 481603912810)] ++
  [(39, 494277643926), (38, 506715016555), (37, 518934246917), (36, 530951615280),
   (35, 542781747227), (34, 554437844450), (33, 565931875621), (32, 577274735387),
   (31, 588476377615), (30, 599545927669), (29, 610491777425), (28, 621321665921),
   (27, 632042747938), (26, 642661652257), (25, 653184530968), (24, 663617100838),
   (23, 673964677408), (22, 684232202208), (21, 694424263114), (20, 704545107499)] ++
  [(19, 714598647303), (18, 724588454473), (17, 734517744167), (16, 744389341573),
   (15, 754205625665), (14, 763968439079), (13, 773678946133), (12, 783337408292),
   (11, 792942822546), (10, 802492321328), (9, 811980134927), (8, 821395698051),
   (7, 830719944472), (6, 839917356298), (5, 848916619070), (4, 857554162094),
   (3, 865353699751)]

/-- How near a transition latitude the value of NL is left to the implementation: 1e-9 degrees
(43_cpr R151). -/
def transitionBand : Rat := 1 / 10 ^ 9

/-- Whether `absLat ≤ L(n)`; within the band around `L(n)` the free choice of item U1 (log 8). -/
def withinZone (n : Nat) (origin : List Rat) (transition absLat : Rat) : Bool :=
  if absLat ≤ transition - transitionBand then true
  else if transition + transitionBand ≤ absLat then false
  else Config.atTransition n absLat origin

/-- The largest `n` of a table with `absLat ≤ L(n)`; `last` below the table. -/
def zoneCount (last : Nat) (origin : List Rat) (table : List (Nat × Nat)) (absLat : Rat) : Nat :=
  match table with
  | [] => last
  | (n, t) :: rest =>
    if withinZone n origin ((t : Rat) / 10 ^ 10) absLat then n else zoneCount last origin rest absLat

/-- The zone count past the table's last entry: 2 up to 87 degrees, 1 beyond (43_cpr R150). A build that
rounds may compare otherwise within the band around 87 (00_scope R14). -/
def polarCount (num : Numerics) (origin : List Rat) (absLat : Rat) : Nat :=
  match num with
  | .exact => if absLat ≤ 87 then 2 else 1
  | .rounded => if withinZone 2 origin 87 absLat then 2 else 1

/-- How near 0 a latitude counts as within rounding distance of it: 1e-4 degrees, where the quotient of
43_cpr R150 is within 1e-10 of 60 (log 6). -/
def equatorBand : Rat := 1 / 10 ^ 4

/-- Whether the zone count near 0 is 60, what the formula alone gives at 0 (43_cpr R152): never in the
reference, and a free choice of a build that rounds within rounding distance of the comparison with 0
(00_scope R14). -/
def equatorRoundsUp (num : Numerics) (origin : List Rat) (absLat : Rat) : Bool :=
  match num with
  | .exact => false
  | .rounded => decide (absLat < equatorBand) && Config.roundedAtLeast .equator (absLat :: origin)

/-- `NL(lat)`: the case 0, then the table form of the formula with the cases at 87 degrees and beyond
(43_cpr R150, R151); 60 only where a build that rounds has it so near 0. A build may answer otherwise for
a latitude it has computed, so `computedFrom` is what it computed it from: nothing, for an operand. -/
def calculateNL (num : Numerics) (computedFrom : List Rat) (lat : Rat) : Nat :=
  let origin := num.origin computedFrom
  if equatorRoundsUp num origin (ratAbs lat) then 60
  else if lat = 0 then 59
  else zoneCount (polarCount num origin (ratAbs lat)) origin transitions (ratAbs lat)

/-! ### Encoding -/

/-- A CPR integer: `floor(fmod(x, d) / d * 2^17 + 1/2)`, its low 17 bits (43_cpr R154 to R156). -/
def cprInteger (num : Numerics) (p : Place) (operands : List Rat) (x d : Rat) : BitVec 17 :=
  BitVec.ofInt 17 (num.floorOf p operands (fmod x d / d * 131072 + 1 / 2)
    (roundingDistance (131072 * (ratAbs (x / d) + 1))))

/-- The latitude zone size `360 / (60 - p)` (43_cpr R154). -/
def dLat (p : BitVec 1) : Rat := 360 / (60 - (p.toNat : Rat))

/-- The encoder's longitude zone count, from `NL(lat + p)` (43_cpr R155). -/
def lonZones (num : Numerics) (lat : Rat) (p : BitVec 1) : Nat :=
  max (calculateNL num [lat, p.toNat] (lat + (p.toNat : Rat))) 1

/-- The encoder's longitude zone size (43_cpr R155). -/
def dLonEnc (num : Numerics) (lat : Rat) (p : BitVec 1) : Rat := 360 / (lonZones num lat p : Rat)

/-- CPR.ENC over finite operands (43_cpr R157). -/
def cprEncode (num : Numerics) (lat lon : Rat) (p : BitVec 1) : BitVec 17 × BitVec 17 :=
  (cprInteger num .cprLat [lat, p.toNat] lat (dLat p),
    cprInteger num .cprLon [lon, lonZones num lat p] (if lon < 0 then lon + 360 else lon)
      (dLonEnc num lat p))

/-! ### Resolving a pair -/

/-- The raw fraction of a CPR integer (43_cpr R160). -/
def rawFraction (z : BitVec 17) : Rat := (z.toNat : Rat) / 131072

/-- The latitude zone index `j` (43_cpr R162). -/
def zoneIndex (num : Numerics) (yzE yzO : BitVec 17) : Int :=
  num.floorOf .zoneIndex [rawFraction yzE, rawFraction yzO]
    (59 * rawFraction yzE - 60 * rawFraction yzO + 1 / 2) (roundingDistance 120)

/-- "subtract 360 if at least the limit" (43_cpr R163, R167). -/
def normalize (num : Numerics) (p : Place) (operands : List Rat) (limit x : Rat) : Rat :=
  if num.atLeast p operands x limit (roundingDistance 360) then x - 360 else x

/-- What the latitude of a report is computed from: the number of zones, the zone index and the raw
fraction. -/
def latOperands (num : Numerics) (zones : Nat) (yzE yzO yz : BitVec 17) : List Rat :=
  [zones, zoneIndex num yzE yzO, rawFraction yz]

/-- `latEven` (43_cpr R163). -/
def latEven (num : Numerics) (yzE yzO : BitVec 17) : Rat :=
  normalize num .latEven (latOperands num 60 yzE yzO yzE) 270
    (360 / 60 * (((zoneIndex num yzE yzO % 60 : Int) : Rat) + rawFraction yzE))

/-- `latOdd` (43_cpr R163). -/
def latOdd (num : Numerics) (yzE yzO : BitVec 17) : Rat :=
  normalize num .latOdd (latOperands num 59 yzE yzO yzO) 270
    (360 / 59 * (((zoneIndex num yzE yzO % 59 : Int) : Rat) + rawFraction yzO))

/-- The longitude index `m`, from `nl = NL(lat)` (43_cpr R166). -/
def lonIndex (num : Numerics) (nl : Nat) (xzE xzO : BitVec 17) : Int :=
  num.floorOf .lonIndex [nl, rawFraction xzE, rawFraction xzO]
    (rawFraction xzE * ((nl : Rat) - 1) - rawFraction xzO * (nl : Rat) + 1 / 2)
    (roundingDistance 120)

/-- `(360/n) * ((m mod n) + fraction)` (43_cpr R167). -/
def lonInZone (n : Nat) (m : Int) (xz : BitVec 17) : Rat :=
  360 / (n : Rat) * (((m % (n : Int) : Int) : Rat) + rawFraction xz)

/-- CPR.PAIR: the position of an even and an odd report; none for RESOLVED = 0 (43_cpr R161). -/
def resolvePair (num : Numerics) (yzE xzE : BitVec 17) (tE : BitVec 1) (yzO xzO : BitVec 17)
    (tO : BitVec 1) : Option (Rat × Rat) :=
  let fromE := latOperands num 60 yzE yzO yzE
  let fromO := latOperands num 59 yzE yzO yzO
  let nlE := calculateNL num fromE (latEven num yzE yzO)
  let nlO := calculateNL num fromO (latOdd num yzE yzO)
  if nlE ≠ nlO then none
  else if tO ≤ tE then
    let n := max nlE 1
    let m := lonIndex num nlE xzE xzO
    some (latEven num yzE yzO,
      normalize num .longitude [n, m, rawFraction xzE] 180 (lonInZone n m xzE))
  else
    let n := max (calculateNL num (fromO ++ [1]) (latOdd num yzE yzO - 1)) 1
    let m := lonIndex num nlO xzE xzO
    some (latOdd num yzE yzO,
      normalize num .longitude [n, m, rawFraction xzO] 180 (lonInZone n m xzO))

/-- CPR.RESOLVE against a History: the latest report with its newest partner (43_cpr R170). -/
def resolveIn (num : Numerics) (h : List Record) (addr : BitVec 24) (fp : BitVec 1)
    (yz xz : BitVec 17) (t : BitVec 1) : Option (Rat × Rat) :=
  match histFind h addr fp with
  | none => none
  | some r =>
    if fp = 0 then resolvePair num yz xz t r.yz r.xz r.t else resolvePair num r.yz r.xz r.t yz xz t

/-! ### The operations -/

/-- CPR.NL (43_cpr R153). -/
def execCprNl (lat : Port Rat) (s : State) : Host.Outcome State Fault Refusal :=
  answer s ((finiteValue lat).map fun x => .nl (calculateNL s.num [] x))

/-- CPR.ENC with its operands tested in order (43_cpr R157). -/
def cprEncodePorts (num : Numerics) (lat lon : Port Rat) (p : BitVec 1) :
    Except Exc (BitVec 17 × BitVec 17) :=
  match finiteValue lat, finiteValue lon with
  | .ok x, .ok y => .ok (cprEncode num x y p)
  | .error e, _ => .error e
  | _, .error e => .error e

/-- CPR.ENC (43_cpr R157). -/
def execCprEnc (lat lon : Port Rat) (parity : BitVec 1) (s : State) :
    Host.Outcome State Fault Refusal :=
  answer s ((cprEncodePorts s.num lat lon parity).map fun z => .cpr z.1 z.2)

/-- CPR.PAIR (43_cpr R161). -/
def execCprPair (yzE xzE : BitVec 17) (tE : BitVec 1) (yzO xzO : BitVec 17) (tO : BitVec 1)
    (s : State) : Host.Outcome State Fault Refusal :=
  answer s (.ok (.resolved (resolvePair s.num yzE xzE tE yzO xzO tO)))

/-- CPR.RESOLVE (43_cpr R170). -/
def execCprResolve (address : BitVec 24) (fp : BitVec 1) (yz xz : BitVec 17) (t : BitVec 1)
    (s : State) : Host.Outcome State Fault Refusal :=
  answer s (.ok (.resolved (resolveIn s.num s.hist address fp yz xz t)))

end Sys2Proof.Machine
end

