-- ==== Sys2Proof/Machine/Crc.lean ====
section
/-!
DEFINITION. The CRC-24 unit: `crc24` and the operations CRC.GEN and CRC.CHK (41_crc24).
-/

namespace Sys2Proof.Machine

/-- The generator `G`, 25 bits (41_crc24 R100). -/
def generator : BitVec 25 := 0x1FFF409

/-- Iteration `i` of the division: if wire bit `i` of the buffer is 1, the generator is added into
the window of wire bits `[i, i + 25)`; in the integer form of 41_crc24 R104. -/
def crcStep (b : BitVec 112) (i : Nat) : BitVec 112 :=
  if b.getLsbD (111 - i) then b ^^^ (generator.setWidth 112 <<< (87 - i)) else b

/-- `crc24(D)`: the data followed by 24 zeros, positions 0 to 87 in turn; the last 24 bits of the
buffer (41_crc24 R101). -/
def crc24 (d : BitVec 88) : BitVec 24 :=
  ((List.range 88).foldl crcStep (d ++ (0 : BitVec 24))).extractLsb' 0 24

/-- Whether the recomputed CRC of a frame equals the received one (41_crc24 R103). -/
def crcPasses (f : BitVec 112) : Bool := crc24 (frameData f) == frameCrc f

/-- CRC.GEN (41_crc24 R102). -/
def execCrcGen (d : BitVec 88) (s : State) : Host.Outcome State Fault Refusal :=
  answer s (.ok (.crc (crc24 d)))

/-- CRC.CHK (41_crc24 R103). -/
def execCrcChk (f : BitVec 112) (s : State) : Host.Outcome State Fault Refusal :=
  answer s (.ok (.check (crcPasses f) (crc24 (frameData f))))

end Sys2Proof.Machine
end

