-- ==== Sys2Proof/Machine/FrameCodec.lean ====
section
/-!
DEFINITION. The frame codec: the altitude field, the encoders and the decoder (42_frame_codec).
-/

namespace Sys2Proof.Machine

/-! ### The altitude field -/

/-- The altitude in feet, unrounded (42_frame_codec R115). -/
def feet (m : Rat) : Rat := m * 1250 / 381

/-- The step of a Q bit, in feet (42_frame_codec R116, R119). -/
def altStep (q : BitVec 1) : Nat := if q = 1 then 25 else 100

/-- The Q bit of an altitude in feet: 0 from 50000 ft up (42_frame_codec R116). -/
def altQOf (num : Numerics) (ft : Rat) : BitVec 1 :=
  if num.atLeast .altitudeStep [ft] ft 50000 (roundingDistance ft) then 0 else 1

/-- The magnitude of an altitude in feet, in steps from -1000 ft (42_frame_codec R116). -/
def altMagnitude (num : Numerics) (ft : Rat) : Int :=
  num.floorOf .altitudeMagnitude [ft] ((ft + 1000) / (altStep (altQOf num ft) : Rat))
    (roundingDistance (ratAbs ft + 1000))

/-- ALT.ENC over a finite operand (42_frame_codec R117, R118). -/
def altEncode (num : Numerics) (m : Rat) : Except Exc (BitVec 12) :=
  let n := altMagnitude num (feet m)
  if n < 0 ∨ 2047 < n then .error .operandRange
  else .ok (altField (altQOf num (feet m)) (BitVec.ofInt 11 n))

/-- The feet an altitude field decodes to (42_frame_codec R119). -/
def altFeet (a : BitVec 12) : Int := (altN a).toNat * altStep (altQ a) - 1000

/-- The metres an altitude field decodes to (42_frame_codec R119). -/
def altMetres (a : BitVec 12) : Rat := (altFeet a : Rat) * 381 / 1250

/-- ALT.ENC (42_frame_codec R117). -/
def execAltEnc (m : Port Rat) (s : State) : Host.Outcome State Fault Refusal :=
  answer s (match finiteValue m with
    | .ok x => (altEncode s.num x).map .altField
    | .error e => .error e)

/-- ALT.DEC (42_frame_codec R119). -/
def execAltDec (a : BitVec 12) (s : State) : Host.Outcome State Fault Refusal :=
  answer s (.ok (.altitude (altQ a) (altN a) (altFeet a) (altMetres a)))

/-! ### The encoders -/

/-- `D || crc24(D)` with `D = PREFIXBYTE || ADDR || ME` (30_encoding R62, 42_frame_codec R121). -/
def assemble (df : BitVec 5) (ca : BitVec 3) (addr : BitVec 24) (me : BitVec 56) : BitVec 112 :=
  let d : BitVec 88 := prefixByte df ca ++ addr ++ me
  d ++ crc24 d

/-- A built frame with its hex string; DF or CA unset raises CONFIG_UNSET (42_frame_codec R121). -/
def build (s : State) (addr : BitVec 24) (me : BitVec 56) : Except Exc Result :=
  match whenSet s.df, whenSet s.ca with
  | .ok df, .ok ca => .ok (.frame (assemble df ca addr me) (frameHex (assemble df ca addr me)))
  | .error e, _ => .error e
  | _, .error e => .error e

/-- ENC.ID (42_frame_codec R122). -/
def execEncId (address : BitVec 24) (category : BitVec 3) (callsign : Chars) (typeCode : BitVec 5)
    (s : State) : Host.Outcome State Fault Refusal :=
  answer s (build s address (identMe typeCode category (callsignBits callsign)))

/-- The position ME of ENC.POS, its real operands tested in order (42_frame_codec R125). -/
def positionMeOf (num : Numerics) (surveillance : BitVec 2) (singleAntenna : BitVec 1)
    (altitudeMeters lat lon : Port Rat) (timeFlag : BitVec 1) (typeCode : BitVec 5)
    (cprParity : BitVec 1) : Except Exc (BitVec 56) :=
  match finiteValue altitudeMeters, cprEncodePorts num lat lon cprParity with
  | .ok m, .ok (yz, xz) =>
    (altEncode num m).map fun a =>
      positionMe typeCode surveillance singleAntenna a timeFlag cprParity yz xz
  | .error e, _ => .error e
  | _, .error e => .error e

/-- ENC.POS: CONFIG_UNSET is tested before OPERAND_RANGE (42_frame_codec R125, 60_exceptions R241). -/
def execEncPos (address : BitVec 24) (surveillance : BitVec 2) (singleAntenna : BitVec 1)
    (altitudeMeters lat lon : Port Rat) (timeFlag : BitVec 1) (typeCode : BitVec 5)
    (cprParity : BitVec 1) (s : State) : Host.Outcome State Fault Refusal :=
  answer s (match whenSet s.df, whenSet s.ca with
    | .ok _, .ok _ =>
      match positionMeOf s.num surveillance singleAntenna altitudeMeters lat lon timeFlag typeCode
        cprParity with
      | .ok me => build s address me
      | .error e => .error e
    | .error e, _ => .error e
    | _, .error e => .error e)

/-! ### The decoder -/

/-- The payload format a type code selects (30_encoding R72). -/
inductive PayloadKind where
  | ident
  | position (src : AltSrc)
  | other
  deriving DecidableEq, Repr

/-- The type-code map (30_encoding R72). -/
def payloadKind (tc : BitVec 5) : PayloadKind :=
  if 1 ≤ tc.toNat ∧ tc.toNat ≤ 4 then .ident
  else if 9 ≤ tc.toNat ∧ tc.toNat ≤ 18 then .position .barometric
  else if 20 ≤ tc.toNat ∧ tc.toNat ≤ 22 then .position .gnss
  else .other

/-- The eight characters of an identification frame (42_frame_codec R135). -/
def frameCallsign (f : BitVec 112) : Chars := (List.range 8).map fun i => sixToChar (frameChar f i)

/-- The identification report of a frame (42_frame_codec R135). -/
def identReport (f : BitVec 112) : Result :=
  .ident (framePrefix f) ⟨frameCat f, frameCallsign f⟩

/-- The position DEC resolves for a frame against a History (42_frame_codec R138). -/
def framePos (num : Numerics) (h : List Record) (f : BitVec 112) : Option (Rat × Rat) :=
  resolveIn num h (frameAddr f) (frameParity f) (frameYz f) (frameXz f) (frameT f)

/-- The record DEC appends for a position frame (42_frame_codec R139). -/
def frameRecord (num : Numerics) (h : List Record) (f : BitVec 112) : Record :=
  ⟨frameAddr f, frameParity f, frameYz f, frameXz f, frameT f, altMetres (frameAlt f),
    framePos num h f⟩

/-- The position report of a frame (42_frame_codec R137 to R139). -/
def positionReport (num : Numerics) (src : AltSrc) (h : List Record) (f : BitVec 112) : Result :=
  .position (framePrefix f)
    ⟨frameSs f, frameSaf f, src, altQ (frameAlt f), altFeet (frameAlt f), altMetres (frameAlt f),
      frameT f, frameParity f, frameYz f, frameXz f, framePos num h f⟩

/-- What a frame whose CRC matched does, by its payload format: an identification or unknown frame
changes no state, a position frame appends its record (42_frame_codec R142). -/
def acceptFrame (k : PayloadKind) (f : BitVec 112) (s : State) : State × Result :=
  match k with
  | .ident => (s, identReport f)
  | .position src =>
    ({ s with hist := memAppend s.hist (frameRecord s.num s.hist f) },
      positionReport s.num src s.hist f)
  | .other => (s, .other (framePrefix f))

/-- A received frame: the CRC test comes before any field is looked at (42_frame_codec R132, R136). -/
def receiveFrame (k : PayloadKind) (f : BitVec 112) (s : State) : Except Exc (State × Result) :=
  if crcPasses f then .ok (acceptFrame k f s) else .error .checksumFailure

/-- DEC: the string, the CRC, then the type code alone (42_frame_codec R130, R131, R134). -/
def decodeString (str : Chars) (s : State) : Except Exc (State × Result) :=
  match frameString str with
  | .error e => .error e
  | .ok v =>
    let f := ofWire 112 v
    receiveFrame (payloadKind (frameTypeCode f)) f s

/-- DEC (42_frame_codec R130). -/
def execDec (str : Chars) (s : State) : Host.Outcome State Fault Refusal :=
  commit s (decodeString str s)

end Sys2Proof.Machine
end

