-- ==== Sys2Proof/Machine/Frames.lean ====
section
/-!
DEFINITION. The frame rows: what the frame decoder does with a received frame of each type code
(30_encoding R72, R81; 42_frame_codec R132, R136, and R135, R137 to R140 by format). DEC does the same
with the frame its string holds (log 4).
-/

namespace Sys2Proof.Machine

/-- A received frame of type code 0 (42_frame_codec R140). -/
def execFrameTc0Other (f : BitVec 112) (s : State) : Host.Outcome State Fault Refusal :=
  commit s (receiveFrame .other f s)

/-- A received frame of type code 1 (42_frame_codec R135). -/
def execFrameTc1Ident (f : BitVec 112) (s : State) : Host.Outcome State Fault Refusal :=
  commit s (receiveFrame .ident f s)

/-- A received frame of type code 2 (42_frame_codec R135). -/
def execFrameTc2Ident (f : BitVec 112) (s : State) : Host.Outcome State Fault Refusal :=
  commit s (receiveFrame .ident f s)

/-- A received frame of type code 3 (42_frame_codec R135). -/
def execFrameTc3Ident (f : BitVec 112) (s : State) : Host.Outcome State Fault Refusal :=
  commit s (receiveFrame .ident f s)

/-- A received frame of type code 4 (42_frame_codec R135). -/
def execFrameTc4Ident (f : BitVec 112) (s : State) : Host.Outcome State Fault Refusal :=
  commit s (receiveFrame .ident f s)

/-- A received frame of type code 5 (42_frame_codec R140). -/
def execFrameTc5Other (f : BitVec 112) (s : State) : Host.Outcome State Fault Refusal :=
  commit s (receiveFrame .other f s)

/-- A received frame of type code 6 (42_frame_codec R140). -/
def execFrameTc6Other (f : BitVec 112) (s : State) : Host.Outcome State Fault Refusal :=
  commit s (receiveFrame .other f s)

/-- A received frame of type code 7 (42_frame_codec R140). -/
def execFrameTc7Other (f : BitVec 112) (s : State) : Host.Outcome State Fault Refusal :=
  commit s (receiveFrame .other f s)

/-- A received frame of type code 8 (42_frame_codec R140). -/
def execFrameTc8Other (f : BitVec 112) (s : State) : Host.Outcome State Fault Refusal :=
  commit s (receiveFrame .other f s)

/-- A received frame of type code 9 (42_frame_codec R137 to R139). -/
def execFrameTc9Position (f : BitVec 112) (s : State) : Host.Outcome State Fault Refusal :=
  commit s (receiveFrame (.position .barometric) f s)

/-- A received frame of type code 10 (42_frame_codec R137 to R139). -/
def execFrameTc10Position (f : BitVec 112) (s : State) : Host.Outcome State Fault Refusal :=
  commit s (receiveFrame (.position .barometric) f s)

/-- A received frame of type code 11 (42_frame_codec R137 to R139). -/
def execFrameTc11Position (f : BitVec 112) (s : State) : Host.Outcome State Fault Refusal :=
  commit s (receiveFrame (.position .barometric) f s)

/-- A received frame of type code 12 (42_frame_codec R137 to R139). -/
def execFrameTc12Position (f : BitVec 112) (s : State) : Host.Outcome State Fault Refusal :=
  commit s (receiveFrame (.position .barometric) f s)

/-- A received frame of type code 13 (42_frame_codec R137 to R139). -/
def execFrameTc13Position (f : BitVec 112) (s : State) : Host.Outcome State Fault Refusal :=
  commit s (receiveFrame (.position .barometric) f s)

/-- A received frame of type code 14 (42_frame_codec R137 to R139). -/
def execFrameTc14Position (f : BitVec 112) (s : State) : Host.Outcome State Fault Refusal :=
  commit s (receiveFrame (.position .barometric) f s)

/-- A received frame of type code 15 (42_frame_codec R137 to R139). -/
def execFrameTc15Position (f : BitVec 112) (s : State) : Host.Outcome State Fault Refusal :=
  commit s (receiveFrame (.position .barometric) f s)

/-- A received frame of type code 16 (42_frame_codec R137 to R139). -/
def execFrameTc16Position (f : BitVec 112) (s : State) : Host.Outcome State Fault Refusal :=
  commit s (receiveFrame (.position .barometric) f s)

/-- A received frame of type code 17 (42_frame_codec R137 to R139). -/
def execFrameTc17Position (f : BitVec 112) (s : State) : Host.Outcome State Fault Refusal :=
  commit s (receiveFrame (.position .barometric) f s)

/-- A received frame of type code 18 (42_frame_codec R137 to R139). -/
def execFrameTc18Position (f : BitVec 112) (s : State) : Host.Outcome State Fault Refusal :=
  commit s (receiveFrame (.position .barometric) f s)

/-- A received frame of type code 19 (42_frame_codec R140). -/
def execFrameTc19Other (f : BitVec 112) (s : State) : Host.Outcome State Fault Refusal :=
  commit s (receiveFrame .other f s)

/-- A received frame of type code 20 (42_frame_codec R137 to R139). -/
def execFrameTc20Position (f : BitVec 112) (s : State) : Host.Outcome State Fault Refusal :=
  commit s (receiveFrame (.position .gnss) f s)

/-- A received frame of type code 21 (42_frame_codec R137 to R139). -/
def execFrameTc21Position (f : BitVec 112) (s : State) : Host.Outcome State Fault Refusal :=
  commit s (receiveFrame (.position .gnss) f s)

/-- A received frame of type code 22 (42_frame_codec R137 to R139). -/
def execFrameTc22Position (f : BitVec 112) (s : State) : Host.Outcome State Fault Refusal :=
  commit s (receiveFrame (.position .gnss) f s)

/-- A received frame of type code 23 (42_frame_codec R140). -/
def execFrameTc23Other (f : BitVec 112) (s : State) : Host.Outcome State Fault Refusal :=
  commit s (receiveFrame .other f s)

/-- A received frame of type code 24 (42_frame_codec R140). -/
def execFrameTc24Other (f : BitVec 112) (s : State) : Host.Outcome State Fault Refusal :=
  commit s (receiveFrame .other f s)

/-- A received frame of type code 25 (42_frame_codec R140). -/
def execFrameTc25Other (f : BitVec 112) (s : State) : Host.Outcome State Fault Refusal :=
  commit s (receiveFrame .other f s)

/-- A received frame of type code 26 (42_frame_codec R140). -/
def execFrameTc26Other (f : BitVec 112) (s : State) : Host.Outcome State Fault Refusal :=
  commit s (receiveFrame .other f s)

/-- A received frame of type code 27 (42_frame_codec R140). -/
def execFrameTc27Other (f : BitVec 112) (s : State) : Host.Outcome State Fault Refusal :=
  commit s (receiveFrame .other f s)

/-- A received frame of type code 28 (42_frame_codec R140). -/
def execFrameTc28Other (f : BitVec 112) (s : State) : Host.Outcome State Fault Refusal :=
  commit s (receiveFrame .other f s)

/-- A received frame of type code 29 (42_frame_codec R140). -/
def execFrameTc29Other (f : BitVec 112) (s : State) : Host.Outcome State Fault Refusal :=
  commit s (receiveFrame .other f s)

/-- A received frame of type code 30 (42_frame_codec R140). -/
def execFrameTc30Other (f : BitVec 112) (s : State) : Host.Outcome State Fault Refusal :=
  commit s (receiveFrame .other f s)

/-- A received frame of type code 31 (42_frame_codec R140). -/
def execFrameTc31Other (f : BitVec 112) (s : State) : Host.Outcome State Fault Refusal :=
  commit s (receiveFrame .other f s)

end Sys2Proof.Machine
end

