-- ==== Sys2Proof/Machine/Phy.lean ====
section
/-!
DEFINITION. The physical layer: modulator, channel, correlation receiver and the composed path
(44_phy_channel), in exact arithmetic over `ExactReal`.
-/

namespace Sys2Proof.Machine

open ExactReal

/-! ### The waveform -/

/-- The sample instant `t_k = k * 3 / (FC * SPS)` (44_phy_channel R181). -/
def sampleInstant (fc : Rat) (sps k : Nat) : Rat := (k : Rat) * 3 / (fc * (sps : Rat))

/-- The phase-0 reference, `sin(2π f t_k)` (44_phy_channel R180). Over a symbol it sums to 0, and its square
to SPS/2 (R185): `Sys2Proof.Machine.reference_sums`. -/
def ref1 (fc : Rat) (sps k : Nat) : ExactReal := sinTurns (fc * sampleInstant fc sps k)

/-- The phase-180 reference, `sin(2π f t_k + π)` (44_phy_channel R180), the opposite of the phase-0 one, so
that their product sums to -SPS/2 (R185): `Sys2Proof.Machine.reference_product`. -/
def ref0 (fc : Rat) (sps k : Nat) : ExactReal := sinTurns (fc * sampleInstant fc sps k + 1 / 2)

/-- The symbol of one bit (44_phy_channel R182). -/
def symbol (fc : Rat) (sps : Nat) (b : Bool) : List ExactReal :=
  (List.range sps).map fun k => if b then ref1 fc sps k else ref0 fc sps k

/-- The modulated signal: one symbol a bit, in wire order (44_phy_channel R182). Its mean square is 1/2
(R185): `Sys2Proof.Machine.symbol_energy`. -/
def modulate (fc : Rat) (sps : Nat) (v : Bits) : List ExactReal := v.flatMap (symbol fc sps)

/-- MOD: FC and SPS, then the length (44_phy_channel R182, 60_exceptions R241). -/
def execMod (v : Bits) (s : State) : Host.Outcome State Fault Refusal :=
  answer s (match whenSet s.fc, whenSet s.sps with
    | .ok fc, .ok sps =>
      if Config.nbitsMax < v.length then .error .operandRange
      else .ok (.signal (modulate fc sps.count v))
    | .error e, _ => .error e
    | _, .error e => .error e)

/-! ### The channel -/

/-- What the fading magnitude of one sample is the root of: `X² + Y²`, or `(X + 1)² + Y²`
(44_phy_channel R188, R189). -/
def fadePower (fam : Fading) (x y : Surd3) : Surd3 :=
  match fam with
  | .rayleigh => (x.mul x).add (y.mul y)
  | .rician => ((x.add (Surd3.ofRat 1)).mul (x.add (Surd3.ofRat 1))).add (y.mul y)

/-- The fading magnitude of one sample from two draws (44_phy_channel R188, R189). -/
def fade (fam : Fading) (x y : Surd3) : ExactReal :=
  match fam with
  | .rayleigh => quot (root (.alg (fadePower fam x y))) (root (ofRat 2))
  | .rician => root (.alg (fadePower fam x y))

/-- `h = 0`, exactly (44_phy_channel R188, R189, R192): the number `h` is the root of is 0. -/
def fadeIsZero (fam : Fading) (x y : Surd3) : Bool := (fadePower fam x y).sign == 0

/-- The fading magnitudes `h[k]` from draws `n + 2k` and `n + 2k + 1` (44_phy_channel R187). -/
def fadings (draw : Nat → Surd3) (n len : Nat) (fam : Fading) : List ExactReal :=
  (List.range len).map fun k => fade fam (draw (n + 2 * k)) (draw (n + 2 * k + 1))

/-- Some `h[k] == 0` (44_phy_channel R186, 60_exceptions R239). -/
def someFadingIsZero (draw : Nat → Surd3) (n len : Nat) (fam : Fading) : Bool :=
  (List.range len).any fun k => fadeIsZero fam (draw (n + 2 * k)) (draw (n + 2 * k + 1))

/-- The noise draws `W[k]`, draws `n + 2L + k` (44_phy_channel R187). -/
def noiseDraws (draw : Nat → Surd3) (n len : Nat) : List ExactReal :=
  (List.range len).map fun k => .alg (draw (n + 2 * len + k))

/-- The square of a number, the square of a root of a number not below 0 being that number. -/
def square (x : ExactReal) : ExactReal :=
  match x with
  | .sqrt y =>
    if y.sgn = -1 then times x x else y
  | .mul y z => times (square y) (square z)
  | .div y z => quot (square y) (square z)
  | _ => times x x

/-- The power `P` of the faded signal: the mean of the squares of `h[k] * s[k]` (44_phy_channel
R190). -/
def signalPower (h s : List ExactReal) : ExactReal :=
  quot (total (List.zipWith (fun a b => square (times a b)) h s))
    (ofRat (s.length : Rat))

/-- The noise density `N0 = P / 10^(snr/10)` (44_phy_channel R190). -/
def noiseDensity (p : ExactReal) (snr : Rat) : ExactReal := quot p (tenPow (snr / 10))

/-- The noise scale `sqrt(N0/2)` (44_phy_channel R191). -/
def noiseScale (p : ExactReal) (snr : Rat) : ExactReal := root (quot (noiseDensity p snr) (ofRat 2))

/-- What the channel adds to one sample, `sqrt(N0/2) * W / h` (44_phy_channel R192). -/
def noiseTerm (scale h w : ExactReal) : ExactReal := quot (times scale w) h

/-- What the channel adds to each sample of a signal, its draws starting at index `n` (44_phy_channel
R186). -/
def channelNoise (draw : Nat → Surd3) (n : Nat) (snr : Rat) (fam : Fading) (s : List ExactReal) :
    Except Exc (List ExactReal) :=
  if s = [] then .ok []
  else if someFadingIsZero draw n s.length fam then .error .divZero
  else
    let h := fadings draw n s.length fam
    let scale := noiseScale (signalPower h s) snr
    .ok (List.zipWith (noiseTerm scale) h (noiseDraws draw n s.length))

/-- A signal with the noise added: `r = s + sqrt(N0/2) * W / h`, which for `h ≠ 0` is the noisy faded
sample divided by `h` (44_phy_channel R192, log 19). -/
def received (s noise : List ExactReal) : List ExactReal := List.zipWith plus s noise

/-- The channel over a signal (44_phy_channel R186). -/
def channel (draw : Nat → Surd3) (n : Nat) (snr : Rat) (fam : Fading) (s : List ExactReal) :
    Except Exc (List ExactReal) := (channelNoise draw n snr fam s).map (received s)

/-- The state after `count` draws (10_state R36). -/
def State.drawn (s : State) (rng : Rng) (count : Nat) : State :=
  { s with rng := some { rng with n := rng.n + count } }

/-- CHAN over finite samples, with the registers it reads (44_phy_channel R186). -/
def chanWith (s : State) (snr : Rat) (fam : Fading) (rng : Rng) (x : List ExactReal) :
    Except Exc (State × Result) :=
  (channel (drawAt s.noise rng.seed) rng.n snr fam x).map fun r =>
    (s.drawn rng (3 * x.length), .signal r)

/-- CHAN: SNR_DB, FADING, RNG, then the samples, then the division (44_phy_channel R186,
60_exceptions R241). -/
def execChan (signal : List (Port ExactReal)) (s : State) : Host.Outcome State Fault Refusal :=
  commit s (match whenSet s.snrDb, whenSet s.fading, whenSet s.rng with
    | .ok snr, .ok fam, .ok rng =>
      match samples signal with
      | .ok x => chanWith s snr fam rng x
      | .error e => .error e
    | .error e, _, _ => .error e
    | _, .error e, _ => .error e
    | _, _, .error e => .error e)

/-! ### The receiver -/

/-- The inner product of a window with a reference waveform (44_phy_channel R193). -/
def correlate (r ref : List ExactReal) : ExactReal := total (List.zipWith times r ref)

/-- How near 0 a correlation, over the norms of the reference and of what the window was computed from,
counts as within rounding distance of 0 (log 6). -/
def tieBand : Rat := 1 / 2 ^ 30

/-- The energy of the parts whose sum a window is, times their number: at least the energy of the window,
and far above it where the parts cancel. -/
def partsEnergy (parts : List (List ExactReal)) : ExactReal :=
  times (ofRat parts.length) (total (parts.flatten.map fun x => times x x))

/-- A correlation `c1` within rounding distance of 0: `c1²` below the band's share of the energies of the
reference and of the parts the window is the sum of. A window of parts all zero is none: it gives 0 in any
arithmetic (44_phy_channel R194). -/
def nearTie (c1 : ExactReal) (sps : Nat) (parts : List (List ExactReal)) : Bool :=
  greater (times (ofRat (tieBand ^ 2 * (sps / 2))) (partsEnergy parts)) (times c1 c1)

/-- The decision on one window: 1 if the phase-0 correlation is strictly greater (44_phy_channel R193);
in a build that rounds, the `free` bit near a tie (00_scope R14). -/
def decideBit (num : Numerics) (fc : Rat) (sps : Nat) (r : List ExactReal)
    (parts : List (List ExactReal)) (free : Bool) : Bool :=
  let c1 := correlate r (symbol fc sps true)
  let c0 := correlate r (symbol fc sps false)
  match num with
  | .exact => greater c1 c0
  | .rounded => if nearTie c1 sps parts then free else greater c1 c0

/-- Window `j` of a signal. -/
def window (sps : Nat) (r : List ExactReal) (j : Nat) : List ExactReal := (r.drop (j * sps)).take sps

/-- The bits of a signal, one a window (44_phy_channel R193). The parts are the signals it was computed
as the sum of, the sources all it was computed from: itself, for a signal that is an operand. -/
def demodulate (num : Numerics) (fc : Rat) (sps : Nat) (r : List ExactReal)
    (parts sources : List (List ExactReal)) : Bits :=
  (List.range (r.length / sps)).map fun j =>
    decideBit num fc sps (window sps r j) (parts.map fun p => window sps p j)
      (Config.roundedBit fc sps j sources)

/-- DEMOD: FC and SPS, then the signal's samples and length (44_phy_channel R193, 60_exceptions
R241). -/
def execDemod (signal : List (Port ExactReal)) (s : State) : Host.Outcome State Fault Refusal :=
  answer s (match whenSet s.fc, whenSet s.sps with
    | .ok fc, .ok sps =>
      match samples signal with
      | .ok r =>
        if r.length % sps.count ≠ 0 ∨ Config.nbitsMax < r.length / sps.count then
          .error .operandRange
        else .ok (.bits (demodulate s.num fc sps.count r [r] [r]))
      | .error e => .error e
    | .error e, _ => .error e
    | _, .error e => .error e)

/-! ### The composed path -/

/-- What XMIT computes the received signal from: the modulated signal, the draws, SNR_DB and FADING. -/
def linkSources (draw : Nat → Surd3) (n : Nat) (snr : Rat) (fam : Fading) (x : List ExactReal) :
    List (List ExactReal) :=
  [x, (List.range (3 * x.length)).map fun k => .alg (draw (n + k)), [ofRat snr, ofRat fam.code.toNat]]

/-- XMIT over the bits of a frame, with the registers it reads (44_phy_channel R196). The received signal
is the sum of the modulated one and the noise, and a build rounds both (00_scope R14). -/
def xmitWith (s : State) (fc : Rat) (sps : Sps) (snr : Rat) (fam : Fading) (rng : Rng) (v : Bits) :
    Except Exc (State × Result) :=
  let x := modulate fc sps.count v
  (channelNoise (drawAt s.noise rng.seed) rng.n snr fam x).map fun w =>
    (s.drawn rng (3 * x.length),
      .hex (hexChars (demodulate s.num fc sps.count (received x w) [x, w]
        (linkSources (drawAt s.noise rng.seed) rng.n snr fam x))))

/-- XMIT: the string, then FC, SPS, SNR_DB, FADING, RNG, then the division (44_phy_channel R196,
60_exceptions R241). -/
def execXmit (hexIn : Chars) (s : State) : Host.Outcome State Fault Refusal :=
  commit s (match frameString hexIn with
    | .error e => .error e
    | .ok v =>
      match whenSet s.fc, whenSet s.sps, whenSet s.snrDb, whenSet s.fading, whenSet s.rng with
      | .ok fc, .ok sps, .ok snr, .ok fam, .ok rng => xmitWith s fc sps snr fam rng v
      | .error e, _, _, _, _ => .error e
      | _, .error e, _, _, _ => .error e
      | _, _, .error e, _, _ => .error e
      | _, _, _, .error e, _ => .error e
      | _, _, _, _, .error e => .error e)

end Sys2Proof.Machine
end

