-- ==== Sys2Proof/Machine/System.lean ====
section
/-!
DEFINITION. The system operations RESET, CFG.WR, CFG.RD, SEED, CNT.RD, HIST.LEN, HIST.RD
(45_system_ops).
-/

namespace Sys2Proof.Machine

/-- RESET: every state of the block at its reset value (45_system_ops R210). -/
def execReset (s : State) : Host.Outcome State Fault Refusal :=
  commit s (.ok (s.clear, .nothing))

/-- CFG.WR (45_system_ops R212). -/
def execCfgWr (reg : BitVec 4) (value : Port Rat) (s : State) : Host.Outcome State Fault Refusal :=
  commit s ((s.cfgWrite reg value).map fun s' => (s', .nothing))

/-- CFG.RD (45_system_ops R213). -/
def execCfgRd (reg : BitVec 4) (s : State) : Host.Outcome State Fault Refusal :=
  answer s ((s.cfgRead reg).map .value)

/-- SEED: `RNG <- (seed, 0)` (45_system_ops R214). -/
def execSeed (seed : Nat) (s : State) : Host.Outcome State Fault Refusal :=
  commit s (.ok ({ s with rng := some ⟨seed, 0⟩ }, .nothing))

/-- CNT.RD (45_system_ops R215). -/
def execCntRd (s : State) : Host.Outcome State Fault Refusal :=
  answer s (.ok (.count s.corruptCnt))

/-- HIST.LEN (45_system_ops R216). -/
def execHistLen (s : State) : Host.Outcome State Fault Refusal :=
  answer s (.ok (.count s.hist.length))

/-- HIST.RD (45_system_ops R217). -/
def execHistRd (i : Nat) (s : State) : Host.Outcome State Fault Refusal :=
  answer s (match memRead s.hist i with
    | some r => .ok (.record r)
    | none => .error .operandRange)

end Sys2Proof.Machine
end

