-- ==== Sys2Proof/Machine/Dispatch.lean ====
section
/-!
DEFINITION. One arm per instruction, each one call of its meaning.
-/

namespace Sys2Proof.Machine

def exec (i : Instr) (s : State) : Host.Outcome State Fault Refusal :=
  match i with
  | .reset => Sys2Proof.Machine.execReset s
  | .cfgWr reg value => Sys2Proof.Machine.execCfgWr reg value s
  | .cfgRd reg => Sys2Proof.Machine.execCfgRd reg s
  | .seed n => Sys2Proof.Machine.execSeed n s
  | .cntRd => Sys2Proof.Machine.execCntRd s
  | .histLen => Sys2Proof.Machine.execHistLen s
  | .histRd n => Sys2Proof.Machine.execHistRd n s
  | .hex2bit str => Sys2Proof.Machine.execHex2bit str s
  | .bit2hex v => Sys2Proof.Machine.execBit2hex v s
  | .char2six c => Sys2Proof.Machine.execChar2six c s
  | .six2char x => Sys2Proof.Machine.execSix2char x s
  | .crcGen d => Sys2Proof.Machine.execCrcGen d s
  | .crcChk f => Sys2Proof.Machine.execCrcChk f s
  | .altEnc m => Sys2Proof.Machine.execAltEnc m s
  | .altDec a => Sys2Proof.Machine.execAltDec a s
  | .encId address category callsign typeCode => Sys2Proof.Machine.execEncId address category callsign typeCode s
  | .encPos address surveillance singleAntenna altitudeMeters lat lon timeFlag typeCode cprParity => Sys2Proof.Machine.execEncPos address surveillance singleAntenna altitudeMeters lat lon timeFlag typeCode cprParity s
  | .dec str => Sys2Proof.Machine.execDec str s
  | .cprNl lat => Sys2Proof.Machine.execCprNl lat s
  | .cprEnc lat lon parity => Sys2Proof.Machine.execCprEnc lat lon parity s
  | .cprPair yzE xzE tE yzO xzO tO => Sys2Proof.Machine.execCprPair yzE xzE tE yzO xzO tO s
  | .cprResolve address fp yz xz t => Sys2Proof.Machine.execCprResolve address fp yz xz t s
  | .mod v => Sys2Proof.Machine.execMod v s
  | .chan signal => Sys2Proof.Machine.execChan signal s
  | .demod signal => Sys2Proof.Machine.execDemod signal s
  | .xmit hexIn => Sys2Proof.Machine.execXmit hexIn s
  | .frameTc0Other f => Sys2Proof.Machine.execFrameTc0Other f s
  | .frameTc1Ident f => Sys2Proof.Machine.execFrameTc1Ident f s
  | .frameTc2Ident f => Sys2Proof.Machine.execFrameTc2Ident f s
  | .frameTc3Ident f => Sys2Proof.Machine.execFrameTc3Ident f s
  | .frameTc4Ident f => Sys2Proof.Machine.execFrameTc4Ident f s
  | .frameTc5Other f => Sys2Proof.Machine.execFrameTc5Other f s
  | .frameTc6Other f => Sys2Proof.Machine.execFrameTc6Other f s
  | .frameTc7Other f => Sys2Proof.Machine.execFrameTc7Other f s
  | .frameTc8Other f => Sys2Proof.Machine.execFrameTc8Other f s
  | .frameTc9Position f => Sys2Proof.Machine.execFrameTc9Position f s
  | .frameTc10Position f => Sys2Proof.Machine.execFrameTc10Position f s
  | .frameTc11Position f => Sys2Proof.Machine.execFrameTc11Position f s
  | .frameTc12Position f => Sys2Proof.Machine.execFrameTc12Position f s
  | .frameTc13Position f => Sys2Proof.Machine.execFrameTc13Position f s
  | .frameTc14Position f => Sys2Proof.Machine.execFrameTc14Position f s
  | .frameTc15Position f => Sys2Proof.Machine.execFrameTc15Position f s
  | .frameTc16Position f => Sys2Proof.Machine.execFrameTc16Position f s
  | .frameTc17Position f => Sys2Proof.Machine.execFrameTc17Position f s
  | .frameTc18Position f => Sys2Proof.Machine.execFrameTc18Position f s
  | .frameTc19Other f => Sys2Proof.Machine.execFrameTc19Other f s
  | .frameTc20Position f => Sys2Proof.Machine.execFrameTc20Position f s
  | .frameTc21Position f => Sys2Proof.Machine.execFrameTc21Position f s
  | .frameTc22Position f => Sys2Proof.Machine.execFrameTc22Position f s
  | .frameTc23Other f => Sys2Proof.Machine.execFrameTc23Other f s
  | .frameTc24Other f => Sys2Proof.Machine.execFrameTc24Other f s
  | .frameTc25Other f => Sys2Proof.Machine.execFrameTc25Other f s
  | .frameTc26Other f => Sys2Proof.Machine.execFrameTc26Other f s
  | .frameTc27Other f => Sys2Proof.Machine.execFrameTc27Other f s
  | .frameTc28Other f => Sys2Proof.Machine.execFrameTc28Other f s
  | .frameTc29Other f => Sys2Proof.Machine.execFrameTc29Other f s
  | .frameTc30Other f => Sys2Proof.Machine.execFrameTc30Other f s
  | .frameTc31Other f => Sys2Proof.Machine.execFrameTc31Other f s

end Sys2Proof.Machine
end

