-- ==== Sys2Proof/Machine/Step.lean ====
section
/-!
DEFINITION. One step of the block: the request at the head of the port, decoded and executed as one
atomic transition (00_scope R10, 20_memory R52, R53).
-/

namespace Sys2Proof.Machine

/-- One step: the oldest pending request is decoded and executed; its meaning takes it off the port
and answers it (`State.respond`). With no request pending the block holds its state (60_exceptions
R253). -/
def step (s : State) : Host.Outcome State Fault Refusal :=
  match fetch s with
  | none => .next s
  | some r =>
    match decode r with
    | .ok i => exec i s
    | .error e => rejected e s

/-- The request of a table word put at the head of the port, where the next step reads it; every
operand the table gives no bits is zeros (log 2, log 3). Bits of no table width leave the state. -/
def State.withFetchWord (s : State) (nbits w : Nat) : State :=
  match tableRequest nbits w with
  | some r => { s with requests := r :: s.requests }
  | none => s

end Sys2Proof.Machine
end

