-- ==== Sys2Proof/Machine/Flags.lean ====
section
/-!
DEFINITION. What a flag would carry is returned with each result (10_state R34): the codes of STATUS,
KIND, ALT_SRC, RESOLVED and PASS as functions of the response.
-/

namespace Sys2Proof.Machine

/-- The 4-bit STATUS code of an exception (10_state R34, 60_exceptions R231). -/
def Exc.code (e : Exc) : BitVec 4 :=
  match e with
  | .checksumFailure => 1
  | .malformedInput => 2
  | .operandRange => 3
  | .configUnset => 4
  | .illegalOp => 5
  | .divZero => 6

/-- STATUS, 4 bits (10_state R34). -/
def Response.status (r : Response) : BitVec 4 :=
  match r with
  | .ok _ => 0
  | .raised e => e.code

/-- KIND, 2 bits, of a report (10_state R34). -/
def Response.kind (r : Response) : Option (BitVec 2) :=
  match r with
  | .ok (.ident _ _) => some 0
  | .ok (.position _ _) => some 1
  | .ok (.other _) => some 2
  | _ => none

/-- The code of an altitude source (10_state R34). -/
def AltSrc.code (a : AltSrc) : BitVec 1 :=
  match a with
  | .barometric => 0
  | .gnss => 1

/-- ALT_SRC, 1 bit, of a position report (10_state R34). -/
def Response.altSrc (r : Response) : Option (BitVec 1) :=
  match r with
  | .ok (.position _ p) => some p.altSrc.code
  | _ => none

/-- RESOLVED, 1 bit, of a position report and of CPR.PAIR and CPR.RESOLVE (10_state R34). -/
def Response.resolved (r : Response) : Option (BitVec 1) :=
  match r with
  | .ok (.position _ p) => some (if p.pos.isSome then 1 else 0)
  | .ok (.resolved p) => some (if p.isSome then 1 else 0)
  | _ => none

/-- PASS, 1 bit, of CRC.CHK (10_state R34). -/
def Response.pass (r : Response) : Option (BitVec 1) :=
  match r with
  | .ok (.check p _) => some (if p then 1 else 0)
  | _ => none

end Sys2Proof.Machine
end

