-- ==== Sys2Proof/WellFormed.lean ====
section
/-!
DEFINITION. Which instructions are well formed. The operands of the 26 operations are typed, and any
value of the type is a legal request (an illegal value ends in a status, 60_exceptions R231), but for a
callsign longer than the port carries (00_scope R12); a frame row is well formed when the frame's type
code is the row's (30_encoding R81).
-/

namespace Sys2Proof

/-- The type code a frame row stands for; none for an operation. -/
def Instr.rowTypeCode : Instr → Option (BitVec 5 × BitVec 112)
  | .reset | .cfgWr _ _ | .cfgRd _ | .seed _ | .cntRd | .histLen | .histRd _ | .hex2bit _
  | .bit2hex _ | .char2six _ | .six2char _ | .crcGen _ | .crcChk _ | .altEnc _ | .altDec _
  | .encId _ _ _ _ | .encPos _ _ _ _ _ _ _ _ _ | .dec _ | .cprNl _ | .cprEnc _ _ _
  | .cprPair _ _ _ _ _ _ | .cprResolve _ _ _ _ _ | .mod _ | .chan _ | .demod _ | .xmit _ => none
  | .frameTc0Other f => some (0, f)
  | .frameTc1Ident f => some (1, f)
  | .frameTc2Ident f => some (2, f)
  | .frameTc3Ident f => some (3, f)
  | .frameTc4Ident f => some (4, f)
  | .frameTc5Other f => some (5, f)
  | .frameTc6Other f => some (6, f)
  | .frameTc7Other f => some (7, f)
  | .frameTc8Other f => some (8, f)
  | .frameTc9Position f => some (9, f)
  | .frameTc10Position f => some (10, f)
  | .frameTc11Position f => some (11, f)
  | .frameTc12Position f => some (12, f)
  | .frameTc13Position f => some (13, f)
  | .frameTc14Position f => some (14, f)
  | .frameTc15Position f => some (15, f)
  | .frameTc16Position f => some (16, f)
  | .frameTc17Position f => some (17, f)
  | .frameTc18Position f => some (18, f)
  | .frameTc19Other f => some (19, f)
  | .frameTc20Position f => some (20, f)
  | .frameTc21Position f => some (21, f)
  | .frameTc22Position f => some (22, f)
  | .frameTc23Other f => some (23, f)
  | .frameTc24Other f => some (24, f)
  | .frameTc25Other f => some (25, f)
  | .frameTc26Other f => some (26, f)
  | .frameTc27Other f => some (27, f)
  | .frameTc28Other f => some (28, f)
  | .frameTc29Other f => some (29, f)
  | .frameTc30Other f => some (30, f)
  | .frameTc31Other f => some (31, f)

/-- The port carries the instruction's callsign, if it has one (00_scope R12, log 13). -/
def Instr.callsignFits : Instr → Bool
  | .encId _ _ callsign _ => decide (callsign.length ≤ Config.csMax)
  | _ => true

/-- An instruction is well formed unless its callsign is too long for the port, or it is a frame row
holding a frame of another type code. -/
def Instr.wellFormed (i : Instr) : Bool :=
  match i.rowTypeCode with
  | none => i.callsignFits
  | some (tc, f) => frameTypeCode f == tc

end Sys2Proof
end

