-- ==== Sys2Proof/Safety.lean ====
section
/-!
DEFINITION. What a good state and a safe run are, in the terms the statements use.
-/

namespace Sys2Proof

/-! ### The numerics record -/

/-- How far from a boundary the arithmetic of a build may decide otherwise: nowhere for the reference
(00_scope R14, log 6). -/
def Numerics.slack (num : Numerics) (dist : Rat) : Rat :=
  match num with
  | .exact => 0
  | .rounded => dist

/-- `n` is `floor x` in the arithmetic of the build: the floor, for the reference. -/
def Numerics.IsFloor (num : Numerics) (x dist : Rat) (n : Int) : Prop :=
  ⌊x - num.slack dist⌋ ≤ n ∧ n ≤ ⌊x + num.slack dist⌋

/-- `b` says `x ≥ bound` in the arithmetic of the build: exactly that, for the reference. -/
def Numerics.Reaches (num : Numerics) (x bound dist : Rat) (b : Prop) : Prop :=
  (bound + num.slack dist ≤ x → b) ∧ (x < bound - num.slack dist → ¬ b)

/-- How far from an end of the altitude range a build may decide otherwise, in feet. -/
def Numerics.altSlack (num : Numerics) (m : Rat) : Rat :=
  num.slack (100 * roundingDistance (|m * 1250 / 381| + 1000))

end Sys2Proof

namespace Sys2Proof.Machine

/-- The metres of a record are what some altitude field decodes to (42_frame_codec R119, R139). -/
def altFromField (m : Rat) : Bool := (List.range 4096).any fun a => altMetres (BitVec.ofNat 12 a) == m

/-- A record is one DEC appended after the History `before`: its position is what resolving it there
gives, its altitude is a decoded one (42_frame_codec R138, R139). -/
def Record.from (num : Numerics) (r : Record) (before : List Record) : Bool :=
  altFromField r.altM && r.pos == resolveIn num before r.addr r.f r.yz r.xz r.t

/-- The form of the History memory: every record is one DEC appended to the records before it. The
spec's memory is a sequence of whole records, so the list itself is its one representation (log 18). -/
def Memory.wf (num : Numerics) (h : List Record) : Bool :=
  (List.range h.length).all fun i =>
    match memRead h i with
    | some r => r.from num (h.take i)
    | none => true

/-- Every configuration register that is set holds a value legal for it (10_state R21). The others are
legal by their types. -/
def State.configLegal (s : State) : Prop := ∀ fc, s.fc = some fc → 0 < fc

/-- The invariant of the block: legal registers and a History that decoding alone has built. -/
def State.Inv (s : State) : Prop := s.configLegal ∧ Memory.wf s.num s.hist = true

/-- A safe step: the block answers, it does not stop (60_exceptions R243, R244). -/
def Answers (s : State) : Prop := ∃ t, step s = .next t

/-- The state when the operation at the head of the port has ended with `r`: the host reads `r`, the
request is done, and every other part of the state is as it was (60_exceptions R230, log 1). -/
def State.after (s : State) (r : Response) : State :=
  { s with response := some r, requests := s.requests.tail }

/-- A hex digit, `0-9A-F` (40_bitcodec R90). -/
def hexDigit (c : Byte) : Prop :=
  (48 ≤ c.toNat ∧ c.toNat ≤ 57) ∨ (65 ≤ c.toNat ∧ c.toNat ≤ 70)

/-- A string DEC and XMIT take: 28 hex digits (20_memory R51). -/
def frameText (str : Chars) : Prop := str.length = 28 ∧ ∀ c ∈ str, hexDigit c

/-- A character of the callsign alphabet: `A-Z`, `0-9`, space (30_encoding R68). -/
def alphabetChar (c : Byte) : Prop :=
  (65 ≤ c.toNat ∧ c.toNat ≤ 90) ∨ (48 ≤ c.toNat ∧ c.toNat ≤ 57) ∨ c.toNat = 32

/-- The value is legal for the register of that number (45_system_ops R212). -/
def legalValue (reg : BitVec 4) (v : Port Rat) : Prop :=
  match v with
  | .finite q =>
    (reg = 0 ∧ ∃ n : Nat, n ≤ 31 ∧ q = n) ∨ (reg = 1 ∧ ∃ n : Nat, n ≤ 7 ∧ q = n) ∨
      (reg = 2 ∧ 0 < q) ∨ reg = 3 ∨ (reg = 4 ∧ (q = 0 ∨ q = 1)) ∨ (reg = 5 ∧ (q = 48 ∨ q = 96))
  | .posInf | .negInf | .nan => False

/-- The altitude, in metres, has an 11-bit magnitude (42_frame_codec R118). -/
def altInRange (num : Numerics) (m : Rat) : Prop :=
  -1000 + num.altSlack m ≤ m * 1250 / 381 ∧ m * 1250 / 381 < 203800 - num.altSlack m

/-- The altitude is not finite or has no 11-bit magnitude (42_frame_codec R118). -/
def altOutOfRange (num : Numerics) (m : Port Rat) : Prop :=
  ∀ q, m = .finite q →
    q * 1250 / 381 < -1000 - num.altSlack q ∨ 203800 + num.altSlack q ≤ q * 1250 / 381

/-! ### What operations do to the state -/

/-- The operation may write a configuration register (30_encoding R78, column "writes"). -/
def writesConfig : Instr → Bool
  | .reset | .cfgWr _ _ => true
  | _ => false

/-- The operation may write the noise source's position (30_encoding R78, column "writes"). -/
def writesRng : Instr → Bool
  | .reset | .seed _ | .chan _ | .xmit _ => true
  | _ => false

/-- The operation receives a frame: DEC and the frame rows (30_encoding R78, R81). -/
def receivesFrame : Instr → Bool
  | .dec _ => true
  | i => i.rowTypeCode.isSome

/-- The statuses other than OK an operation can end with (60_exceptions R242); a frame row can end
as DEC does once it has its 112 bits (log 4). -/
def mayRaise : Instr → List Exc
  | .reset | .seed _ | .cntRd | .histLen | .char2six _ | .six2char _ | .crcGen _ | .crcChk _
  | .altDec _ | .cprPair _ _ _ _ _ _ | .cprResolve _ _ _ _ _ => []
  | .cfgWr _ _ | .histRd _ | .bit2hex _ | .altEnc _ | .cprNl _ | .cprEnc _ _ _ => [.operandRange]
  | .cfgRd _ | .encPos _ _ _ _ _ _ _ _ _ | .mod _ | .demod _ => [.operandRange, .configUnset]
  | .hex2bit _ => [.malformedInput]
  | .encId _ _ _ _ => [.configUnset]
  | .dec _ => [.checksumFailure, .malformedInput]
  | .chan _ => [.operandRange, .configUnset, .divZero]
  | .xmit _ => [.malformedInput, .configUnset, .divZero]
  | _ => [.checksumFailure]

/-- The polynomial over GF(2) of a bit vector, bit `i` the coefficient of `x^i` (41_crc24 R106). -/
noncomputable def bitPoly {w : Nat} (v : BitVec w) : Polynomial (ZMod 2) :=
  ∑ i ∈ Finset.range w, if v.getLsbD i then Polynomial.X ^ i else 0

/-- The operations run one after another, each on the state the one before left: the last state and
the answers, none if one of them stops. -/
def runAll (ops : List Instr) (s : State) : Option (State × List (Option Response)) :=
  match ops with
  | [] => some (s, [])
  | i :: rest =>
    match exec i s with
    | .next t => (runAll rest t).map fun u => (u.1, t.response :: u.2)
    | .fault _ | .refused _ => none

/-- CHAN or XMIT, the two operations that draw (10_state R36). -/
def draws : Instr → Bool
  | .chan _ | .xmit _ => true
  | _ => false

/-- Two states that CHAN and XMIT cannot tell apart but for the noise source's position: the same
registers, arithmetic and noise source. -/
def sameChannel (s s' : State) : Prop :=
  s.fc = s'.fc ∧ s.sps = s'.sps ∧ s.snrDb = s'.snrDb ∧ s.fading = s'.fading ∧ s.num = s'.num ∧
    s.noise = s'.noise

/-! ### Signals as real numbers -/

/-- The real value of sample `k` of a signal. -/
noncomputable def sampleVal (x : List ExactReal) (k : Nat) : ℝ := (x[k]?.getD (.ofRat 0)).val

/-- The fading magnitude of sample `k` as a real number, from the draws at `n + 2k` and `n + 2k + 1`
(44_phy_channel R187 to R189). -/
noncomputable def fadingReal (fam : Fading) (draw : Nat → Surd3) (n k : Nat) : ℝ :=
  match fam with
  | .rayleigh => √((draw (n + 2 * k)).val ^ 2 + (draw (n + 2 * k + 1)).val ^ 2) / √2
  | .rician => √(((draw (n + 2 * k)).val + 1) ^ 2 + (draw (n + 2 * k + 1)).val ^ 2)

/-- The correlation of window `j` of a signal with the phase-0 reference (44_phy_channel R193). -/
noncomputable def correlationReal (sps : Sps) (x : List ExactReal) (j : Nat) : ℝ :=
  ∑ k ∈ Finset.range sps.count,
    sampleVal x (j * sps.count + k) * Real.sin (2 * Real.pi * 3 * k / sps.count)

/-- The bit DEMOD decides on window `j` of a signal is settled: the arithmetic is the reference, or the
correlation is beyond rounding distance of 0 (00_scope R14, log 6). -/
def settled (num : Numerics) (sps : Sps) (x : List ExactReal) (j : Nat) : Prop :=
  num = .exact ∨ (tieBand : ℝ) ^ 2 * (sps.count / 2) *
      ∑ k ∈ Finset.range sps.count, sampleVal x (j * sps.count + k) ^ 2 ≤
    correlationReal sps x j ^ 2

/-- The bit XMIT decides on window `j` of the signal `r` received for the modulated signal `x` is settled:
the arithmetic is the reference, or the correlation is beyond rounding distance of 0, which is larger where
the noise cancels the signal (00_scope R14, log 6). -/
def settledLink (num : Numerics) (sps : Sps) (x r : List ExactReal) (j : Nat) : Prop :=
  num = .exact ∨ (tieBand : ℝ) ^ 2 * (sps.count / 2) *
      (2 * ∑ k ∈ Finset.range sps.count, (sampleVal x (j * sps.count + k) ^ 2 +
        (sampleVal r (j * sps.count + k) - sampleVal x (j * sps.count + k)) ^ 2)) ≤
    correlationReal sps r j ^ 2

/-- The noise density as a real number: the mean square of the faded signal over `10^(snr/10)`
(44_phy_channel R190). -/
noncomputable def noiseDensityReal (h : Nat → ℝ) (snr : Rat) (x : List ExactReal) : ℝ :=
  (∑ k ∈ Finset.range x.length, (h k * sampleVal x k) ^ 2) / x.length / (10 : ℝ) ^ ((snr : ℝ) / 10)

end Sys2Proof.Machine
end

