-- ==== Sys2Proof/Certificates/Slice0/Obligations.lean ====
section
/-!
DEFINITION. The statements for the provers. `s.after r` is the state in which the operation at the
head of the port has ended with `r` and nothing else has changed, so an equation with it says the
result and the whole frame.
-/

open Sys2Proof Sys2Proof.Machine

/-! ### Decoding, encoding, stepping -/

/-- The step is the decoded request's operation (20_memory R53, log 1). With no request the block holds
its state (60_exceptions R253); a request with operands of the wrong types is refused (log 3). -/
def Obligations.StepRunsTheDecodedInstruction : Prop :=
  (∀ (s : State) (r : Request) (i : Instr),
    s.requests.head? = some r → decode r = .ok i → step s = exec i s) ∧
  (∀ s : State, s.requests = [] → step s = .next s) ∧
  (∀ (s : State) (r : Request),
    s.requests.head? = some r → decode r = .error .operandTypes → step s = .refused .operandTypes)

/-- A few words of the table decode to their rows' instructions (30_encoding R78, R81). -/
def Obligations.TableWordsDecode : Prop :=
  decodeTableWord 8 0x01 = some .reset ∧
  decodeTableWord 8 0x21 = some (.crcChk 0) ∧
  decodeTableWord 8 0x43 = some (.cprResolve 0 0 0 0 0) ∧
  decodeTableWord 8 0x00 = none ∧
  decodeTableWord 112 0x8D40621D2251504EC31820BE5303 =
    some (.frameTc4Ident 0x8D40621D2251504EC31820BE5303) ∧
  decodeTableWord 112 0x8D40621D58C382D690C8AC2863A7 =
    some (.frameTc11Position 0x8D40621D58C382D690C8AC2863A7)

/-- Decode and encode agree, both ways, for every instruction and every operand. -/
def Obligations.DecodeAndEncodeAgree : Prop :=
  (∀ i : Instr, i.wellFormed = true → decode (encode i) = .ok i) ∧
  (∀ (r : Request) (i : Instr), decode r = .ok i → i.wellFormed = true ∧ encode i = r)

/-- A code outside the table ends with ILLEGAL_OP and changes no state (30_encoding R79). -/
def Obligations.UnknownCodeIsIllegal : Prop :=
  ∀ (s : State) (code : BitVec 8) (args : List Operand),
    (code.toNat = 0 ∨ (0x08 ≤ code.toNat ∧ code.toNat ≤ 0x0F) ∨
      (0x14 ≤ code.toNat ∧ code.toNat ≤ 0x1F) ∨ (0x22 ≤ code.toNat ∧ code.toNat ≤ 0x2F) ∨
      (0x35 ≤ code.toNat ∧ code.toNat ≤ 0x3F) ∨ (0x44 ≤ code.toNat ∧ code.toNat ≤ 0x4F) ∨
      (0x54 ≤ code.toNat ∧ code.toNat ≤ 0x5F) ∨ 0x60 ≤ code.toNat) →
    s.requests.head? = some (.op code args) →
    step s = .next (s.after (.raised .illegalOp)) ∧ (Response.raised .illegalOp).status = 5

/-! ### Every operation -/

/-- Every operation ends with a status from 0 to 6 and takes its request off the port; and the codes of
STATUS, KIND, ALT_SRC, RESOLVED and PASS (10_state R34, 60_exceptions R231). -/
def Obligations.EveryOperationEndsWithAStatus : Prop :=
  (∀ (i : Instr) (s : State), ∃ t r,
    exec i s = .next t ∧ t.requests = s.requests.tail ∧ t.response = some r ∧ r.status.toNat ≤ 6) ∧
  (∀ r, (Response.ok r).status = 0) ∧
  (∀ e, (Response.raised e).status = (match e with
    | .checksumFailure => 1
    | .malformedInput => 2
    | .operandRange => 3
    | .configUnset => 4
    | .illegalOp => 5
    | .divZero => 6)) ∧
  (∀ p r, (Response.ok (.ident p r)).kind = some 0) ∧
  (∀ p r, (Response.ok (.position p r)).kind = some 1 ∧
    (Response.ok (.position p r)).altSrc = some (match r.altSrc with
      | .barometric => 0
      | .gnss => 1) ∧
    (Response.ok (.position p r)).resolved = some (if r.pos = none then 0 else 1)) ∧
  (∀ p, (Response.ok (.other p)).kind = some 2) ∧
  (∀ pos, (Response.ok (.resolved pos)).resolved = some (if pos = none then 0 else 1)) ∧
  (∀ pass c, (Response.ok (.check pass c)).pass = some (if pass = true then 1 else 0))

/-- Only a request whose operands are not of its operation's types stops a step (log 3). -/
def Obligations.StepStopsOnlyOnUntypedOperands : Prop :=
  ∀ s : State, Answers s ∨
    (step s = .refused .operandTypes ∧ ∃ code args,
      s.requests.head? = some (.op code args) ∧ decode (.op code args) = .error .operandTypes)

/-- An operation that does not end with OK changes nothing but, for CHECKSUM_FAILURE, the counter. -/
def Obligations.FailedOperationChangesNothing : Prop :=
  ∀ (i : Instr) (s t : State) (e : Exc), exec i s = .next t → t.response = some (.raised e) →
    (e ≠ .checksumFailure → t = s.after (.raised e)) ∧
    (e = .checksumFailure →
      t = ({ s with corruptCnt := s.corruptCnt + 1 } : State).after (.raised .checksumFailure))

/-- An operation ends with no other status than the table of 60_exceptions R242 allows it. -/
def Obligations.StatusesAreThoseOfTheTable : Prop :=
  ∀ (i : Instr) (s t : State) (e : Exc),
    exec i s = .next t → t.response = some (.raised e) → e ∈ mayRaise i

/-- Each operation writes only the state its row of the operation table names (30_encoding R78); the
frame rows write what DEC writes (log 4), and nothing writes the arithmetic of the build (log 6) or what
is known of the noise source (log 9). -/
def Obligations.OnlyNamedStateIsWritten : Prop :=
  ∀ (i : Instr) (s t : State), exec i s = .next t →
    t.num = s.num ∧ t.noise = s.noise ∧
    (writesConfig i = false → t.df = s.df ∧ t.ca = s.ca ∧ t.fc = s.fc ∧ t.snrDb = s.snrDb ∧
      t.fading = s.fading ∧ t.sps = s.sps) ∧
    (writesRng i = false → t.rng = s.rng) ∧
    (receivesFrame i = false → i ≠ .reset → t.hist = s.hist ∧ t.corruptCnt = s.corruptCnt)

/-- Only RESET removes or changes a record: every other operation leaves the History or appends one
record to it, and only an operation that receives a frame appends (20_memory R43, R46, log 4). -/
def Obligations.HistoryIsAppendOnly : Prop :=
  ∀ (i : Instr) (s t : State), i ≠ .reset → exec i s = .next t →
    (t.hist = s.hist ∨ (receivesFrame i = true ∧ ∃ r, t.hist = s.hist ++ [r])) ∧
    ∀ k, k < s.hist.length → memRead t.hist k = memRead s.hist k

/-- Every step keeps the invariant: legal registers, and a History decoding alone has built. -/
def Obligations.StepKeepsTheInvariant : Prop :=
  ∀ s t : State, s.Inv → step s = .next t → t.Inv

/-- The invariant holds after reset. -/
def Obligations.ResetMeetsTheInvariant : Prop := State.reset.Inv

/-! ### System operations -/

/-- After reset every register is unset, the History empty, the counter 0 and RNG unset. -/
def Obligations.ResetStateIsEmpty : Prop :=
  State.reset.df = none ∧ State.reset.ca = none ∧ State.reset.fc = none ∧
    State.reset.snrDb = none ∧ State.reset.fading = none ∧ State.reset.sps = none ∧
    State.reset.hist = [] ∧ State.reset.corruptCnt = 0 ∧ State.reset.rng = none

/-- RESET gives the reset state, whatever went before, and is the only operation that removes a record
or lowers the counter. The pending requests, the arithmetic of the build and what is known of the noise
source are not the block's state (log 1, log 6, log 9). -/
def Obligations.ResetClearsAllState : Prop :=
  decode (.op 0x01 []) = .ok .reset ∧
  (∀ s : State, exec .reset s = .next
    { State.reset with
      num := s.num, noise := s.noise, requests := s.requests.tail,
      response := some (.ok .nothing) }) ∧
  (∀ (i : Instr) (s t : State), i ≠ .reset → exec i s = .next t →
    s.hist.length ≤ t.hist.length ∧ s.corruptCnt ≤ t.corruptCnt)

/-- CFG.WR writes a legal value to its register, and refuses any other. -/
def Obligations.CfgWrWritesLegalValuesOnly : Prop :=
  (∀ reg v, decode (.op 0x02 [.bits 4 reg, .real v]) = .ok (.cfgWr reg v)) ∧
  (∀ (s : State) (n : Nat), n ≤ 31 → exec (.cfgWr 0 (.finite n)) s =
    .next (({ s with df := some (BitVec.ofNat 5 n) } : State).after (.ok .nothing))) ∧
  (∀ (s : State) (n : Nat), n ≤ 7 → exec (.cfgWr 1 (.finite n)) s =
    .next (({ s with ca := some (BitVec.ofNat 3 n) } : State).after (.ok .nothing))) ∧
  (∀ (s : State) (q : Rat), 0 < q → exec (.cfgWr 2 (.finite q)) s =
    .next (({ s with fc := some q } : State).after (.ok .nothing))) ∧
  (∀ (s : State) (q : Rat), exec (.cfgWr 3 (.finite q)) s =
    .next (({ s with snrDb := some q } : State).after (.ok .nothing))) ∧
  (∀ s : State, exec (.cfgWr 4 (.finite 0)) s =
    .next (({ s with fading := some .rayleigh } : State).after (.ok .nothing))) ∧
  (∀ s : State, exec (.cfgWr 4 (.finite 1)) s =
    .next (({ s with fading := some .rician } : State).after (.ok .nothing))) ∧
  (∀ s : State, exec (.cfgWr 5 (.finite 48)) s =
    .next (({ s with sps := some .s48 } : State).after (.ok .nothing))) ∧
  (∀ s : State, exec (.cfgWr 5 (.finite 96)) s =
    .next (({ s with sps := some .s96 } : State).after (.ok .nothing))) ∧
  (∀ (reg : BitVec 4) (v : Port Rat) (s : State), ¬ legalValue reg v →
    exec (.cfgWr reg v) s = .next (s.after (.raised .operandRange)))

/-- CFG.RD returns the value of the register, exactly the value last written. -/
def Obligations.CfgRdReturnsTheRegister : Prop :=
  (∀ reg, decode (.op 0x03 [.bits 4 reg]) = .ok (.cfgRd reg)) ∧
  (∀ (reg : BitVec 4) (s : State), 5 < reg.toNat →
    exec (.cfgRd reg) s = .next (s.after (.raised .operandRange))) ∧
  (∀ s : State, exec (.cfgRd 0) s = .next (s.after (match s.df with
    | some v => .ok (.value v.toNat)
    | none => .raised .configUnset))) ∧
  (∀ s : State, exec (.cfgRd 1) s = .next (s.after (match s.ca with
    | some v => .ok (.value v.toNat)
    | none => .raised .configUnset))) ∧
  (∀ s : State, exec (.cfgRd 2) s = .next (s.after (match s.fc with
    | some q => .ok (.value q)
    | none => .raised .configUnset))) ∧
  (∀ s : State, exec (.cfgRd 3) s = .next (s.after (match s.snrDb with
    | some q => .ok (.value q)
    | none => .raised .configUnset))) ∧
  (∀ s : State, exec (.cfgRd 4) s = .next (s.after (match s.fading with
    | some .rayleigh => .ok (.value 0)
    | some .rician => .ok (.value 1)
    | none => .raised .configUnset))) ∧
  (∀ s : State, exec (.cfgRd 5) s = .next (s.after (match s.sps with
    | some .s48 => .ok (.value 48)
    | some .s96 => .ok (.value 96)
    | none => .raised .configUnset))) ∧
  (∀ (reg : BitVec 4) (q : Rat) (s t : State), exec (.cfgWr reg (.finite q)) s = .next t →
    t.response = some (.ok .nothing) →
    exec (.cfgRd reg) t = .next (t.after (.ok (.value q))))

/-- SEED sets the noise source's position to the seed and index 0, and nothing else; after the same seed
the same sequence of CHAN and XMIT operations, over the same registers and the same noise source, takes
the same draws and returns the same results. -/
def Obligations.SeedRestartsTheDraws : Prop :=
  (∀ n, decode (.op 0x04 [.nat n]) = .ok (.seed n)) ∧
  (∀ (n : Nat) (s : State), exec (.seed n) s =
    .next (({ s with rng := some ⟨n, 0⟩ } : State).after (.ok .nothing))) ∧
  (∀ (n : Nat) (ops : List Instr) (s s' : State), (∀ i ∈ ops, draws i = true) → sameChannel s s' →
    ∃ t t' answers, runAll (.seed n :: ops) s = some (t, answers) ∧
      runAll (.seed n :: ops) s' = some (t', answers) ∧ t.rng = t'.rng)

/-- CNT.RD, HIST.LEN and HIST.RD return the counter, the length and a record, and write nothing; a
record once there is returned again until a RESET. -/
def Obligations.CounterAndHistoryReads : Prop :=
  (decode (.op 0x05 []) = .ok .cntRd ∧ decode (.op 0x06 []) = .ok .histLen ∧
    ∀ k, decode (.op 0x07 [.nat k]) = .ok (.histRd k)) ∧
  (∀ s : State, exec .cntRd s = .next (s.after (.ok (.count s.corruptCnt)))) ∧
  (∀ s : State, exec .histLen s = .next (s.after (.ok (.count s.hist.length)))) ∧
  (∀ (s : State) (k : Nat) (r : Record), s.hist[k]? = some r →
    exec (.histRd k) s = .next (s.after (.ok (.record r)))) ∧
  (∀ (s : State) (k : Nat), s.hist.length ≤ k →
    exec (.histRd k) s = .next (s.after (.raised .operandRange))) ∧
  (∀ (i : Instr) (s t : State) (k : Nat) (r : Record), i ≠ .reset → exec i s = .next t →
    s.hist[k]? = some r → exec (.histRd k) t = .next (t.after (.ok (.record r))))

/-! ### Statuses -/

/-- An operation that reads an unset register, or draws from an unseeded noise source, ends with
CONFIG_UNSET, whatever its operands (XMIT once its string is a frame's). -/
def Obligations.UnsetRegistersAreRefused : Prop :=
  (∀ (s : State) (reg : BitVec 4),
    (reg = 0 ∧ s.df = none) ∨ (reg = 1 ∧ s.ca = none) ∨ (reg = 2 ∧ s.fc = none) ∨
      (reg = 3 ∧ s.snrDb = none) ∨ (reg = 4 ∧ s.fading = none) ∨ (reg = 5 ∧ s.sps = none) →
    exec (.cfgRd reg) s = .next (s.after (.raised .configUnset))) ∧
  (∀ (s : State) address category callsign typeCode, s.df = none ∨ s.ca = none →
    exec (.encId address category callsign typeCode) s =
      .next (s.after (.raised .configUnset))) ∧
  (∀ (s : State) address ss saf m lat lon t typeCode p, s.df = none ∨ s.ca = none →
    exec (.encPos address ss saf m lat lon t typeCode p) s =
      .next (s.after (.raised .configUnset))) ∧
  (∀ (s : State) v, s.fc = none ∨ s.sps = none →
    exec (.mod v) s = .next (s.after (.raised .configUnset))) ∧
  (∀ (s : State) x, s.fc = none ∨ s.sps = none →
    exec (.demod x) s = .next (s.after (.raised .configUnset))) ∧
  (∀ (s : State) x, s.snrDb = none ∨ s.fading = none ∨ s.rng = none →
    exec (.chan x) s = .next (s.after (.raised .configUnset))) ∧
  (∀ (s : State) str, frameText str →
    s.fc = none ∨ s.sps = none ∨ s.snrDb = none ∨ s.fading = none ∨ s.rng = none →
    exec (.xmit str) s = .next (s.after (.raised .configUnset)))

/-- A value outside the domain its operation states ends with OPERAND_RANGE, once the registers the
operation reads are set: non-finite values, widths, lengths, altitudes (beyond rounding distance of the
ends of their range in a build that rounds, log 6), register numbers, values of registers, record
indices. -/
def Obligations.OutOfRangeOperandsAreRefused : Prop :=
  (∀ (s : State) (reg : BitVec 4) v, (5 < reg.toNat ∨ ¬ legalValue reg v) →
    exec (.cfgWr reg v) s = .next (s.after (.raised .operandRange))) ∧
  (∀ (s : State) (reg : BitVec 4), 5 < reg.toNat →
    exec (.cfgRd reg) s = .next (s.after (.raised .operandRange))) ∧
  (∀ (s : State) (k : Nat), s.hist.length ≤ k →
    exec (.histRd k) s = .next (s.after (.raised .operandRange))) ∧
  (∀ (s : State) (v : Bits), v.length % 4 ≠ 0 ∨ 112 < v.length →
    exec (.bit2hex v) s = .next (s.after (.raised .operandRange))) ∧
  (∀ (s : State) (m : Port Rat), altOutOfRange s.num m →
    exec (.altEnc m) s = .next (s.after (.raised .operandRange))) ∧
  (∀ (s : State) address ss saf m lat lon t typeCode p, s.df ≠ none → s.ca ≠ none →
    altOutOfRange s.num m ∨
      (∀ q, lat ≠ .finite q) ∨ (∀ q, lon ≠ .finite q) →
    exec (.encPos address ss saf m lat lon t typeCode p) s =
      .next (s.after (.raised .operandRange))) ∧
  (∀ (s : State) lat, (∀ q, lat ≠ .finite q) →
    exec (.cprNl lat) s = .next (s.after (.raised .operandRange))) ∧
  (∀ (s : State) lat lon p, (∀ q, lat ≠ .finite q) ∨ (∀ q, lon ≠ .finite q) →
    exec (.cprEnc lat lon p) s = .next (s.after (.raised .operandRange))) ∧
  (∀ (s : State) (v : Bits), s.fc ≠ none → s.sps ≠ none → Config.nbitsMax < v.length →
    exec (.mod v) s = .next (s.after (.raised .operandRange))) ∧
  (∀ (s : State) (x : List (Port ExactReal)), s.snrDb ≠ none → s.fading ≠ none → s.rng ≠ none →
    (∃ p ∈ x, ∀ q, p ≠ .finite q) →
    exec (.chan x) s = .next (s.after (.raised .operandRange))) ∧
  (∀ (s : State) (x : List (Port ExactReal)) (sps : Sps), s.fc ≠ none → s.sps = some sps →
    (∃ p ∈ x, ∀ q, p ≠ .finite q) ∨ x.length % sps.count ≠ 0 ∨
      Config.nbitsMax < x.length / sps.count →
    exec (.demod x) s = .next (s.after (.raised .operandRange)))

/-- A string that is not 28 hex digits ends DEC and XMIT with MALFORMED_INPUT, and one that is too
long or holds another character ends HEX2BIT so, whatever the state; no state changes. -/
def Obligations.MalformedStringsAreRefused : Prop :=
  (∀ (s : State) str, ¬ frameText str →
    exec (.dec str) s = .next (s.after (.raised .malformedInput))) ∧
  (∀ (s : State) str, ¬ frameText str →
    exec (.xmit str) s = .next (s.after (.raised .malformedInput))) ∧
  (∀ (s : State) (str : Chars), (28 < str.length ∨ ∃ c ∈ str, ¬ hexDigit c) →
    exec (.hex2bit str) s = .next (s.after (.raised .malformedInput)))

/-! ### BitCodec -/

/-- HEX2BIT gives four bits a character, the character's value most significant bit first. -/
def Obligations.HexStringGivesItsBits : Prop :=
  (∀ str, decode (.op 0x10 [.chars str]) = .ok (.hex2bit str)) ∧
  (∀ (s : State) (str : Chars), str.length ≤ 28 → (∀ c ∈ str, hexDigit c) →
    ∃ v : Bits, exec (.hex2bit str) s = .next (s.after (.ok (.bits v))) ∧
      v.length = 4 * str.length ∧
      ∀ k j c, str[k]? = some c → j < 4 →
        v[4 * k + j]? =
          some ((if c.toNat ≤ 57 then c.toNat - 48 else c.toNat - 55).testBit (3 - j))) ∧
  (∀ (s : State) (str : Chars), (28 < str.length ∨ ∃ c ∈ str, ¬ hexDigit c) →
    exec (.hex2bit str) s = .next (s.after (.raised .malformedInput)))

/-- BIT2HEX gives one upper-case digit for four bits, leading zeros kept. -/
def Obligations.BitsGiveTheirHexString : Prop :=
  (∀ v, decode (.op 0x11 [.vector v]) = .ok (.bit2hex v)) ∧
  (∀ (s : State) (v : Bits), v.length % 4 = 0 → v.length ≤ 112 →
    ∃ h : Chars, exec (.bit2hex v) s = .next (s.after (.ok (.hex h))) ∧
      h.length = v.length / 4 ∧
      ∀ k, k < v.length / 4 → ∃ d c, d < 16 ∧ h[k]? = some c ∧
        c.toNat = (if d < 10 then 48 + d else 55 + d) ∧
        ∀ j, j < 4 → v[4 * k + j]? = some (Nat.testBit d (3 - j))) ∧
  (∀ (s : State) (v : Bits), v.length % 4 ≠ 0 ∨ 112 < v.length →
    exec (.bit2hex v) s = .next (s.after (.raised .operandRange)))

/-- The laws of the four BitCodec operations, which the spec infers ("derived: from rules R90, R91, R92
and R93"): both hex round trips and both character round trips. -/
def Obligations.BitCodecRoundTrips : Prop :=
  (∀ v : Bits, v.length % 4 = 0 → v.length ≤ 112 →
    ∃ h, bitsToHex v = .ok h ∧ hexToBits h = .ok v) ∧
  (∀ (str : Chars) (v : Bits), hexToBits str = .ok v → bitsToHex v = .ok str) ∧
  (∀ c : Byte, (alphabetChar c → sixToChar (charToSix c) = c) ∧
    (¬ alphabetChar c → sixToChar (charToSix c) = 32)) ∧
  (∀ x : BitVec 6,
    (((1 ≤ x.toNat ∧ x.toNat ≤ 26) ∨ x.toNat = 32 ∨ (48 ≤ x.toNat ∧ x.toNat ≤ 57)) →
      charToSix (sixToChar x) = x) ∧
    (¬ ((1 ≤ x.toNat ∧ x.toNat ≤ 26) ∨ x.toNat = 32 ∨ (48 ≤ x.toNat ∧ x.toNat ≤ 57)) →
      charToSix (sixToChar x) = 32))

/-- CHAR2SIX and SIX2CHAR are the character map, total on all their operands; the marker 35, `#`, of an
undefined code is the one 40_bitcodec R93 states and item U2 calls a parameter (log 17). -/
def Obligations.CharacterMap : Prop :=
  (∀ c, decode (.op 0x12 [.bits 8 c]) = .ok (.char2six c)) ∧
  (∀ x, decode (.op 0x13 [.bits 6 x]) = .ok (.six2char x)) ∧
  (∀ (s : State) (c : Byte), ∃ x : BitVec 6,
    exec (.char2six c) s = .next (s.after (.ok (.six x))) ∧
    x.toNat = if 65 ≤ c.toNat ∧ c.toNat ≤ 90 then c.toNat - 64
      else if 48 ≤ c.toNat ∧ c.toNat ≤ 57 then c.toNat else 32) ∧
  (∀ (s : State) (x : BitVec 6), ∃ c : Byte,
    exec (.six2char x) s = .next (s.after (.ok (.char c))) ∧
    c.toNat = if 1 ≤ x.toNat ∧ x.toNat ≤ 26 then x.toNat + 64
      else if 48 ≤ x.toNat ∧ x.toNat ≤ 57 then x.toNat
      else if x.toNat = 32 then 32 else 35)

/-! ### CRC-24 -/

/-- CRC.GEN returns the remainder of the data times `x^24` divided by the generator, over GF(2). -/
def Obligations.CrcIsThePolynomialRemainder : Prop :=
  (∀ d, decode (.op 0x20 [.bits 88 d]) = .ok (.crcGen d)) ∧
  (∀ (s : State) (d : BitVec 88), ∃ c : BitVec 24,
    exec (.crcGen d) s = .next (s.after (.ok (.crc c))) ∧
    bitPoly c = (bitPoly d * Polynomial.X ^ 24) %ₘ bitPoly (0x1FFF409 : BitVec 25))

/-- The CRC is additive over GF(2), which the spec infers ("a polynomial remainder is additive"). -/
def Obligations.CrcIsLinear : Prop :=
  (∀ a b : BitVec 88, crc24 (a ^^^ b) = crc24 a ^^^ crc24 b) ∧ crc24 0 = 0

/-- CRC.CHK returns whether the recomputed CRC equals the received one, and the computed CRC; it
counts nothing. -/
def Obligations.CrcChkComparesTheCrc : Prop :=
  (∀ f, decode (.op 0x21 [.bits 112 f]) = .ok (.crcChk f)) ∧
  (∀ (s : State) (f : BitVec 112), exec (.crcChk f) s = .next (s.after (.ok
    (.check (crc24 (f.extractLsb' 24 88) == f.extractLsb' 0 24) (crc24 (f.extractLsb' 24 88))))))

/-- A single flipped bit is detected: of the data it changes the CRC, and anywhere in a valid frame it
makes CRC.CHK answer PASS = 0, which the spec infers ("derived: from rules R106 and R108"). -/
def Obligations.SingleBitErrorsAreDetected : Prop :=
  (∀ (d : BitVec 88) (i : Nat), i < 88 → crc24 (d ^^^ BitVec.twoPow 88 i) ≠ crc24 d) ∧
  (∀ (s : State) (f : BitVec 112) (i : Nat), i < 112 → crcPasses f = true →
    ∃ c, exec (.crcChk (f ^^^ BitVec.twoPow 112 i)) s = .next (s.after (.ok (.check false c))))

/-- The check passes exactly when dividing the whole frame leaves 24 zero bits, which the spec infers
("derived: from rules R101 and R108"). -/
def Obligations.CheckerIsADivision : Prop :=
  ∀ (s : State) (f : BitVec 112), ∃ p c,
    exec (.crcChk f) s = .next (s.after (.ok (.check p c))) ∧
    (p = true ↔ ((List.range 88).foldl crcStep f).extractLsb' 0 24 = 0) ∧
    ((List.range 88).foldl crcStep f).extractLsb' 0 24 = c ^^^ f.extractLsb' 0 24

/-! ### The altitude field -/

/-- ALT.ENC and ALT.DEC: the step from the feet, the magnitude, the field and back; an altitude whose
magnitude has no 11 bits, or a non-finite one, is refused. `Reaches` and `IsFloor` are the comparison and
the floor of the reference, and either neighbour of a boundary in a build that rounds (00_scope R14,
log 6). -/
def Obligations.AltitudeFieldIsEncodedAndDecoded : Prop :=
  (∀ m, decode (.op 0x30 [.real m]) = .ok (.altEnc m)) ∧
  (∀ a, decode (.op 0x31 [.bits 12 a]) = .ok (.altDec a)) ∧
  (∀ (s : State) (m : Rat), altInRange s.num m → ∃ (a : BitVec 12) (n : BitVec 11),
    exec (.altEnc (.finite m)) s = .next (s.after (.ok (.altField a))) ∧
    s.num.Reaches (m * 1250 / 381) 50000 (roundingDistance (m * 1250 / 381))
      (a.extractLsb' 4 1 = 0) ∧
    a.extractLsb' 5 7 = n.extractLsb' 4 7 ∧ a.extractLsb' 0 4 = n.extractLsb' 0 4 ∧
    s.num.IsFloor ((m * 1250 / 381 + 1000) / (if a.extractLsb' 4 1 = 0 then 100 else 25))
      (roundingDistance (|m * 1250 / 381| + 1000)) n.toNat) ∧
  (∀ (s : State) (m : Rat), s.num = .exact → -1000 ≤ m * 1250 / 381 → m * 1250 / 381 < 203800 →
    ∃ (a : BitVec 12) (n : BitVec 11),
      exec (.altEnc (.finite m)) s = .next (s.after (.ok (.altField a))) ∧
      a.extractLsb' 4 1 = (if 50000 ≤ m * 1250 / 381 then 0 else 1) ∧
      a.extractLsb' 5 7 = n.extractLsb' 4 7 ∧ a.extractLsb' 0 4 = n.extractLsb' 0 4 ∧
      (n.toNat : Int) =
        ((m * 1250 / 381 + 1000) / (if 50000 ≤ m * 1250 / 381 then 100 else 25) : Rat).floor) ∧
  (∀ (s : State) (m : Port Rat), altOutOfRange s.num m →
    exec (.altEnc m) s = .next (s.after (.raised .operandRange))) ∧
  (∀ (s : State) (a : BitVec 12), ∃ (n : BitVec 11) (ft : Int),
    exec (.altDec a) s = .next (s.after (.ok
      (.altitude (a.extractLsb' 4 1) n ft ((ft : Rat) * 381 / 1250)))) ∧
    n.toNat = (a.extractLsb' 5 7).toNat * 16 + (a.extractLsb' 0 4).toNat ∧
    ft = (n.toNat : Int) * (if a.extractLsb' 4 1 = 1 then 25 else 100) - 1000)

/-- The decoded altitude is never above the true one and less than one step below it, which the spec
infers ("derived: from rules R116, R117 and R119"), up to rounding distance in a build that rounds
(log 6). -/
def Obligations.AltitudeRoundTrip : Prop :=
  ∀ (s : State) (m : Rat) (a : BitVec 12),
    exec (.altEnc (.finite m)) s = .next (s.after (.ok (.altField a))) →
    ∃ q n ft altM, exec (.altDec a) s = .next (s.after (.ok (.altitude q n ft altM))) ∧
      s.num.Reaches (m * 1250 / 381) 50000 (roundingDistance (m * 1250 / 381)) (q = 0) ∧
      (ft : Rat) ≤ m * 1250 / 381 + s.num.altSlack m ∧
      m * 1250 / 381 - (if q = 0 then 100 else 25) - s.num.altSlack m < (ft : Rat)

/-! ### The encoders -/

/-- ENC.ID builds the frame of its operands: every field in its slice, the callsign cut or padded to
eight codes, the CRC over the rest, and the hex string of 28 characters. A request whose callsign the
port does not carry, longer than CS_MAX, ends with OPERAND_RANGE once DF and CA are set: item U14, which
the model takes as a limit of the port, where the rules of ENC.ID take any length (log 13). -/
def Obligations.EncIdBuildsTheFrame : Prop :=
  (∀ address category (callsign : Chars) typeCode, callsign.length ≤ Config.csMax →
    decode (.op 0x32 [.bits 24 address, .bits 3 category, .chars callsign, .bits 5 typeCode]) =
      .ok (.encId address category callsign typeCode)) ∧
  (∀ (s : State) address category (callsign : Chars) typeCode, Config.csMax < callsign.length →
    s.requests.head? = some
      (.op 0x32 [.bits 24 address, .bits 3 category, .chars callsign, .bits 5 typeCode]) →
    step s = .next (s.after (.raised (if s.df = none ∨ s.ca = none then .configUnset
      else .operandRange)))) ∧
  (∀ (s : State) (df : BitVec 5) (ca : BitVec 3) (address : BitVec 24) (category : BitVec 3)
    (callsign : Chars) (typeCode : BitVec 5), s.df = some df → s.ca = some ca →
    ∃ (f : BitVec 112) (hex : Chars),
      exec (.encId address category callsign typeCode) s =
        .next (s.after (.ok (.frame f hex))) ∧
      f.extractLsb' 107 5 = df ∧ f.extractLsb' 104 3 = ca ∧ f.extractLsb' 80 24 = address ∧
      f.extractLsb' 75 5 = typeCode ∧ f.extractLsb' 72 3 = category ∧
      (∀ i, i < 8 → f.extractLsb' (66 - 6 * i) 6 = (match callsign[i]? with
        | some c => charToSix c
        | none => 32)) ∧
      f.extractLsb' 0 24 = crc24 (f.extractLsb' 24 88) ∧
      hex.length = 28 ∧ hexToBits hex = .ok (wireBits f)) ∧
  (∀ (s : State) address category callsign typeCode, s.df = none ∨ s.ca = none →
    exec (.encId address category callsign typeCode) s = .next (s.after (.raised .configUnset)))

/-- ENC.POS builds the frame of its operands, with the altitude field of ALT.ENC and the integers of
CPR.ENC; it refuses unset registers first, then operands out of range. In a build that rounds, an altitude
within rounding distance of an end of the range may be taken either way (log 6). -/
def Obligations.EncPosBuildsTheFrame : Prop :=
  (∀ address ss saf m lat lon t typeCode p,
    decode (.op 0x33 [.bits 24 address, .bits 2 ss, .bits 1 saf, .real m, .real lat, .real lon,
      .bits 1 t, .bits 5 typeCode, .bits 1 p]) =
      .ok (.encPos address ss saf m lat lon t typeCode p)) ∧
  (∀ (s : State) (df : BitVec 5) (ca : BitVec 3) (address : BitVec 24) (ss : BitVec 2)
    (saf : BitVec 1) (m lat lon : Rat) (t : BitVec 1) (typeCode : BitVec 5) (p : BitVec 1),
    s.df = some df → s.ca = some ca →
    altInRange s.num m →
    ∃ (f : BitVec 112) (hex : Chars) (a : BitVec 12) (yz xz : BitVec 17),
      exec (.encPos address ss saf (.finite m) (.finite lat) (.finite lon) t typeCode p) s =
        .next (s.after (.ok (.frame f hex))) ∧
      exec (.altEnc (.finite m)) s = .next (s.after (.ok (.altField a))) ∧
      exec (.cprEnc (.finite lat) (.finite lon) p) s = .next (s.after (.ok (.cpr yz xz))) ∧
      f.extractLsb' 107 5 = df ∧ f.extractLsb' 104 3 = ca ∧ f.extractLsb' 80 24 = address ∧
      f.extractLsb' 75 5 = typeCode ∧ f.extractLsb' 73 2 = ss ∧ f.extractLsb' 72 1 = saf ∧
      f.extractLsb' 60 12 = a ∧ f.extractLsb' 59 1 = t ∧ f.extractLsb' 58 1 = p ∧
      f.extractLsb' 41 17 = yz ∧ f.extractLsb' 24 17 = xz ∧
      f.extractLsb' 0 24 = crc24 (f.extractLsb' 24 88) ∧
      hex.length = 28 ∧ hexToBits hex = .ok (wireBits f)) ∧
  (∀ (s : State) address ss saf m lat lon t typeCode p, s.df = none ∨ s.ca = none →
    exec (.encPos address ss saf m lat lon t typeCode p) s =
      .next (s.after (.raised .configUnset))) ∧
  (∀ (s : State) address ss saf m lat lon t typeCode p, s.df ≠ none → s.ca ≠ none →
    altOutOfRange s.num m ∨
      (∀ q, lat ≠ .finite q) ∨ (∀ q, lon ≠ .finite q) →
    exec (.encPos address ss saf m lat lon t typeCode p) s =
      .next (s.after (.raised .operandRange)))

/-- Decoding an encoded frame recovers it: an identification frame's prefix, category and padded
callsign; a position frame's fields, its CPR integers, and its altitude to within a step below (and
rounding distance in a build that rounds, log 6). The spec infers both ("derived: from rules R122, R130,
R135", "derived: from rules R125, R137 and R139"). -/
def Obligations.EncodedFramesDecode : Prop :=
  (∀ (s : State) (df : BitVec 5) (ca : BitVec 3) (address : BitVec 24) (category : BitVec 3)
    (callsign : Chars) (typeCode : BitVec 5), s.df = some df → s.ca = some ca →
    1 ≤ typeCode.toNat → typeCode.toNat ≤ 4 → callsign.length ≤ 8 →
    (∀ c ∈ callsign, alphabetChar c) →
    ∃ f hex, exec (.encId address category callsign typeCode) s =
        .next (s.after (.ok (.frame f hex))) ∧
      exec (.dec hex) s = .next (s.after (.ok (.ident ⟨df, ca, address, typeCode⟩
        ⟨category, callsign ++ List.replicate (8 - callsign.length) 32⟩)))) ∧
  (∀ (s : State) (df : BitVec 5) (ca : BitVec 3) (address : BitVec 24) (ss : BitVec 2)
    (saf : BitVec 1) (m lat lon : Rat) (t : BitVec 1) (typeCode : BitVec 5) (p : BitVec 1),
    s.df = some df → s.ca = some ca →
    (9 ≤ typeCode.toNat ∧ typeCode.toNat ≤ 18) ∨ (20 ≤ typeCode.toNat ∧ typeCode.toNat ≤ 22) →
    altInRange s.num m →
    ∃ f hex u r, exec (.encPos address ss saf (.finite m) (.finite lat) (.finite lon) t typeCode p)
        s = .next (s.after (.ok (.frame f hex))) ∧
      exec (.dec hex) s = .next u ∧
      u.response = some (.ok (.position ⟨df, ca, address, typeCode⟩ r)) ∧
      r.ss = ss ∧ r.saf = saf ∧ r.t = t ∧ r.fp = p ∧
      exec (.cprEnc (.finite lat) (.finite lon) p) s =
        .next (s.after (.ok (.cpr r.yz r.xz))) ∧
      s.num.Reaches (m * 1250 / 381) 50000 (roundingDistance (m * 1250 / 381)) (r.q = 0) ∧
      (r.ft : Rat) ≤ m * 1250 / 381 + s.num.altSlack m ∧
      m * 1250 / 381 - (if r.q = 0 then 100 else 25) - s.num.altSlack m < (r.ft : Rat))

/-! ### The decoder -/

/-- DEC of a frame whose CRC does not match adds exactly 1 to the counter, returns no field and leaves
the History. -/
def Obligations.DecCountsChecksumFailures : Prop :=
  ∀ (s : State) (f : BitVec 112), crc24 (f.extractLsb' 24 88) ≠ f.extractLsb' 0 24 →
    exec (.dec (frameHex f)) s =
      .next (({ s with corruptCnt := s.corruptCnt + 1 } : State).after (.raised .checksumFailure))

/-- DEC of a frame whose CRC matches reports by the type code alone: an identification, a position
resolved against the History as CPR.RESOLVE does and then appended, or the prefix fields only. -/
def Obligations.DecReportsByTypeCode : Prop :=
  ∀ (s : State) (f : BitVec 112), crc24 (f.extractLsb' 24 88) = f.extractLsb' 0 24 →
    let p : ReportPrefix := ⟨f.extractLsb' 107 5, f.extractLsb' 104 3, f.extractLsb' 80 24,
      f.extractLsb' 75 5⟩
    let tc := (f.extractLsb' 75 5).toNat
    (1 ≤ tc ∧ tc ≤ 4 → exec (.dec (frameHex f)) s = .next (s.after (.ok (.ident p
      ⟨f.extractLsb' 72 3, (List.range 8).map fun i => sixToChar (f.extractLsb' (66 - 6 * i) 6)⟩)))) ∧
    ((9 ≤ tc ∧ tc ≤ 18) ∨ (20 ≤ tc ∧ tc ≤ 22) → ∃ (pos : Option (Rat × Rat)) (q : BitVec 1)
      (n : BitVec 11) (ft : Int) (altM : Rat),
      exec (.altDec (f.extractLsb' 60 12)) s = .next (s.after (.ok (.altitude q n ft altM))) ∧
      exec (.cprResolve (f.extractLsb' 80 24) (f.extractLsb' 58 1) (f.extractLsb' 41 17)
        (f.extractLsb' 24 17) (f.extractLsb' 59 1)) s = .next (s.after (.ok (.resolved pos))) ∧
      exec (.dec (frameHex f)) s = .next
        (({ s with hist := s.hist ++ [⟨f.extractLsb' 80 24, f.extractLsb' 58 1, f.extractLsb' 41 17,
            f.extractLsb' 24 17, f.extractLsb' 59 1, altM, pos⟩] } : State).after
          (.ok (.position p ⟨f.extractLsb' 73 2, f.extractLsb' 72 1,
            if tc ≤ 18 then .barometric else .gnss, q, ft, altM, f.extractLsb' 59 1,
            f.extractLsb' 58 1, f.extractLsb' 41 17, f.extractLsb' 24 17, pos⟩)))) ∧
    (tc = 0 ∨ (5 ≤ tc ∧ tc ≤ 8) ∨ tc = 19 ∨ 23 ≤ tc →
      exec (.dec (frameHex f)) s = .next (s.after (.ok (.other p))))

/-- DEC of any accepted string is the frame row of the frame the string holds: the model's reading of
the frame rows as instructions (log 4). -/
def Obligations.DecIsTheFrameRow : Prop :=
  ∀ str : Chars, frameText str →
    ∃ f : BitVec 112, str = frameHex f ∧
      ∀ s : State, exec (.dec str) s = exec (decodeFrame f) s

/-- A frame row of type code 1 to 4 answers the identification report and changes no state when the
CRC matches, and counts a checksum failure when it does not (log 4). -/
def Obligations.IdentRowsReport : Prop :=
  ∀ (s : State) (f : BitVec 112),
    ∀ i ∈ [Instr.frameTc1Ident f, .frameTc2Ident f, .frameTc3Ident f, .frameTc4Ident f],
      (crcPasses f = true → exec i s = .next (s.after (.ok (.ident
        ⟨f.extractLsb' 107 5, f.extractLsb' 104 3, f.extractLsb' 80 24, f.extractLsb' 75 5⟩
        ⟨f.extractLsb' 72 3,
          (List.range 8).map fun k => sixToChar (f.extractLsb' (66 - 6 * k) 6)⟩)))) ∧
      (crcPasses f = false → exec i s =
        .next (({ s with corruptCnt := s.corruptCnt + 1 } : State).after (.raised .checksumFailure)))

/-- A frame row of type code 9 to 18 or 20 to 22 answers the position report and appends its record,
and nothing else, when the CRC matches; it counts a checksum failure when it does not (log 4). -/
def Obligations.PositionRowsReportAndAppend : Prop :=
  ∀ (s : State) (f : BitVec 112) (src : AltSrc),
    ∀ i ∈ (match src with
      | .barometric => [Instr.frameTc9Position f, .frameTc10Position f, .frameTc11Position f,
          .frameTc12Position f, .frameTc13Position f, .frameTc14Position f, .frameTc15Position f,
          .frameTc16Position f, .frameTc17Position f, .frameTc18Position f]
      | .gnss => [.frameTc20Position f, .frameTc21Position f, .frameTc22Position f]),
      (crcPasses f = true → ∃ pos q n ft altM,
        exec (.altDec (f.extractLsb' 60 12)) s = .next (s.after (.ok (.altitude q n ft altM))) ∧
        exec (.cprResolve (f.extractLsb' 80 24) (f.extractLsb' 58 1) (f.extractLsb' 41 17)
          (f.extractLsb' 24 17) (f.extractLsb' 59 1)) s = .next (s.after (.ok (.resolved pos))) ∧
        exec i s = .next
          (({ s with hist := s.hist ++ [⟨f.extractLsb' 80 24, f.extractLsb' 58 1,
              f.extractLsb' 41 17, f.extractLsb' 24 17, f.extractLsb' 59 1, altM, pos⟩] } : State).after
            (.ok (.position
              ⟨f.extractLsb' 107 5, f.extractLsb' 104 3, f.extractLsb' 80 24, f.extractLsb' 75 5⟩
              ⟨f.extractLsb' 73 2, f.extractLsb' 72 1, src, q, ft, altM, f.extractLsb' 59 1,
                f.extractLsb' 58 1, f.extractLsb' 41 17, f.extractLsb' 24 17, pos⟩)))) ∧
      (crcPasses f = false → exec i s =
        .next (({ s with corruptCnt := s.corruptCnt + 1 } : State).after (.raised .checksumFailure)))

/-- A frame row of an unknown type code answers the prefix fields and changes no state when the CRC
matches, and counts a checksum failure when it does not (log 4). -/
def Obligations.OtherRowsReportThePrefix : Prop :=
  ∀ (s : State) (f : BitVec 112),
    ∀ i ∈ [Instr.frameTc0Other f, .frameTc5Other f, .frameTc6Other f, .frameTc7Other f,
        .frameTc8Other f, .frameTc19Other f, .frameTc23Other f, .frameTc24Other f,
        .frameTc25Other f, .frameTc26Other f, .frameTc27Other f, .frameTc28Other f,
        .frameTc29Other f, .frameTc30Other f, .frameTc31Other f],
      (crcPasses f = true → exec i s = .next (s.after (.ok (.other
        ⟨f.extractLsb' 107 5, f.extractLsb' 104 3, f.extractLsb' 80 24, f.extractLsb' 75 5⟩)))) ∧
      (crcPasses f = false → exec i s =
        .next (({ s with corruptCnt := s.corruptCnt + 1 } : State).after (.raised .checksumFailure)))

/-! ### The History search -/

/-- `hist_find` returns the newest record of the address with the other parity, none if there is none;
a report of the same parity appended before the search changes nothing (the spec's inference, "derived:
from the condition r.F != f"). -/
def Obligations.HistFindReturnsTheNewestPartner : Prop :=
  (∀ (h : List Record) (addr : BitVec 24) (fp : BitVec 1) (r : Record),
    histFind h addr fp = some r ↔ ∃ i, h[i]? = some r ∧ r.addr = addr ∧ r.f ≠ fp ∧
      ∀ (j : Nat) (r' : Record), i < j → h[j]? = some r' → ¬ (r'.addr = addr ∧ r'.f ≠ fp)) ∧
  (∀ (h : List Record) (addr : BitVec 24) (fp : BitVec 1),
    histFind h addr fp = none ↔ ∀ r ∈ h, ¬ (r.addr = addr ∧ r.f ≠ fp)) ∧
  (∀ (h : List Record) (r : Record), histFind (h ++ [r]) r.addr r.f = histFind h r.addr r.f)

/-! ### CPR -/

/-- CPR.NL answers a zone count from 1 to 59 for every latitude: even in the latitude, 59 at 0, 2 at
87 degrees, 1 beyond it. In a build that rounds, the count is 60 or 59 within rounding distance of 0 and 2
or 1 within that of 87 (log 6, log 8). The spec infers these ("derived: from rules R150 and R151"). -/
def Obligations.ZoneCountProperties : Prop :=
  (∀ lat, decode (.op 0x40 [.real lat]) = .ok (.cprNl lat)) ∧
  (∀ (s : State) (lat : Rat), ∃ n, exec (.cprNl (.finite lat)) s = .next (s.after (.ok (.nl n))) ∧
    exec (.cprNl (.finite (-lat))) s = .next (s.after (.ok (.nl n))) ∧
    1 ≤ n ∧ n ≤ 60 ∧ (s.num.slack equatorBand ≤ |lat| → n ≤ 59) ∧
    (s.num = .exact → lat = 0 → n = 59) ∧ (|lat| < equatorBand → n = 59 ∨ n = 60) ∧
    (s.num = .exact → |lat| = 87 → n = 2) ∧ (|lat| = 87 → n = 2 ∨ n = 1) ∧
    (87 < |lat| → 87 + s.num.slack (1 / 10 ^ 9) ≤ |lat| → n = 1))

/-- Away from the transition latitudes CPR.NL is the table: 59 up to the first (in a build that rounds,
from the band around 0 on, log 6), `n` between those of `n + 1` and `n`, 2 from the last up to 87 degrees
(to within 1e-9 of it in a build that rounds). Within 1e-9 degrees of a transition the value is free, of
the two the table allows (log 8). -/
def Obligations.ZoneCountFollowsTheTable : Prop :=
  (∀ (s : State) (lat : Rat), s.num.slack equatorBand ≤ |lat| →
    |lat| ≤ 104704713000 / 10 ^ 10 - 1 / 10 ^ 9 →
    exec (.cprNl (.finite lat)) s = .next (s.after (.ok (.nl 59)))) ∧
  (∀ (s : State) (lat : Rat) (k n t u : Nat), transitions[k]? = some (n + 1, u) →
    transitions[k + 1]? = some (n, t) → (u : Rat) / 10 ^ 10 + 1 / 10 ^ 9 ≤ |lat| →
    |lat| ≤ (t : Rat) / 10 ^ 10 - 1 / 10 ^ 9 →
    exec (.cprNl (.finite lat)) s = .next (s.after (.ok (.nl n)))) ∧
  (∀ (s : State) (lat : Rat), (865353699751 : Rat) / 10 ^ 10 + 1 / 10 ^ 9 ≤ |lat| →
    |lat| ≤ 87 - s.num.slack (1 / 10 ^ 9) →
    exec (.cprNl (.finite lat)) s = .next (s.after (.ok (.nl 2)))) ∧
  (∀ (k n t : Nat), transitions[k]? = some (n, t) → n = 59 - k) ∧ transitions.length = 57

/-- CPR.ENC: the two integers by the source's formulas, their low 17 bits; a non-finite operand is
refused. `IsFloor` is the floor of the reference, and either neighbour of an integer within rounding
distance in a build that rounds (00_scope R14, log 6). -/
def Obligations.CprEncFollowsTheFormulas : Prop :=
  (∀ lat lon p, decode (.op 0x41 [.real lat, .real lon, .bits 1 p]) = .ok (.cprEnc lat lon p)) ∧
  (∀ (s : State) (lat lon : Rat) (p : BitVec 1), ∃ (yz xz : BitVec 17) (yzRaw xzRaw : Int),
    exec (.cprEnc (.finite lat) (.finite lon) p) s = .next (s.after (.ok (.cpr yz xz))) ∧
    let dLat : Rat := 360 / (60 - p.toNat)
    let dLon : Rat := 360 / (max (calculateNL s.num [lat, p.toNat] (lat + p.toNat)) 1 : Nat)
    let lon' : Rat := if lon < 0 then lon + 360 else lon
    s.num.IsFloor ((lat - dLat * (⌊lat / dLat⌋ : Int)) / dLat * 131072 + 1 / 2)
      (roundingDistance (131072 * (|lat / dLat| + 1))) yzRaw ∧
    s.num.IsFloor ((lon' - dLon * (⌊lon' / dLon⌋ : Int)) / dLon * 131072 + 1 / 2)
      (roundingDistance (131072 * (|lon' / dLon| + 1))) xzRaw ∧
    (yz.toNat : Int) = yzRaw % 131072 ∧ (xz.toNat : Int) = xzRaw % 131072) ∧
  (∀ (s : State) lat lon p, (∀ q, lat ≠ .finite q) ∨ (∀ q, lon ≠ .finite q) →
    exec (.cprEnc lat lon p) s = .next (s.after (.raised .operandRange)))

/-- CPR.PAIR is the source's algorithm line for line. `IsFloor` and `Reaches` are the floor and the
comparison of the reference, and either neighbour of a boundary in a build that rounds (00_scope R14,
log 6). `fromE` and `fromO` are what the latitudes are computed from, which can decide the zone count of a
build that rounds near a boundary, and of no other. -/
def Obligations.CprPairFollowsTheAlgorithm : Prop :=
  (∀ yzE xzE tE yzO xzO tO, decode (.op 0x42 [.bits 17 yzE, .bits 17 xzE, .bits 1 tE,
    .bits 17 yzO, .bits 17 xzO, .bits 1 tO]) = .ok (.cprPair yzE xzE tE yzO xzO tO)) ∧
  (∀ (s : State) (yzE xzE : BitVec 17) (tE : BitVec 1) (yzO xzO : BitVec 17) (tO : BitVec 1),
    let latE : Rat := yzE.toNat / 131072
    let lonE : Rat := xzE.toNat / 131072
    let latO : Rat := yzO.toNat / 131072
    let lonO : Rat := xzO.toNat / 131072
    ∃ (j m : Int) (evenOver oddOver lonOver : Bool),
    let e : Rat := 360 / 60 * ((j % 60 : Int) + latE)
    let o : Rat := 360 / 59 * ((j % 59 : Int) + latO)
    let latEven : Rat := if evenOver then e - 360 else e
    let latOdd : Rat := if oddOver then o - 360 else o
    let fromE : List Rat := [(60 : Nat), j, latE]
    let fromO : List Rat := [(59 : Nat), j, latO]
    let lat : Rat := if tO.toNat ≤ tE.toNat then latEven else latOdd
    let nl := calculateNL s.num (if tO.toNat ≤ tE.toNat then fromE else fromO) lat
    let nE := max nl 1
    let nO := max (calculateNL s.num (fromO ++ [1]) (lat - 1)) 1
    let lon : Rat := if tO.toNat ≤ tE.toNat then 360 / nE * ((m % nE : Int) + lonE)
      else 360 / nO * ((m % nO : Int) + lonO)
    s.num.IsFloor (59 * latE - 60 * latO + 1 / 2) (roundingDistance 120) j ∧
    s.num.Reaches e 270 (roundingDistance 360) (evenOver = true) ∧
    s.num.Reaches o 270 (roundingDistance 360) (oddOver = true) ∧
    s.num.IsFloor (lonE * ((nl : Rat) - 1) - lonO * nl + 1 / 2) (roundingDistance 120) m ∧
    s.num.Reaches lon 180 (roundingDistance 360) (lonOver = true) ∧
    exec (.cprPair yzE xzE tE yzO xzO tO) s = .next (s.after (.ok (.resolved
      (if calculateNL s.num fromE latEven ≠ calculateNL s.num fromO latOdd then none
      else some (lat, if lonOver then lon - 360 else lon))))))

/-- A resolved latitude lies in `[-90, 270)` and a resolved longitude in `[-180, 180)`: what the
normalisations leave, up to rounding distance in a build that rounds (log 6). -/
def Obligations.ResolvedPositionRanges : Prop :=
  ∀ (s t : State) (yzE xzE : BitVec 17) (tE : BitVec 1) (yzO xzO : BitVec 17) (tO : BitVec 1)
    (lat lon : Rat), exec (.cprPair yzE xzE tE yzO xzO tO) s = .next t →
    t.response = some (.ok (.resolved (some (lat, lon)))) →
    let e := s.num.slack (roundingDistance 360)
    lat < 270 + e ∧ -90 - e ≤ lat ∧ lon < 180 + e ∧ -180 - e ≤ lon

/-- Two reports of one position give its latitude back to within half a CPR unit of the selected
report's zone, in the reference arithmetic. The spec infers half an even unit for both reports ("derived:
from rules R155, R161 and R166"); half an odd unit, the larger one, for the odd report is this
statement's own. -/
def Obligations.PairRecoversTheLatitude : Prop :=
  ∀ (s : State) (lat lon lat' lon' : Rat) (yzE xzE yzO xzO : BitVec 17) (tE tO : BitVec 1),
    s.num = .exact → -90 ≤ lat → lat ≤ 90 →
    exec (.cprEnc (.finite lat) (.finite lon) 0) s = .next (s.after (.ok (.cpr yzE xzE))) →
    exec (.cprEnc (.finite lat) (.finite lon) 1) s = .next (s.after (.ok (.cpr yzO xzO))) →
    exec (.cprPair yzE xzE tE yzO xzO tO) s =
      .next (s.after (.ok (.resolved (some (lat', lon'))))) →
    (tO ≤ tE → |lat' - lat| ≤ 360 / 60 / 131072 / 2) ∧
    (¬ tO ≤ tE → |lat' - lat| ≤ 360 / 59 / 131072 / 2)

/-- Two reports give the longitude back, up to whole turns and to half a CPR unit, in the reference
arithmetic, when the even values are selected, one degree north is exactly one zone fewer, AND the
resolved latitude has the zone count of the true one. The spec infers the rest ("derived: from rules R155,
R161 and R166"); it does not give this last hypothesis, which leaves out a resolved latitude on the other
side of a transition. -/
def Obligations.PairRecoversTheLongitude : Prop :=
  ∀ (s : State) (lat lon lat' lon' : Rat) (yzE xzE yzO xzO : BitVec 17) (tE tO : BitVec 1),
    s.num = .exact → tO ≤ tE → calculateNL s.num [] (lat + 1) + 1 = calculateNL s.num [] lat →
    calculateNL s.num [] lat' = calculateNL s.num [] lat →
    exec (.cprEnc (.finite lat) (.finite lon) 0) s = .next (s.after (.ok (.cpr yzE xzE))) →
    exec (.cprEnc (.finite lat) (.finite lon) 1) s = .next (s.after (.ok (.cpr yzO xzO))) →
    exec (.cprPair yzE xzE tE yzO xzO tO) s =
      .next (s.after (.ok (.resolved (some (lat', lon'))))) →
    ∃ k : Int, |lon' - lon - 360 * k| ≤ 360 / (calculateNL s.num [] lat : Rat) / 131072 / 2

/-- CPR.RESOLVE pairs the latest report with its newest partner, the even one first; with no partner it
answers RESOLVED = 0. -/
def Obligations.CprResolvePairsTheNewestPartner : Prop :=
  (∀ address fp yz xz t, decode (.op 0x43 [.bits 24 address, .bits 1 fp, .bits 17 yz, .bits 17 xz,
    .bits 1 t]) = .ok (.cprResolve address fp yz xz t)) ∧
  (∀ (s : State) address fp yz xz t, histFind s.hist address fp = none →
    exec (.cprResolve address fp yz xz t) s = .next (s.after (.ok (.resolved none)))) ∧
  (∀ (s : State) address yz xz t r, histFind s.hist address 0 = some r →
    ∃ pos, exec (.cprPair yz xz t r.yz r.xz r.t) s = .next (s.after (.ok (.resolved pos))) ∧
      exec (.cprResolve address 0 yz xz t) s = .next (s.after (.ok (.resolved pos)))) ∧
  (∀ (s : State) address yz xz t r, histFind s.hist address 1 = some r →
    ∃ pos, exec (.cprPair r.yz r.xz r.t yz xz t) s = .next (s.after (.ok (.resolved pos))) ∧
      exec (.cprResolve address 1 yz xz t) s = .next (s.after (.ok (.resolved pos))))

/-! ### The physical layer -/

/-- MOD gives SPS samples a bit, each the reference sine of the bit's phase as a real number; it refuses
unset registers, then a vector longer than NBITS_MAX. -/
def Obligations.ModulatedSamplesAreSines : Prop :=
  (∀ v, decode (.op 0x50 [.vector v]) = .ok (.mod v)) ∧
  (∀ (s : State) (fc : Rat) (sps : Sps) (v : Bits), s.fc = some fc → 0 < fc →
    s.sps = some sps → v.length ≤ Config.nbitsMax →
    ∃ x, exec (.mod v) s = .next (s.after (.ok (.signal x))) ∧
      x.length = v.length * sps.count ∧
      ∀ j k b, v[j]? = some b → k < sps.count →
        sampleVal x (j * sps.count + k) =
          Real.sin (2 * Real.pi * 3 * k / sps.count + if b then 0 else Real.pi)) ∧
  (∀ (s : State) v, s.fc = none ∨ s.sps = none →
    exec (.mod v) s = .next (s.after (.raised .configUnset))) ∧
  (∀ (s : State) (v : Bits), s.fc ≠ none → s.sps ≠ none → Config.nbitsMax < v.length →
    exec (.mod v) s = .next (s.after (.raised .operandRange)))

/-- The carrier frequency cancels: MOD, DEMOD and XMIT do the same for any two values of FC, which the
spec infers ("derived: from rules R180 and R181"). In a build that rounds, the bits DEMOD and XMIT answer
may differ, DEMOD's only where the correlation is within rounding distance of 0 (log 6). -/
def Obligations.CarrierFrequencyCancels : Prop :=
  (∀ (s : State) (fc fc' : Rat) (i : Instr), 0 < fc → 0 < fc' →
    ((∃ v, i = .mod v) ∨ (∃ x, i = .demod x) ∨ (∃ str, i = .xmit str)) →
    ∃ t r, exec i { s with fc := some fc } = .next t ∧
      exec i { s with fc := some fc' } = .next { t with fc := some fc', response := r } ∧
      ((s.num = .exact ∨ ∃ v, i = .mod v) → r = t.response)) ∧
  (∀ (s : State) (fc fc' : Rat) (sps : Sps) (r : List ExactReal), 0 < fc → 0 < fc' →
    s.sps = some sps → r.length % sps.count = 0 → r.length / sps.count ≤ Config.nbitsMax →
    ∃ b b' : Bits,
      exec (.demod (r.map .finite)) { s with fc := some fc } =
        .next (({ s with fc := some fc } : State).after (.ok (.bits b))) ∧
      exec (.demod (r.map .finite)) { s with fc := some fc' } =
        .next (({ s with fc := some fc' } : State).after (.ok (.bits b'))) ∧
      b.length = b'.length ∧ ∀ j, settled s.num sps r j → b[j]? = b'[j]?)

/-- The facts about the waveforms: the reference sums to 0, its square to SPS/2, its product with the
opposite reference to -SPS/2, and every modulated signal has mean square 1/2. The spec infers these
("derived: from rule R180"). -/
def Obligations.WaveformSums : Prop :=
  ∀ (fc : Rat) (sps : Sps), 0 < fc →
    (∑ k ∈ Finset.range sps.count, (ref1 fc sps.count k).val = 0) ∧
    (∑ k ∈ Finset.range sps.count, (ref1 fc sps.count k).val ^ 2 = sps.count / 2) ∧
    (∑ k ∈ Finset.range sps.count, (ref1 fc sps.count k).val * (ref0 fc sps.count k).val =
      -((sps.count : ℝ) / 2)) ∧
    (∀ v : Bits, v ≠ [] →
      (∑ k ∈ Finset.range (v.length * sps.count),
        sampleVal (modulate fc sps.count v) k ^ 2) / (v.length * sps.count) = 1 / 2)

/-- DEMOD answers one bit a window, over any finite samples: 1 exactly when the real correlation with the
phase-0 reference is positive, so that a tie gives 0; in a build that rounds, where the correlation is
beyond rounding distance of 0 (log 6). -/
def Obligations.DemodulatedBitsAreCorrelationSigns : Prop :=
  (∀ x, decode (.op 0x52 [.signal x]) = .ok (.demod x)) ∧
  (∀ (s : State) (fc : Rat) (sps : Sps) (r : List ExactReal), s.fc = some fc → 0 < fc →
    s.sps = some sps → r.length % sps.count = 0 → r.length / sps.count ≤ Config.nbitsMax →
    ∃ b : Bits, exec (.demod (r.map .finite)) s = .next (s.after (.ok (.bits b))) ∧
      b.length = r.length / sps.count ∧
      ∀ j, j < r.length / sps.count → settled s.num sps r j →
        (b[j]? = some true ↔ 0 < correlationReal sps r j))

/-- The noiseless loop, and the noise it bears: a bit is received correctly exactly when the noise
correlation over its window is above -SPS/2 for a sent 1, at most SPS/2 for a sent 0; in a build that
rounds, where the received correlation is beyond rounding distance of 0 (log 6). The spec infers it
("derived: from rules R185 and R193"). -/
def Obligations.BitsSurviveBoundedNoise : Prop :=
  (∀ (s : State) (fc : Rat) (sps : Sps) (v : Bits), s.fc = some fc → 0 < fc →
    s.sps = some sps → v.length ≤ Config.nbitsMax →
    ∃ x, exec (.mod v) s = .next (s.after (.ok (.signal x))) ∧
      exec (.demod (x.map .finite)) s = .next (s.after (.ok (.bits v)))) ∧
  (∀ (s : State) (fc : Rat) (sps : Sps) (v b : Bits) (x r : List ExactReal),
    s.fc = some fc → 0 < fc → s.sps = some sps → x.length = r.length →
    exec (.mod v) s = .next (s.after (.ok (.signal x))) →
    exec (.demod (r.map .finite)) s = .next (s.after (.ok (.bits b))) →
    b.length = v.length ∧ ∀ j sent, v[j]? = some sent → settled s.num sps r j →
      let noise := correlationReal sps r j - correlationReal sps x j
      (b[j]? = some sent ↔
        if sent = true then -((sps.count : ℝ) / 2) < noise else noise ≤ (sps.count : ℝ) / 2))

/-- CHAN over any finite signal, of any length (log 12): sample `k` comes out as
`s[k] + sqrt(N0/2) W[k] / h[k]` in real numbers (log 19), from the draws in their stated order, and the
noise source advances by `3L`. -/
def Obligations.ChannelOutputIsTheFormula : Prop :=
  (∀ x, decode (.op 0x51 [.signal x]) = .ok (.chan x)) ∧
  (∀ (s : State) (snr : Rat) (fam : Fading) (rng : Rng) (x : List ExactReal), x ≠ [] →
    s.snrDb = some snr → s.fading = some fam → s.rng = some rng →
    (∀ k, k < x.length → fadingReal fam (drawAt s.noise rng.seed) rng.n k ≠ 0) →
    let h := fadingReal fam (drawAt s.noise rng.seed) rng.n
    ∃ r, exec (.chan (x.map .finite)) s = .next
        (({ s with rng := some ⟨rng.seed, rng.n + 3 * x.length⟩ } : State).after (.ok (.signal r))) ∧
      r.length = x.length ∧
      ∀ k, k < x.length → sampleVal r k = sampleVal x k +
        √(noiseDensityReal h snr x / 2) *
          (drawAt s.noise rng.seed (rng.n + 2 * x.length + k)).val / h k)

/-- A fading magnitude of exactly 0 ends CHAN and XMIT with DIV_ZERO and changes no state, the noise
source's position included; over a signal whose magnitudes are not 0, neither ends so. A draw is a number
of the exact field, every binary64 value among them (log 9). -/
def Obligations.ZeroFadingIsDivZero : Prop :=
  (∀ (s : State) (snr : Rat) (fam : Fading) (rng : Rng) (x : List ExactReal) (k : Nat),
    s.snrDb = some snr → s.fading = some fam → s.rng = some rng → k < x.length →
    fadingReal fam (drawAt s.noise rng.seed) rng.n k = 0 →
    exec (.chan (x.map .finite)) s = .next (s.after (.raised .divZero))) ∧
  (∀ (s : State) (fc : Rat) (sps : Sps) (snr : Rat) (fam : Fading) (rng : Rng) (str : Chars)
    (k : Nat), frameText str → s.fc = some fc → s.sps = some sps → s.snrDb = some snr →
    s.fading = some fam → s.rng = some rng → k < 112 * sps.count →
    fadingReal fam (drawAt s.noise rng.seed) rng.n k = 0 →
    exec (.xmit str) s = .next (s.after (.raised .divZero))) ∧
  (∀ (s t : State) (snr : Rat) (fam : Fading) (rng : Rng) (x : List ExactReal),
    s.snrDb = some snr → s.fading = some fam → s.rng = some rng →
    (∀ k, k < x.length → fadingReal fam (drawAt s.noise rng.seed) rng.n k ≠ 0) →
    exec (.chan (x.map .finite)) s = .next t → t.response ≠ some (.raised .divZero)) ∧
  (∀ (s t : State) (sps : Sps) (fam : Fading) (rng : Rng) (str : Chars),
    s.sps = some sps → s.fading = some fam → s.rng = some rng →
    (∀ k, k < 112 * sps.count → fadingReal fam (drawAt s.noise rng.seed) rng.n k ≠ 0) →
    exec (.xmit str) s = .next t → t.response ≠ some (.raised .divZero))

/-- CHAN of the empty signal returns the empty signal and takes no draw (44_phy_channel R186 against
20_memory R51, log 14). -/
def Obligations.ChannelOfEmptySignal : Prop :=
  ∀ (s : State) (snr : Rat) (fam : Fading) (rng : Rng),
    s.snrDb = some snr → s.fading = some fam → s.rng = some rng →
    exec (.chan []) s = .next (s.after (.ok (.signal [])))

/-- XMIT is HEX2BIT, MOD, CHAN, DEMOD and BIT2HEX composed: with no zero fading it answers 28 hex digits
and advances the noise source by `336 * SPS`. In the reference arithmetic its bits are those the five give
in turn; in a build that rounds, each bit that is settled, for XMIT rounds the received signal CHAN would
return (log 6). -/
def Obligations.XmitComposesTheLink : Prop :=
  (∀ str, decode (.op 0x53 [.chars str]) = .ok (.xmit str)) ∧
  (∀ (s : State) (fc : Rat) (sps : Sps) (snr : Rat) (fam : Fading) (rng : Rng) (str : Chars),
    frameText str → s.fc = some fc → s.sps = some sps → s.snrDb = some snr →
    s.fading = some fam → s.rng = some rng →
    (∀ k, k < 112 * sps.count → fadingReal fam (drawAt s.noise rng.seed) rng.n k ≠ 0) →
    ∃ (out : Chars) (bits b sent : Bits) (x r : List ExactReal),
      exec (.xmit str) s = .next (({ s with rng := some ⟨rng.seed, rng.n + 336 * sps.count⟩ } : State).after
        (.ok (.hex out))) ∧
      frameText out ∧
      exec (.hex2bit str) s = .next (s.after (.ok (.bits bits))) ∧
      exec (.mod bits) s = .next (s.after (.ok (.signal x))) ∧
      exec (.chan (x.map .finite)) s =
        .next (({ s with rng := some ⟨rng.seed, rng.n + 336 * sps.count⟩ } : State).after
          (.ok (.signal r))) ∧
      exec (.demod (r.map .finite)) s = .next (s.after (.ok (.bits b))) ∧
      exec (.bit2hex sent) s = .next (s.after (.ok (.hex out))) ∧
      sent.length = 112 ∧ (s.num = .exact → sent = b) ∧
      (0 < fc → ∀ j, j < 112 → settledLink s.num sps x r j → sent[j]? = b[j]?))

/-- A channel without noise reproduces the frame: when every noise draw is 0 and no fading magnitude is
0, XMIT answers its own operand. -/
def Obligations.NoiselessXmitReproducesTheFrame : Prop :=
  ∀ (s : State) (fc : Rat) (sps : Sps) (snr : Rat) (fam : Fading) (rng : Rng) (str : Chars),
    frameText str → s.fc = some fc → 0 < fc → s.sps = some sps →
    s.snrDb = some snr → s.fading = some fam → s.rng = some rng →
    (∀ k, k < 112 * sps.count → fadingReal fam (drawAt s.noise rng.seed) rng.n k ≠ 0) →
    (∀ k, k < 112 * sps.count →
      drawAt s.noise rng.seed (rng.n + 2 * (112 * sps.count) + k) = .ofRat 0) →
    exec (.xmit str) s = .next (({ s with rng := some ⟨rng.seed, rng.n + 336 * sps.count⟩ } : State).after
      (.ok (.hex str)))
end

