-- ==== Sys2Proof/Laws/State.lean ====
section
/-!
SUPPORT. One lemma per field per update of the state, so that no proof unfolds a record update.
-/

namespace Sys2Proof.Machine

variable (s : State)

/-! ### `State.after` -/

@[simp] theorem State.after_df (r : Response) : (s.after r).df = s.df := rfl
@[simp] theorem State.after_ca (r : Response) : (s.after r).ca = s.ca := rfl
@[simp] theorem State.after_fc (r : Response) : (s.after r).fc = s.fc := rfl
@[simp] theorem State.after_snrDb (r : Response) : (s.after r).snrDb = s.snrDb := rfl
@[simp] theorem State.after_fading (r : Response) : (s.after r).fading = s.fading := rfl
@[simp] theorem State.after_sps (r : Response) : (s.after r).sps = s.sps := rfl
@[simp] theorem State.after_hist (r : Response) : (s.after r).hist = s.hist := rfl
@[simp] theorem State.after_corruptCnt (r : Response) : (s.after r).corruptCnt = s.corruptCnt := rfl
@[simp] theorem State.after_rng (r : Response) : (s.after r).rng = s.rng := rfl
@[simp] theorem State.after_noise (r : Response) : (s.after r).noise = s.noise := rfl
@[simp] theorem State.after_num (r : Response) : (s.after r).num = s.num := rfl
@[simp] theorem State.after_requests (r : Response) : (s.after r).requests = s.requests.tail := rfl
@[simp] theorem State.after_response (r : Response) : (s.after r).response = some r := rfl

/-! ### `State.complete` -/

@[simp] theorem State.complete_df (r : Result) : (s.complete r).df = s.df := rfl
@[simp] theorem State.complete_ca (r : Result) : (s.complete r).ca = s.ca := rfl
@[simp] theorem State.complete_fc (r : Result) : (s.complete r).fc = s.fc := rfl
@[simp] theorem State.complete_snrDb (r : Result) : (s.complete r).snrDb = s.snrDb := rfl
@[simp] theorem State.complete_fading (r : Result) : (s.complete r).fading = s.fading := rfl
@[simp] theorem State.complete_sps (r : Result) : (s.complete r).sps = s.sps := rfl
@[simp] theorem State.complete_hist (r : Result) : (s.complete r).hist = s.hist := rfl
@[simp] theorem State.complete_corruptCnt (r : Result) : (s.complete r).corruptCnt = s.corruptCnt := rfl
@[simp] theorem State.complete_rng (r : Result) : (s.complete r).rng = s.rng := rfl
@[simp] theorem State.complete_noise (r : Result) : (s.complete r).noise = s.noise := rfl
@[simp] theorem State.complete_num (r : Result) : (s.complete r).num = s.num := rfl
@[simp] theorem State.complete_requests (r : Result) : (s.complete r).requests = s.requests.tail := rfl
@[simp] theorem State.complete_response (r : Result) : (s.complete r).response = some (.ok r) := rfl

/-! ### `State.clear` -/

@[simp] theorem State.clear_df : (s.clear).df = none := rfl
@[simp] theorem State.clear_ca : (s.clear).ca = none := rfl
@[simp] theorem State.clear_fc : (s.clear).fc = none := rfl
@[simp] theorem State.clear_snrDb : (s.clear).snrDb = none := rfl
@[simp] theorem State.clear_fading : (s.clear).fading = none := rfl
@[simp] theorem State.clear_sps : (s.clear).sps = none := rfl
@[simp] theorem State.clear_hist : (s.clear).hist = [] := rfl
@[simp] theorem State.clear_corruptCnt : (s.clear).corruptCnt = 0 := rfl
@[simp] theorem State.clear_rng : (s.clear).rng = none := rfl
@[simp] theorem State.clear_noise : (s.clear).noise = s.noise := rfl
@[simp] theorem State.clear_num : (s.clear).num = s.num := rfl
@[simp] theorem State.clear_requests : (s.clear).requests = s.requests := rfl
@[simp] theorem State.clear_response : (s.clear).response = s.response := rfl

/-! ### `State.drawn` -/

@[simp] theorem State.drawn_df (g : Rng) (n : Nat) : (s.drawn g n).df = s.df := rfl
@[simp] theorem State.drawn_ca (g : Rng) (n : Nat) : (s.drawn g n).ca = s.ca := rfl
@[simp] theorem State.drawn_fc (g : Rng) (n : Nat) : (s.drawn g n).fc = s.fc := rfl
@[simp] theorem State.drawn_snrDb (g : Rng) (n : Nat) : (s.drawn g n).snrDb = s.snrDb := rfl
@[simp] theorem State.drawn_fading (g : Rng) (n : Nat) : (s.drawn g n).fading = s.fading := rfl
@[simp] theorem State.drawn_sps (g : Rng) (n : Nat) : (s.drawn g n).sps = s.sps := rfl
@[simp] theorem State.drawn_hist (g : Rng) (n : Nat) : (s.drawn g n).hist = s.hist := rfl
@[simp] theorem State.drawn_corruptCnt (g : Rng) (n : Nat) : (s.drawn g n).corruptCnt = s.corruptCnt := rfl
@[simp] theorem State.drawn_rng (g : Rng) (n : Nat) : (s.drawn g n).rng = some ⟨g.seed, g.n + n⟩ := rfl
@[simp] theorem State.drawn_noise (g : Rng) (n : Nat) : (s.drawn g n).noise = s.noise := rfl
@[simp] theorem State.drawn_num (g : Rng) (n : Nat) : (s.drawn g n).num = s.num := rfl
@[simp] theorem State.drawn_requests (g : Rng) (n : Nat) : (s.drawn g n).requests = s.requests := rfl
@[simp] theorem State.drawn_response (g : Rng) (n : Nat) : (s.drawn g n).response = s.response := rfl

/-! ### `State.raise` -/

@[simp] theorem State.raise_df (e : Exc) : (s.raise e).df = s.df := by
  cases e <;> rfl
@[simp] theorem State.raise_ca (e : Exc) : (s.raise e).ca = s.ca := by
  cases e <;> rfl
@[simp] theorem State.raise_fc (e : Exc) : (s.raise e).fc = s.fc := by
  cases e <;> rfl
@[simp] theorem State.raise_snrDb (e : Exc) : (s.raise e).snrDb = s.snrDb := by
  cases e <;> rfl
@[simp] theorem State.raise_fading (e : Exc) : (s.raise e).fading = s.fading := by
  cases e <;> rfl
@[simp] theorem State.raise_sps (e : Exc) : (s.raise e).sps = s.sps := by
  cases e <;> rfl
@[simp] theorem State.raise_hist (e : Exc) : (s.raise e).hist = s.hist := by
  cases e <;> rfl
@[simp] theorem State.raise_corruptCnt (e : Exc) : (s.raise e).corruptCnt =
    if e = .checksumFailure then s.corruptCnt + 1 else s.corruptCnt := by cases e <;> rfl
@[simp] theorem State.raise_rng (e : Exc) : (s.raise e).rng = s.rng := by
  cases e <;> rfl
@[simp] theorem State.raise_noise (e : Exc) : (s.raise e).noise = s.noise := by
  cases e <;> rfl
@[simp] theorem State.raise_num (e : Exc) : (s.raise e).num = s.num := by
  cases e <;> rfl
@[simp] theorem State.raise_requests (e : Exc) : (s.raise e).requests = s.requests.tail := by
  cases e <;> rfl
@[simp] theorem State.raise_response (e : Exc) : (s.raise e).response = some (.raised e) := by
  cases e <;> rfl

/-! ### The updates as one another -/

/-- A result ends the operation and changes nothing else. -/
theorem State.complete_eq (r : Result) : s.complete r = s.after (.ok r) := rfl

/-- Responding is ending the operation. -/
theorem State.respond_eq (r : Response) : s.respond r = s.after r := rfl

/-- Every status but CHECKSUM_FAILURE leaves the state. -/
theorem State.raise_eq (e : Exc) (h : e ≠ .checksumFailure) : s.raise e = s.after (.raised e) := by
  cases e <;> first | rfl | exact absurd rfl h

/-- CHECKSUM_FAILURE counts. -/
theorem State.raise_checksum : s.raise .checksumFailure =
    ({ s with corruptCnt := s.corruptCnt + 1 } : State).after (.raised .checksumFailure) := rfl

/-- A request put at the head of the port is the one the next step reads. -/
@[simp] theorem State.withFetchWord_fetch (nbits w : Nat) (r : Request)
    (h : tableRequest nbits w = some r) : fetch (s.withFetchWord nbits w) = some r := by
  simp [State.withFetchWord, h, fetch]

end Sys2Proof.Machine
end

