-- ==== Sys2Proof/Laws/Meanings.lean ====
section
/-!
SUPPORT. The meaning of each instruction as an ending of the operation with an outcome, so that a proof
rewrites `exec` without unfolding the dispatch.
-/

namespace Sys2Proof.Machine

open ExactReal

theorem exec_reset (s : State) :
    exec .reset s =
    commit s (.ok (s.clear, .nothing)) := rfl

theorem exec_cfgWr (reg : BitVec 4) (value : Port Rat) (s : State) :
    exec (.cfgWr reg value) s =
    commit s ((s.cfgWrite reg value).map fun s' => (s', .nothing)) := rfl

theorem exec_cfgRd (reg : BitVec 4) (s : State) :
    exec (.cfgRd reg) s =
    answer s ((s.cfgRead reg).map .value) := rfl

theorem exec_seed (seed : Nat) (s : State) :
    exec (.seed seed) s =
    commit s (.ok ({ s with rng := some ⟨seed, 0⟩ }, .nothing)) := rfl

theorem exec_cntRd (s : State) :
    exec .cntRd s =
    answer s (.ok (.count s.corruptCnt)) := rfl

theorem exec_histLen (s : State) :
    exec .histLen s =
    answer s (.ok (.count s.hist.length)) := rfl

theorem exec_histRd (i : Nat) (s : State) :
    exec (.histRd i) s =
    answer s (match memRead s.hist i with
      | some r => .ok (.record r)
      | none => .error .operandRange) := rfl

theorem exec_hex2bit (str : Chars) (s : State) :
    exec (.hex2bit str) s =
    answer s ((hexToBits str).map .bits) := rfl

theorem exec_bit2hex (v : Bits) (s : State) :
    exec (.bit2hex v) s =
    answer s ((bitsToHex v).map .hex) := rfl

theorem exec_char2six (c : Byte) (s : State) :
    exec (.char2six c) s =
    answer s (.ok (.six (charToSix c))) := rfl

theorem exec_six2char (x : BitVec 6) (s : State) :
    exec (.six2char x) s =
    answer s (.ok (.char (sixToChar x))) := rfl

theorem exec_crcGen (d : BitVec 88) (s : State) :
    exec (.crcGen d) s =
    answer s (.ok (.crc (crc24 d))) := rfl

theorem exec_crcChk (f : BitVec 112) (s : State) :
    exec (.crcChk f) s =
    answer s (.ok (.check (crcPasses f) (crc24 (frameData f)))) := rfl

theorem exec_altEnc (m : Port Rat) (s : State) :
    exec (.altEnc m) s =
    answer s (match finiteValue m with
      | .ok x => (altEncode s.num x).map .altField
      | .error e => .error e) := rfl

theorem exec_altDec (a : BitVec 12) (s : State) :
    exec (.altDec a) s =
    answer s (.ok (.altitude (altQ a) (altN a) (altFeet a) (altMetres a))) := rfl

theorem exec_encId (address : BitVec 24) (category : BitVec 3) (callsign : Chars) (typeCode : BitVec 5) (s : State) :
    exec (.encId address category callsign typeCode) s =
    answer s (build s address (identMe typeCode category (callsignBits callsign))) := rfl

theorem exec_encPos (address : BitVec 24) (surveillance : BitVec 2) (singleAntenna : BitVec 1) (altitudeMeters lat lon : Port Rat) (timeFlag : BitVec 1) (typeCode : BitVec 5) (cprParity : BitVec 1) (s : State) :
    exec (.encPos address surveillance singleAntenna altitudeMeters lat lon timeFlag typeCode cprParity) s =
    answer s (match whenSet s.df, whenSet s.ca with
      | .ok _, .ok _ =>
        match positionMeOf s.num surveillance singleAntenna altitudeMeters lat lon timeFlag typeCode
          cprParity with
        | .ok me => build s address me
        | .error e => .error e
      | .error e, _ => .error e
      | _, .error e => .error e) := rfl

theorem exec_dec (str : Chars) (s : State) :
    exec (.dec str) s =
    commit s (decodeString str s) := rfl

theorem exec_cprNl (lat : Port Rat) (s : State) :
    exec (.cprNl lat) s =
    answer s ((finiteValue lat).map fun x => .nl (calculateNL s.num [] x)) := rfl

theorem exec_cprEnc (lat lon : Port Rat) (parity : BitVec 1) (s : State) :
    exec (.cprEnc lat lon parity) s =
    answer s ((cprEncodePorts s.num lat lon parity).map fun z => .cpr z.1 z.2) := rfl

theorem exec_cprPair (yzE xzE : BitVec 17) (tE : BitVec 1) (yzO xzO : BitVec 17) (tO : BitVec 1) (s : State) :
    exec (.cprPair yzE xzE tE yzO xzO tO) s =
    answer s (.ok (.resolved (resolvePair s.num yzE xzE tE yzO xzO tO))) := rfl

theorem exec_cprResolve (address : BitVec 24) (fp : BitVec 1) (yz xz : BitVec 17) (t : BitVec 1) (s : State) :
    exec (.cprResolve address fp yz xz t) s =
    answer s (.ok (.resolved (resolveIn s.num s.hist address fp yz xz t))) := rfl

theorem exec_mod (v : Bits) (s : State) :
    exec (.mod v) s =
    answer s (match whenSet s.fc, whenSet s.sps with
      | .ok fc, .ok sps =>
        if Config.nbitsMax < v.length then .error .operandRange
        else .ok (.signal (modulate fc sps.count v))
      | .error e, _ => .error e
      | _, .error e => .error e) := rfl

theorem exec_chan (signal : List (Port ExactReal)) (s : State) :
    exec (.chan signal) s =
    commit s (match whenSet s.snrDb, whenSet s.fading, whenSet s.rng with
      | .ok snr, .ok fam, .ok rng =>
        match samples signal with
        | .ok x => chanWith s snr fam rng x
        | .error e => .error e
      | .error e, _, _ => .error e
      | _, .error e, _ => .error e
      | _, _, .error e => .error e) := rfl

theorem exec_demod (signal : List (Port ExactReal)) (s : State) :
    exec (.demod signal) s =
    answer s (match whenSet s.fc, whenSet s.sps with
      | .ok fc, .ok sps =>
        match samples signal with
        | .ok r =>
          if r.length % sps.count ≠ 0 ∨ Config.nbitsMax < r.length / sps.count then
            .error .operandRange
          else .ok (.bits (demodulate s.num fc sps.count r [r] [r]))
        | .error e => .error e
      | .error e, _ => .error e
      | _, .error e => .error e) := rfl

theorem exec_xmit (hexIn : Chars) (s : State) :
    exec (.xmit hexIn) s =
    commit s (match frameString hexIn with
      | .error e => .error e
      | .ok v =>
        match whenSet s.fc, whenSet s.sps, whenSet s.snrDb, whenSet s.fading, whenSet s.rng with
        | .ok fc, .ok sps, .ok snr, .ok fam, .ok rng => xmitWith s fc sps snr fam rng v
        | .error e, _, _, _, _ => .error e
        | _, .error e, _, _, _ => .error e
        | _, _, .error e, _, _ => .error e
        | _, _, _, .error e, _ => .error e
        | _, _, _, _, .error e => .error e) := rfl

theorem exec_frameTc0Other (f : BitVec 112) (s : State) :
    exec (.frameTc0Other f) s =
    commit s (receiveFrame .other f s) := rfl

theorem exec_frameTc1Ident (f : BitVec 112) (s : State) :
    exec (.frameTc1Ident f) s =
    commit s (receiveFrame .ident f s) := rfl

theorem exec_frameTc2Ident (f : BitVec 112) (s : State) :
    exec (.frameTc2Ident f) s =
    commit s (receiveFrame .ident f s) := rfl

theorem exec_frameTc3Ident (f : BitVec 112) (s : State) :
    exec (.frameTc3Ident f) s =
    commit s (receiveFrame .ident f s) := rfl

theorem exec_frameTc4Ident (f : BitVec 112) (s : State) :
    exec (.frameTc4Ident f) s =
    commit s (receiveFrame .ident f s) := rfl

theorem exec_frameTc5Other (f : BitVec 112) (s : State) :
    exec (.frameTc5Other f) s =
    commit s (receiveFrame .other f s) := rfl

theorem exec_frameTc6Other (f : BitVec 112) (s : State) :
    exec (.frameTc6Other f) s =
    commit s (receiveFrame .other f s) := rfl

theorem exec_frameTc7Other (f : BitVec 112) (s : State) :
    exec (.frameTc7Other f) s =
    commit s (receiveFrame .other f s) := rfl

theorem exec_frameTc8Other (f : BitVec 112) (s : State) :
    exec (.frameTc8Other f) s =
    commit s (receiveFrame .other f s) := rfl

theorem exec_frameTc9Position (f : BitVec 112) (s : State) :
    exec (.frameTc9Position f) s =
    commit s (receiveFrame (.position .barometric) f s) := rfl

theorem exec_frameTc10Position (f : BitVec 112) (s : State) :
    exec (.frameTc10Position f) s =
    commit s (receiveFrame (.position .barometric) f s) := rfl

theorem exec_frameTc11Position (f : BitVec 112) (s : State) :
    exec (.frameTc11Position f) s =
    commit s (receiveFrame (.position .barometric) f s) := rfl

theorem exec_frameTc12Position (f : BitVec 112) (s : State) :
    exec (.frameTc12Position f) s =
    commit s (receiveFrame (.position .barometric) f s) := rfl

theorem exec_frameTc13Position (f : BitVec 112) (s : State) :
    exec (.frameTc13Position f) s =
    commit s (receiveFrame (.position .barometric) f s) := rfl

theorem exec_frameTc14Position (f : BitVec 112) (s : State) :
    exec (.frameTc14Position f) s =
    commit s (receiveFrame (.position .barometric) f s) := rfl

theorem exec_frameTc15Position (f : BitVec 112) (s : State) :
    exec (.frameTc15Position f) s =
    commit s (receiveFrame (.position .barometric) f s) := rfl

theorem exec_frameTc16Position (f : BitVec 112) (s : State) :
    exec (.frameTc16Position f) s =
    commit s (receiveFrame (.position .barometric) f s) := rfl

theorem exec_frameTc17Position (f : BitVec 112) (s : State) :
    exec (.frameTc17Position f) s =
    commit s (receiveFrame (.position .barometric) f s) := rfl

theorem exec_frameTc18Position (f : BitVec 112) (s : State) :
    exec (.frameTc18Position f) s =
    commit s (receiveFrame (.position .barometric) f s) := rfl

theorem exec_frameTc19Other (f : BitVec 112) (s : State) :
    exec (.frameTc19Other f) s =
    commit s (receiveFrame .other f s) := rfl

theorem exec_frameTc20Position (f : BitVec 112) (s : State) :
    exec (.frameTc20Position f) s =
    commit s (receiveFrame (.position .gnss) f s) := rfl

theorem exec_frameTc21Position (f : BitVec 112) (s : State) :
    exec (.frameTc21Position f) s =
    commit s (receiveFrame (.position .gnss) f s) := rfl

theorem exec_frameTc22Position (f : BitVec 112) (s : State) :
    exec (.frameTc22Position f) s =
    commit s (receiveFrame (.position .gnss) f s) := rfl

theorem exec_frameTc23Other (f : BitVec 112) (s : State) :
    exec (.frameTc23Other f) s =
    commit s (receiveFrame .other f s) := rfl

theorem exec_frameTc24Other (f : BitVec 112) (s : State) :
    exec (.frameTc24Other f) s =
    commit s (receiveFrame .other f s) := rfl

theorem exec_frameTc25Other (f : BitVec 112) (s : State) :
    exec (.frameTc25Other f) s =
    commit s (receiveFrame .other f s) := rfl

theorem exec_frameTc26Other (f : BitVec 112) (s : State) :
    exec (.frameTc26Other f) s =
    commit s (receiveFrame .other f s) := rfl

theorem exec_frameTc27Other (f : BitVec 112) (s : State) :
    exec (.frameTc27Other f) s =
    commit s (receiveFrame .other f s) := rfl

theorem exec_frameTc28Other (f : BitVec 112) (s : State) :
    exec (.frameTc28Other f) s =
    commit s (receiveFrame .other f s) := rfl

theorem exec_frameTc29Other (f : BitVec 112) (s : State) :
    exec (.frameTc29Other f) s =
    commit s (receiveFrame .other f s) := rfl

theorem exec_frameTc30Other (f : BitVec 112) (s : State) :
    exec (.frameTc30Other f) s =
    commit s (receiveFrame .other f s) := rfl

theorem exec_frameTc31Other (f : BitVec 112) (s : State) :
    exec (.frameTc31Other f) s =
    commit s (receiveFrame .other f s) := rfl

end Sys2Proof.Machine
end

