-- ==== Sys2Proof/Laws/Numerics.lean ====
section
/-!
SUPPORT. The floor and the comparison of the numerics record: what they can answer, said once, and that
the reference's are the exact ones.
-/

namespace Sys2Proof

theorem ratAbs_eq (x : Rat) : ratAbs x = |x| := by
  unfold ratAbs
  split
  · rw [abs_of_neg ‹_›]
  · rw [abs_of_nonneg (not_lt.mp ‹_›)]

theorem roundingDistance_nonneg (x : Rat) : 0 ≤ roundingDistance x := by
  unfold roundingDistance
  rw [ratAbs_eq]
  positivity

namespace Numerics

@[simp] theorem slack_exact (d : Rat) : Numerics.exact.slack d = 0 := rfl

@[simp] theorem slack_rounded (d : Rat) : Numerics.rounded.slack d = d := rfl

theorem slack_nonneg (num : Numerics) {d : Rat} (h : 0 ≤ d) : 0 ≤ num.slack d := by
  cases num
  · exact le_refl _
  · exact h

/-- The reference's floor is the floor. -/
@[simp] theorem floorOf_exact (p : Place) (l : List Rat) (x d : Rat) :
    Numerics.exact.floorOf p l x d = ⌊x⌋ := rfl

/-- A build's floor is the floor of a number within rounding distance. -/
theorem floorOf_isFloor (num : Numerics) (p : Place) (l : List Rat) {x d : Rat} (h : 0 ≤ d) :
    num.IsFloor x d (num.floorOf p l x d) := by
  cases num with
  | exact => simp [IsFloor]
  | rounded =>
    show ⌊x - d⌋ ≤ _ ∧ _ ≤ ⌊x + d⌋
    simp only [floorOf]
    split
    · exact ⟨Int.floor_le_floor (by linarith), Int.floor_le_floor (by linarith)⟩
    · exact ⟨le_max_left _ _, max_le (Int.floor_le_floor (by linarith)) (min_le_left _ _)⟩

/-- The reference's floors are the floor alone. -/
theorem isFloor_exact {x d : Rat} {n : Int} : Numerics.exact.IsFloor x d n ↔ n = ⌊x⌋ := by
  simp only [IsFloor, slack_exact, sub_zero, add_zero]
  omega

/-- A floor is within one, and rounding distance, of its number. -/
theorem IsFloor.bounds {num : Numerics} {x d : Rat} {n : Int} (h : num.IsFloor x d n) :
    (n : Rat) ≤ x + num.slack d ∧ x - num.slack d < n + 1 := by
  obtain ⟨h1, h2⟩ := h
  refine ⟨Int.le_floor.mp h2, ?_⟩
  have := Int.floor_lt.mp (Int.lt_add_one_iff.mpr h1)
  exact_mod_cast this

/-- The reference's comparison is the comparison. -/
@[simp] theorem atLeast_exact (p : Place) (l : List Rat) (x b d : Rat) :
    Numerics.exact.atLeast p l x b d = decide (b ≤ x) := rfl

/-- A build's comparison is right beyond rounding distance of the bound. -/
theorem atLeast_reaches (num : Numerics) (p : Place) (l : List Rat) {x b d : Rat} (h : 0 ≤ d) :
    num.Reaches x b d (num.atLeast p l x b d = true) := by
  cases num with
  | exact =>
    constructor
    · intro hx; simpa using hx
    · intro hx; simpa using hx
  | rounded =>
    constructor
    · intro (hx : b + d ≤ x)
      simp [atLeast, hx]
    · intro (hx : x < b - d)
      have h1 : ¬ b + d ≤ x := by linarith
      simp [atLeast, h1, hx.le]

/-- A bound reached in the arithmetic of the build is reached, up to rounding distance. -/
theorem Reaches.bounds {num : Numerics} {x b d : Rat} {p : Prop} (h : num.Reaches x b d p) :
    (p → b - num.slack d ≤ x) ∧ (¬ p → x < b + num.slack d) :=
  ⟨fun hp => not_lt.mp fun hx => h.2 hx hp, fun hp => not_le.mp fun hx => hp (h.1 hx)⟩

/-- In the reference the comparison is decided by the numbers. -/
theorem reaches_exact {x b d : Rat} {p : Prop} : Numerics.exact.Reaches x b d p ↔ (p ↔ b ≤ x) := by
  simp only [Reaches, slack_exact, add_zero, sub_zero]
  constructor
  · rintro ⟨h1, h2⟩
    exact ⟨fun hp => not_lt.mp fun hx => h2 hx hp, h1⟩
  · intro h
    exact ⟨h.mpr, fun hx hp => absurd (h.mp hp) (not_le.mpr hx)⟩

end Numerics

end Sys2Proof
end

