-- ==== Sys2Proof/Laws/Altitude.lean ====
section
/-!
SUPPORT. The altitude field: what ALT.ENC accepts and stores, and what the field holds.
-/

namespace Sys2Proof.Machine

theorem altField_slices (q : BitVec 1) (n : BitVec 11) :
    (altField q n).extractLsb' 5 7 = n.extractLsb' 4 7 ∧
      (altField q n).extractLsb' 0 4 = n.extractLsb' 0 4 ∧ (altField q n).extractLsb' 4 1 = q := by
  unfold altField
  refine ⟨?_, ?_, ?_⟩
  · rw [BitVec.extractLsb'_append_eq_of_le (by omega), BitVec.extractLsb'_append_eq_of_le (by omega)]
    exact BitVec.extractLsb'_eq_self
  · rw [BitVec.extractLsb'_append_eq_of_add_le (by omega)]
    exact BitVec.extractLsb'_eq_self
  · rw [BitVec.extractLsb'_append_eq_of_le (by omega),
      BitVec.extractLsb'_append_eq_of_add_le (by omega)]
    exact BitVec.extractLsb'_eq_self

/-- A field's Q bit is the one spliced in. -/
@[simp] theorem altQ_altField (q : BitVec 1) (n : BitVec 11) : altQ (altField q n) = q :=
  (altField_slices q n).2.2

/-- A field's magnitude is the one it was built from. -/
@[simp] theorem altN_altField (q : BitVec 1) (n : BitVec 11) : altN (altField q n) = n := by
  unfold altN
  rw [(altField_slices q n).1, (altField_slices q n).2.1,
    BitVec.extractLsb'_append_extractLsb'_eq_extractLsb' (by rfl)]
  exact BitVec.extractLsb'_eq_self

theorem altN_toNat (a : BitVec 12) :
    (altN a).toNat = (a.extractLsb' 5 7).toNat * 16 + (a.extractLsb' 0 4).toNat := by
  unfold altN
  rw [BitVec.toNat_append, Nat.shiftLeft_eq, ← Nat.shiftLeft_eq,
    ← Nat.shiftLeft_add_eq_or_of_lt (BitVec.isLt _), Nat.shiftLeft_eq]

/-- The rounding distance of the magnitude, in steps. -/
theorem altSlack_eq (num : Numerics) (m : Rat) :
    num.altSlack m = 100 * num.slack (roundingDistance (|feet m| + 1000)) := by
  cases num
  · simp [Numerics.altSlack]
  · rfl

/-- The step is 100 where the Q bit is 0, else 25. -/
theorem altStep_eq (q : BitVec 1) : (altStep q : Rat) = if q = 0 then 100 else 25 := by
  rcases BitVec.eq_zero_or_eq_one q with rfl | rfl <;> simp [altStep]

/-- The Q bit is 0 from 50000 feet up, in the arithmetic of the build. -/
theorem altQOf_reaches (num : Numerics) (ft : Rat) :
    num.Reaches ft 50000 (roundingDistance ft) (altQOf num ft = 0) := by
  have h := num.atLeast_reaches .altitudeStep [ft] (x := ft) (b := 50000) (roundingDistance_nonneg ft)
  unfold altQOf
  split
  · rename_i hc; simpa [hc] using h
  · rename_i hc; simpa [hc] using h

/-- The magnitude is the floor of the steps from -1000 feet, in the arithmetic of the build. -/
theorem altMagnitude_isFloor (num : Numerics) (ft : Rat) :
    num.IsFloor ((ft + 1000) / (if altQOf num ft = 0 then 100 else 25))
      (roundingDistance (|ft| + 1000)) (altMagnitude num ft) := by
  rw [← altStep_eq, ← ratAbs_eq]
  exact num.floorOf_isFloor _ _ (roundingDistance_nonneg _)

/-- What ALT.ENC can do: store the magnitude, which then fits its 11 bits, or refuse. -/
theorem altEncode_cases (num : Numerics) (m : Rat) :
    (∃ n : BitVec 11, altEncode num m = .ok (altField (altQOf num (feet m)) n) ∧
      (n.toNat : Int) = altMagnitude num (feet m)) ∨
    (altEncode num m = .error .operandRange ∧
      (altMagnitude num (feet m) < 0 ∨ 2047 < altMagnitude num (feet m))) := by
  unfold altEncode
  simp only
  set z := altMagnitude num (feet m)
  split
  · rename_i h; exact .inr ⟨rfl, h⟩
  · refine .inl ⟨BitVec.ofInt 11 z, rfl, ?_⟩
    rw [BitVec.toNat_ofInt]
    have : (z % ((2 ^ 11 : Nat) : Int)).toNat = z % 2048 := by
      rw [Int.toNat_of_nonneg (Int.emod_nonneg _ (by norm_num))]; norm_num
    rw [this]; omega

theorem altEncode_ok {num : Numerics} {m : Rat} {a : BitVec 12} (h : altEncode num m = .ok a) :
    ∃ n : BitVec 11, a = altField (altQOf num (feet m)) n ∧
      (n.toNat : Int) = altMagnitude num (feet m) := by
  rcases altEncode_cases num m with ⟨n, hn, hz⟩ | ⟨hn, _⟩ <;> rw [hn] at h <;> cases h
  exact ⟨n, rfl, hz⟩

/-- ALT.ENC of an altitude in range stores its magnitude. -/
theorem altEncode_accepts {num : Numerics} {m : Rat} (h : altInRange num m) :
    ∃ n : BitVec 11, altEncode num m = .ok (altField (altQOf num (feet m)) n) ∧
      (n.toNat : Int) = altMagnitude num (feet m) := by
  rcases altEncode_cases num m with h' | ⟨_, hz⟩
  · exact h'
  exfalso
  obtain ⟨h1, h2⟩ : -1000 + num.altSlack m ≤ feet m ∧ feet m < 203800 - num.altSlack m := h
  have hf := altMagnitude_isFloor num (feet m)
  have hq := (altQOf_reaches num (feet m)).bounds.2
  rw [altSlack_eq] at h1 h2
  have hd := num.slack_nonneg (roundingDistance_nonneg (|feet m| + 1000))
  have hs : num.slack (roundingDistance (feet m)) ≤ 1 := by
    cases num
    · simp
    · have hle : |feet m| ≤ 203800 := by
        rw [abs_le]; constructor <;> linarith
      simp only [Numerics.slack_rounded, roundingDistance, ratAbs_eq]
      norm_num
      linarith
  have hs' : num.slack (roundingDistance (|feet m| + 1000)) ≤ 1 := by
    cases num
    · simp
    · have hle : |feet m| ≤ 203800 := by
        rw [abs_le]; constructor <;> linarith
      simp only [Numerics.slack_rounded, roundingDistance, ratAbs_eq]
      rw [abs_of_nonneg (by positivity)]
      norm_num
      linarith
  set d := num.slack (roundingDistance (|feet m| + 1000))
  obtain ⟨hlo, hhi⟩ := hf
  rcases hz with hz | hz
  · have : (0 : Int) ≤ altMagnitude num (feet m) := by
      refine le_trans ?_ hlo
      rw [Int.le_floor]
      push_cast
      rw [sub_nonneg, le_div_iff₀ (by split <;> norm_num)]
      split <;> linarith
    omega
  · have : altMagnitude num (feet m) < 2048 := by
      refine lt_of_le_of_lt hhi ?_
      rw [Int.floor_lt]
      push_cast
      rw [← lt_sub_iff_add_lt, div_lt_iff₀ (by split <;> norm_num)]
      split
      · linarith
      · rename_i hc
        have := hq hc
        linarith
    omega

/-- ALT.ENC of a finite altitude out of range is refused. -/
theorem altEncode_range {num : Numerics} {m : Rat}
    (h : feet m < -1000 - num.altSlack m ∨ 203800 + num.altSlack m ≤ feet m) :
    altEncode num m = .error .operandRange := by
  rcases altEncode_cases num m with ⟨n, _, hn⟩ | ⟨h', _⟩
  · exfalso
    have hlt : altMagnitude num (feet m) < 2048 := by rw [← hn]; exact_mod_cast n.isLt
    have h0 : 0 ≤ altMagnitude num (feet m) := by rw [← hn]; positivity
    obtain ⟨hlo, hhi⟩ := altMagnitude_isFloor num (feet m)
    rw [altSlack_eq] at h
    have hd := num.slack_nonneg (roundingDistance_nonneg (|feet m| + 1000))
    rcases h with h | h
    · have : altMagnitude num (feet m) < 0 := by
        refine lt_of_le_of_lt hhi ?_
        rw [Int.floor_lt]
        push_cast
        rw [← lt_sub_iff_add_lt, div_lt_iff₀ (by split <;> norm_num)]
        split <;> linarith
      omega
    · have hq : altQOf num (feet m) = 0 := by
        refine (altQOf_reaches num (feet m)).1 ?_
        have hp : 0 ≤ feet m := by linarith
        cases num
        · simp; linarith
        · simp only [Numerics.slack_rounded, roundingDistance, ratAbs_eq, abs_of_nonneg hp] at h ⊢
          rw [abs_of_nonneg (by positivity)] at h
          norm_num at h ⊢
          linarith
      rw [if_pos hq] at hlo
      have : (2048 : Int) ≤ altMagnitude num (feet m) := by
        refine le_trans ?_ hlo
        rw [Int.le_floor]
        push_cast
        rw [le_sub_iff_add_le, le_div_iff₀ (by norm_num)]
        linarith
      omega
  · exact h'

/-- What ALT.ENC stores decodes to the greatest step not above the altitude, up to rounding distance. -/
theorem altFeet_altField (num : Numerics) (m : Rat) (n : BitVec 11)
    (hn : (n.toNat : Int) = altMagnitude num (feet m)) :
    (altFeet (altField (altQOf num (feet m)) n) : Rat) ≤ feet m + num.altSlack m ∧
      feet m - (if altQOf num (feet m) = 0 then 100 else 25) - num.altSlack m <
        (altFeet (altField (altQOf num (feet m)) n) : Rat) := by
  obtain ⟨h1, h2⟩ := (altMagnitude_isFloor num (feet m)).bounds
  have hd := num.slack_nonneg (roundingDistance_nonneg (|feet m| + 1000))
  rw [← hn, Int.cast_natCast] at h1 h2
  set d := num.slack (roundingDistance (|feet m| + 1000)) with hd'
  have hval : (altFeet (altField (altQOf num (feet m)) n) : Rat) =
      n.toNat * (if altQOf num (feet m) = 0 then 100 else 25) - 1000 := by
    unfold altFeet
    rw [altN_altField, altQ_altField, ← altStep_eq]
    norm_cast
  rw [altSlack_eq, ← hd', hval]
  have hpos : (0 : Rat) < if altQOf num (feet m) = 0 then 100 else 25 := by split <;> norm_num
  have hle : (if altQOf num (feet m) = 0 then (100 : Rat) else 25) ≤ 100 := by split <;> norm_num
  generalize (if altQOf num (feet m) = 0 then (100 : Rat) else 25) = st at *
  rw [← sub_le_iff_le_add, le_div_iff₀ hpos] at h1
  rw [sub_lt_iff_lt_add, div_lt_iff₀ hpos] at h2
  constructor <;> nlinarith

end Sys2Proof.Machine
end

