-- ==== Sys2Proof/Laws/Cpr.lean ====
section
/-!
SUPPORT. The CPR unit: the zone count, the rounding of the encoder and the raw fractions of the
resolver.
-/

namespace Sys2Proof.Machine

/-! ### The zone count -/

/-- The zone count depends on the size of the latitude only. -/
theorem calculateNL_neg (num : Numerics) (l : List Rat) (lat : Rat) :
    calculateNL num l (-lat) = calculateNL num l lat := by
  simp only [calculateNL, ratAbs_eq, abs_neg, neg_eq_zero]

/-- A zone count from a table is one of the table's entries, or the last. -/
theorem zoneCount_mem (last : Nat) (o : List Rat) (table : List (Nat × Nat)) (x : Rat) :
    zoneCount last o table x = last ∨ ∃ e ∈ table, zoneCount last o table x = e.1 := by
  induction table with
  | nil => exact .inl rfl
  | cons e es ih =>
    unfold zoneCount
    split
    · exact .inr ⟨e, by simp, rfl⟩
    · rcases ih with h | ⟨e', he, h⟩
      · exact .inl h
      · exact .inr ⟨e', by simp [he], h⟩

theorem transitions_bounds : ∀ e ∈ transitions, 3 ≤ e.1 ∧ e.1 ≤ 59 := by decide

theorem polarCount_bounds (num : Numerics) (o : List Rat) (x : Rat) :
    1 ≤ polarCount num o x ∧ polarCount num o x ≤ 2 := by
  unfold polarCount
  split <;> split <;> omega

/-- The zone count is rounded up to 60 within the band around 0 of a build that rounds alone. -/
theorem equatorRoundsUp_far {num : Numerics} {o : List Rat} {x : Rat} (h : num.slack equatorBand ≤ x) :
    equatorRoundsUp num o x = false := by
  cases num
  · rfl
  · have h' : ¬ x < equatorBand := not_lt.mpr h
    simp [equatorRoundsUp, h']

/-- Away from 0 the zone count is the table's. -/
theorem calculateNL_far {num : Numerics} {l : List Rat} {lat : Rat} (h : num.slack equatorBand ≤ |lat|) :
    calculateNL num l lat = if lat = 0 then 59
      else zoneCount (polarCount num (num.origin l) |lat|) (num.origin l) transitions |lat| := by
  rw [calculateNL, ratAbs_eq, equatorRoundsUp_far h, if_neg (by simp)]

/-- Where the count is not rounded up to 60, it is at most 59. -/
theorem calculateNL_cases (num : Numerics) (l : List Rat) (lat : Rat) :
    (equatorRoundsUp num (num.origin l) |lat| = true ∧ calculateNL num l lat = 60) ∨
      1 ≤ calculateNL num l lat ∧ calculateNL num l lat ≤ 59 := by
  rw [calculateNL, ratAbs_eq]
  split
  · rename_i h
    exact .inl ⟨h, rfl⟩
  right
  split
  · omega
  have hp := polarCount_bounds num (num.origin l) |lat|
  rcases zoneCount_mem (polarCount num (num.origin l) |lat|) (num.origin l) transitions |lat|
    with h | ⟨e, he, h⟩
  · omega
  · have := transitions_bounds e he
    omega

theorem calculateNL_bounds (num : Numerics) (l : List Rat) (lat : Rat) :
    1 ≤ calculateNL num l lat ∧ calculateNL num l lat ≤ 60 := by
  rcases calculateNL_cases num l lat with ⟨_, h⟩ | h <;> omega

/-- At or below a transition, less its band, a latitude is in the zone. -/
theorem withinZone_below {n : Nat} {o : List Rat} {l x : Rat} (h : x ≤ l - 1 / 10 ^ 9) :
    withinZone n o l x = true := by
  have h' : x ≤ l - transitionBand := h
  simp [withinZone, h']

/-- Above a transition and its band, a latitude is not in the zone. -/
theorem withinZone_above {n : Nat} {o : List Rat} {l x : Rat} (h : l + 1 / 10 ^ 9 ≤ x) :
    withinZone n o l x = false := by
  have h' : l + transitionBand ≤ x := h
  have hband : (0 : Rat) < transitionBand := by norm_num [transitionBand]
  have h'' : ¬ x ≤ l - transitionBand := by linarith
  simp [withinZone, h', h'']

theorem zoneCount_within {last n t : Nat} {o : List Rat} {rest : List (Nat × Nat)} {x : Rat}
    (h : x ≤ (t : Rat) / 10 ^ 10 - 1 / 10 ^ 9) : zoneCount last o ((n, t) :: rest) x = n := by
  rw [zoneCount, withinZone_below h, if_pos rfl]

theorem zoneCount_beyond {last n t : Nat} {o : List Rat} {rest : List (Nat × Nat)} {x : Rat}
    (h : (t : Rat) / 10 ^ 10 + 1 / 10 ^ 9 ≤ x) :
    zoneCount last o ((n, t) :: rest) x = zoneCount last o rest x := by
  rw [zoneCount, withinZone_above h, if_neg (by simp)]

/-- Above the transitions of a whole prefix, the rest of the table decides. -/
theorem zoneCount_skip {last : Nat} {o : List Rat} {table rest : List (Nat × Nat)} {x : Rat}
    (h : ∀ e ∈ table, (e.2 : Rat) / 10 ^ 10 + 1 / 10 ^ 9 ≤ x) :
    zoneCount last o (table ++ rest) x = zoneCount last o rest x := by
  induction table with
  | nil => rfl
  | cons e es ih =>
    rw [List.cons_append, zoneCount_beyond (h e (by simp))]
    exact ih fun e' he => h e' (by simp [he])

/-- Up to 87 degrees, less the band in a build that rounds, two zones. -/
theorem polarCount_below {num : Numerics} {o : List Rat} {x : Rat} (h : x ≤ 87 - num.slack (1 / 10 ^ 9)) :
    polarCount num o x = 2 := by
  cases num
  · have h' : x ≤ 87 := by simpa using h
    simp [polarCount, h']
  · simp [polarCount, withinZone_below (n := 2) h]

/-- Beyond 87 degrees, and the band in a build that rounds, one zone. -/
theorem polarCount_above {num : Numerics} {o : List Rat} {x : Rat}
    (h : 87 + num.slack (1 / 10 ^ 9) ≤ x) (h' : 87 < x) :
    polarCount num o x = 1 := by
  cases num
  · simp [polarCount, not_le.mpr h']
  · simp [polarCount, withinZone_above (n := 2) h]

/-! ### Rounding in the encoder -/

theorem fmod_eq (a b : Rat) : fmod a b = a - b * ⌊a / b⌋ := rfl

/-- `fmod(a, b)` over `b` is the fractional part of `a / b`. -/
theorem fmod_div {a b : Rat} (hb : 0 < b) : fmod a b / b = Int.fract (a / b) := by
  rw [fmod_eq, Int.fract, sub_div, mul_div_cancel_left₀ _ hb.ne']

/-- A CPR integer is the rounded fraction, modulo `2^17`, its floor that of the arithmetic of the
build. -/
theorem cprInteger_isFloor (num : Numerics) (p : Place) (l : List Rat) (x d : Rat) : ∃ z : Int,
    num.IsFloor (fmod x d / d * 131072 + 1 / 2) (roundingDistance (131072 * (|x / d| + 1))) z ∧
      ((cprInteger num p l x d).toNat : Int) = z % 131072 := by
  refine ⟨_, num.floorOf_isFloor p l (roundingDistance_nonneg _), ?_⟩
  unfold cprInteger
  rw [BitVec.toNat_ofInt, Int.toNat_of_nonneg (Int.emod_nonneg _ (by norm_num)), ratAbs_eq]
  norm_num

/-- A CPR integer as a fraction: the position within the zone to half a unit, a whole zone fewer where
the rounding wrapped; in the reference arithmetic. -/
theorem rawFraction_cprInteger {x d : Rat} (p : Place) (l : List Rat) (hd : 0 < d) : ∃ (w : Int) (e : Rat),
    rawFraction (cprInteger .exact p l x d) = x / d - ((⌊x / d⌋ + w : Int) : Rat) + e ∧
      |e| ≤ 1 / 262144 := by
  set r := ⌊fmod x d / d * 131072 + 1 / 2⌋ with hr
  have h1 := Int.floor_le (fmod x d / d * 131072 + 1 / 2)
  have h2 := Int.lt_floor_add_one (fmod x d / d * 131072 + 1 / 2)
  rw [← hr] at h1 h2
  have hz : ((cprInteger .exact p l x d).toNat : Rat) = (r : Rat) - 131072 * ((r / 131072 : Int) : Rat) := by
    obtain ⟨z, hz, h⟩ := cprInteger_isFloor .exact p l x d
    rw [Numerics.isFloor_exact.mp hz, ← hr] at h
    have h' := Int.mul_ediv_add_emod r 131072
    rw [← h] at h'
    have := congrArg (fun i : Int => (i : Rat)) h'
    push_cast at this
    linarith
  rw [fmod_div hd] at h1 h2
  have hf : Int.fract (x / d) = x / d - (⌊x / d⌋ : Rat) := rfl
  refine ⟨r / 131072, (r : Rat) / 131072 - Int.fract (x / d), ?_, ?_⟩
  · unfold rawFraction
    rw [hz, hf]; push_cast; ring
  · rw [abs_le]
    constructor
    · rw [neg_le_sub_iff_le_add]; linarith
    · linarith

/-- A raw fraction lies in `[0, 1)`. -/
theorem rawFraction_range (z : BitVec 17) : 0 ≤ rawFraction z ∧ rawFraction z < 1 := by
  have h : ((z.toNat : Nat) : Rat) < 131072 := by exact_mod_cast z.isLt
  unfold rawFraction
  exact ⟨by positivity, by rw [div_lt_one (by norm_num)]; exact h⟩

/-- A zone of `n` parts at index `m` and a fraction lies within the full turn. -/
theorem zone_range (n : Nat) (hn : 0 < n) (m : Int) (z : BitVec 17) :
    0 ≤ (((m % (n : Int) : Int) : Rat) + rawFraction z) / n ∧
      (((m % (n : Int) : Int) : Rat) + rawFraction z) / n < 1 := by
  have hnz : (0 : Int) < n := by exact_mod_cast hn
  have h1 := Int.emod_nonneg m hnz.ne'
  have h2 := Int.emod_lt_of_pos m hnz
  have hz := rawFraction_range z
  have hnq : (0 : Rat) < n := by exact_mod_cast hn
  have h1' : (0 : Rat) ≤ ((m % (n : Int) : Int) : Rat) := by exact_mod_cast h1
  have h2' : ((m % (n : Int) : Int) : Rat) ≤ n - 1 := by
    have : m % (n : Int) ≤ n - 1 := by omega
    exact_mod_cast this
  exact ⟨div_nonneg (by linarith) hnq.le, by rw [div_lt_one hnq]; linarith⟩

theorem dLat_pos (p : BitVec 1) : 0 < dLat p := by
  have : ((p.toNat : Nat) : Rat) < 2 := by exact_mod_cast p.isLt
  unfold dLat
  exact div_pos (by norm_num) (by linarith)

theorem lonZones_eq (num : Numerics) (lat : Rat) (p : BitVec 1) :
    lonZones num lat p = calculateNL num [lat, p.toNat] (lat + (p.toNat : Rat)) :=
  max_eq_left (calculateNL_bounds num _ _).1

theorem dLonEnc_eq (num : Numerics) (lat : Rat) (p : BitVec 1) :
    dLonEnc num lat p = 360 / (calculateNL num [lat, p.toNat] (lat + (p.toNat : Rat)) : Rat) := by
  rw [dLonEnc, lonZones_eq]

theorem dLonEnc_pos (num : Numerics) (lat : Rat) (p : BitVec 1) : 0 < dLonEnc num lat p := by
  rw [dLonEnc_eq]
  have : (0 : Rat) < (calculateNL num [lat, p.toNat] (lat + (p.toNat : Rat)) : Rat) := by
    exact_mod_cast (calculateNL_bounds num _ _).1
  exact div_pos (by norm_num) this

/-! ### Resolving -/

/-- The subtraction of a turn: whether the bound is reached is the arithmetic of the build's to say. -/
theorem normalize_cases (num : Numerics) (p : Place) (l : List Rat) (limit x : Rat) : ∃ b : Bool,
    num.Reaches x limit (roundingDistance 360) (b = true) ∧
      normalize num p l limit x = if b then x - 360 else x :=
  ⟨_, num.atLeast_reaches p l (roundingDistance_nonneg _), rfl⟩

theorem zoneIndex_isFloor (num : Numerics) (yzE yzO : BitVec 17) :
    num.IsFloor (59 * rawFraction yzE - 60 * rawFraction yzO + 1 / 2) (roundingDistance 120)
      (zoneIndex num yzE yzO) := num.floorOf_isFloor _ _ (roundingDistance_nonneg _)

theorem lonIndex_isFloor (num : Numerics) (nl : Nat) (xzE xzO : BitVec 17) :
    num.IsFloor (rawFraction xzE * ((nl : Rat) - 1) - rawFraction xzO * nl + 1 / 2)
      (roundingDistance 120) (lonIndex num nl xzE xzO) :=
  num.floorOf_isFloor _ _ (roundingDistance_nonneg _)

end Sys2Proof.Machine
end

