-- ==== Sys2Proof/Laws/Crc.lean ====
section
/-!
SUPPORT. The CRC-24 division: its step is additive, it clears the positions it passes, and bit vectors
as polynomials over GF(2).
-/

namespace Sys2Proof.Machine

/-! ### The division loop -/

/-- A division step is additive. -/
theorem crcStep_xor (a b : BitVec 112) (i : Nat) :
    crcStep (a ^^^ b) i = crcStep a i ^^^ crcStep b i := by
  unfold crcStep
  rw [BitVec.getLsbD_xor]
  cases a.getLsbD (111 - i) <;> cases b.getLsbD (111 - i) <;> simp
  · rw [BitVec.xor_assoc]
  · rw [BitVec.xor_assoc, BitVec.xor_assoc, BitVec.xor_comm b]
  · rw [show (a ^^^ generator.setWidth 112 <<< (87 - i)) ^^^ (b ^^^ generator.setWidth 112 <<< (87 - i)) =
      (a ^^^ b) ^^^ (generator.setWidth 112 <<< (87 - i) ^^^ generator.setWidth 112 <<< (87 - i)) by
        ac_rfl]
    simp

/-- The division loop is additive. -/
theorem crcFold_xor (l : List Nat) : ∀ a b : BitVec 112,
    l.foldl crcStep (a ^^^ b) = l.foldl crcStep a ^^^ l.foldl crcStep b := by
  induction l with
  | nil => intro a b; rfl
  | cons i is ih => intro a b; rw [List.foldl_cons, crcStep_xor, ih]; rfl

/-- A buffer with nothing at a trigger position is left alone. -/
theorem crcFold_of_clear (l : List Nat) : ∀ b : BitVec 112,
    (∀ i ∈ l, b.getLsbD (111 - i) = false) → l.foldl crcStep b = b := by
  induction l with
  | nil => intro b _; rfl
  | cons i is ih =>
    intro b h
    have : crcStep b i = b := by unfold crcStep; rw [h i (by simp)]; rfl
    rw [List.foldl_cons, this]
    exact ih b fun j hj => h j (by simp [hj])

/-! ### The generator in a window -/

/-- The generator shifted to the window of position `i`. -/
theorem window_getLsbD (i k : Nat) (hi : i < 88) :
    (generator.setWidth 112 <<< (87 - i)).getLsbD k =
      (decide (87 - i ≤ k) && generator.getLsbD (k - (87 - i))) := by
  rw [BitVec.getLsbD_shiftLeft, BitVec.getLsbD_setWidth]
  by_cases h : 87 - i ≤ k
  · by_cases hk : k < 112
    · simp [h, hk, show ¬ k < 87 - i by omega, show k - (87 - i) < 112 by omega]
    · simp [h, hk, BitVec.getLsbD_of_ge generator (k - (87 - i)) (by omega)]
  · simp [h, show k < 87 - i by omega]

/-- After the steps `0 .. n - 1` the positions they tested are 0, and no later one writes them. -/
theorem crcFold_clears (b : BitVec 112) (n : Nat) (hn : n ≤ 88) :
    ∀ k, 112 - n ≤ k → ((List.range n).foldl crcStep b).getLsbD k = false := by
  induction n with
  | zero => intro k hk; exact BitVec.getLsbD_of_ge _ _ (by omega)
  | succ n ih =>
    intro k hk
    rw [List.range_succ, List.foldl_append, List.foldl_cons, List.foldl_nil]
    set c := (List.range n).foldl crcStep b with hc
    have ih' := ih (by omega)
    unfold crcStep
    by_cases h : c.getLsbD (111 - n) = true
    · rw [if_pos h, BitVec.getLsbD_xor, window_getLsbD n k (by omega)]
      by_cases hk' : k = 111 - n
      · subst hk'
        rw [h, show 111 - n - (87 - n) = 24 by omega]
        simp [show 87 - n ≤ 111 - n by omega, generator]
      · rw [ih' k (by omega), BitVec.getLsbD_of_ge generator _ (by omega)]
        simp
    · rw [if_neg h]
      by_cases hk' : k = 111 - n
      · subst hk'; simpa using h
      · exact ih' k (by omega)

/-! ### Bit vectors as polynomials -/

theorem bitPoly_coeff {w : Nat} (v : BitVec w) (k : Nat) :
    (bitPoly v).coeff k = if v.getLsbD k then 1 else 0 := by
  unfold bitPoly
  rw [Polynomial.finsetSum_coeff]
  by_cases hk : k < w
  · rw [Finset.sum_eq_single k]
    · split <;> simp
    · intro i _ hi
      split
      · rw [Polynomial.coeff_X_pow, if_neg (Ne.symm hi)]
      · simp
    · intro h; exact absurd (Finset.mem_range.mpr hk) h
  · rw [BitVec.getLsbD_of_ge v k (by omega)]
    refine Finset.sum_eq_zero fun i hi => ?_
    have := Finset.mem_range.mp hi
    split
    · rw [Polynomial.coeff_X_pow, if_neg (by omega)]
    · simp

theorem bitPoly_degree_lt {w : Nat} (v : BitVec w) : (bitPoly v).degree < w := by
  rw [Polynomial.degree_lt_iff_coeff_zero]
  intro m hm
  rw [bitPoly_coeff, BitVec.getLsbD_of_ge v m hm]
  rfl

theorem bitPoly_xor {w : Nat} (a b : BitVec w) : bitPoly (a ^^^ b) = bitPoly a + bitPoly b := by
  ext k
  rw [Polynomial.coeff_add, bitPoly_coeff, bitPoly_coeff, bitPoly_coeff, BitVec.getLsbD_xor]
  cases a.getLsbD k <;> cases b.getLsbD k <;> decide

/-- The generator in the window of position `i` is the generator times a power of `x`. -/
theorem bitPoly_window (i : Nat) (hi : i < 88) : bitPoly (generator.setWidth 112 <<< (87 - i)) =
    bitPoly generator * Polynomial.X ^ (87 - i) := by
  ext k
  rw [Polynomial.coeff_mul_X_pow', bitPoly_coeff, window_getLsbD i k hi]
  by_cases h : 87 - i ≤ k
  · rw [if_pos h, bitPoly_coeff, decide_eq_true h, Bool.true_and]
  · rw [if_neg h, decide_eq_false h, Bool.false_and, if_neg (by simp)]

/-- A bit vector with zeros behind it is its polynomial times a power of `x`. -/
theorem bitPoly_append_zero {w n : Nat} (v : BitVec w) :
    bitPoly (v ++ (0 : BitVec n)) = bitPoly v * Polynomial.X ^ n := by
  ext k
  rw [Polynomial.coeff_mul_X_pow', bitPoly_coeff, BitVec.getLsbD_append]
  by_cases h : n ≤ k
  · rw [if_pos h, bitPoly_coeff]; simp [show ¬ k < n by omega]
  · rw [if_neg h]; simp [show k < n by omega]

/-- The generator is monic of degree 24. -/
theorem bitPoly_generator_monic : (bitPoly generator).Monic := by
  apply Polynomial.monic_of_natDegree_le_of_coeff_eq_one 24
  · exact Nat.lt_succ_iff.mp ((Polynomial.natDegree_lt_iff_degree_lt (by
      intro h
      have := bitPoly_coeff generator 24
      rw [h] at this
      simp [generator] at this)).mpr (bitPoly_degree_lt generator))
  · rw [bitPoly_coeff]; simp [generator]

/-- Every division step keeps the buffer's class modulo the generator. -/
theorem crcFold_modEq (l : List Nat) : ∀ b : BitVec 112, (∀ i ∈ l, i < 88) →
    ∃ q, bitPoly (l.foldl crcStep b) = bitPoly b + bitPoly generator * q := by
  induction l with
  | nil => intro b _; exact ⟨0, by simp⟩
  | cons i is ih =>
    intro b h
    obtain ⟨q, hq⟩ := ih (crcStep b i) fun j hj => h j (by simp [hj])
    rw [List.foldl_cons, hq]
    unfold crcStep
    split
    · refine ⟨q + Polynomial.X ^ (87 - i), ?_⟩
      rw [bitPoly_xor, bitPoly_window i (h i (by simp))]; ring
    · exact ⟨q, rfl⟩

end Sys2Proof.Machine
end

