-- ==== Sys2Proof/Laws/Sign.lean ====
section
/-!
SUPPORT. The sign `Radical.sign` answers is the sign of the number. A number that is not 0 is at least
`1 / gap` in size: in a field of degree `n`, the norm of a nonzero algebraic integer is a nonzero integer,
so the integer is at least the inverse of the product of its other conjugates. An approximation that near
decides.
-/

namespace Sys2Proof

/-- The bit-by-bit search ends at the integer part of the root. -/
theorem rootBits_spec (d n : Nat) : ∀ (k acc : Nat), acc ^ d ≤ n → n < (acc + 2 ^ k) ^ d →
    rootBits d n k acc ^ d ≤ n ∧ n < (rootBits d n k acc + 1) ^ d
  | 0, acc, h1, h2 => ⟨h1, by simpa [rootBits] using h2⟩
  | k + 1, acc, h1, h2 => by
    unfold rootBits
    split
    · rename_i h
      refine rootBits_spec d n k _ h ?_
      rwa [show acc + 2 ^ k + 2 ^ k = acc + 2 ^ (k + 1) by ring]
    · rename_i h
      exact rootBits_spec d n k _ h1 (not_le.mp h)

namespace Radical

open IntermediateField

/-! ### A nonzero algebraic integer is not small -/

/-- A nonzero algebraic integer whose conjugates are at most `b` is at least `1 / b ^ n` in size, `n` the
degree of a field that holds it. -/
theorem one_le_mul_pow {K : IntermediateField ℚ ℝ} [FiniteDimensional ℚ K] {u : K} {b n : ℕ}
    (hu : IsIntegral ℤ u) (h0 : u ≠ 0) (hb : ∀ φ : K →ₐ[ℚ] ℂ, ‖φ u‖ ≤ b)
    (hn : Module.finrank ℚ K ≤ n) : 1 ≤ |(u : ℝ)| * (b : ℝ) ^ n := by
  classical
  obtain ⟨z, hz⟩ := IsIntegrallyClosed.isIntegral_iff.mp (Algebra.isIntegral_norm ℚ hu)
  have hz0 : z ≠ 0 := by
    rintro rfl
    exact h0 (Algebra.norm_eq_zero_iff.mp (by rw [← hz]; simp))
  have hprod : ∏ φ : K →ₐ[ℚ] ℂ, ‖φ u‖ = |(z : ℝ)| := by
    rw [← norm_prod, ← Algebra.norm_eq_prod_embeddings ℚ ℂ u, ← hz]
    simp
  have h1 : 1 ≤ ∏ φ : K →ₐ[ℚ] ℂ, ‖φ u‖ := by
    rw [hprod]; exact_mod_cast Int.one_le_abs hz0
  let φ₀ : K →ₐ[ℚ] ℂ := (Complex.ofRealAm.restrictScalars ℚ).comp K.val
  have hφ : ‖φ₀ u‖ = |(u : ℝ)| := by
    show ‖((u : ℝ) : ℂ)‖ = _
    rw [Complex.norm_real, Real.norm_eq_abs]
  have hb1 : (1 : ℝ) ≤ b := by
    have h : (0 : ℝ) < b := lt_of_lt_of_le (by rw [hφ]; simpa using h0) (hb φ₀)
    exact_mod_cast h
  rw [← Finset.mul_prod_erase _ _ (Finset.mem_univ φ₀), hφ] at h1
  refine h1.trans (mul_le_mul_of_nonneg_left ?_ (abs_nonneg _))
  calc ∏ φ ∈ Finset.univ.erase φ₀, ‖φ u‖
      ≤ ∏ _φ ∈ Finset.univ.erase φ₀, (b : ℝ) :=
        Finset.prod_le_prod (fun _ _ => norm_nonneg _) fun φ _ => hb φ
    _ = (b : ℝ) ^ (Fintype.card (K →ₐ[ℚ] ℂ) - 1) := by
        rw [Finset.prod_const, Finset.card_erase_of_mem (Finset.mem_univ _), Finset.card_univ]
    _ ≤ (b : ℝ) ^ n := pow_le_pow_right₀ hb1 (by rw [AlgHom.card ℚ K ℂ]; omega)

/-! ### A field that holds the roots -/

/-- Joining an element whose `d`-th power is in the field multiplies the degree by at most `d`. -/
theorem exists_field_root {K : IntermediateField ℚ ℝ} [FiniteDimensional ℚ K] {s : ℝ} {d : ℕ}
    (hd : 0 < d) (hs : s ^ d ∈ K) : ∃ L : IntermediateField ℚ ℝ, K ≤ L ∧ s ∈ L ∧
      FiniteDimensional ℚ L ∧ Module.finrank ℚ L ≤ Module.finrank ℚ K * d := by
  have hi : IsIntegral K s := IsIntegral.of_pow hd (isIntegral_algebraMap (x := (⟨s ^ d, hs⟩ : K)))
  have hfin : FiniteDimensional K K⟮s⟯ := adjoin.finiteDimensional hi
  have hdeg : Module.finrank K K⟮s⟯ ≤ d := by
    rw [adjoin.finrank hi]
    have hm : (Polynomial.X ^ d - Polynomial.C (⟨s ^ d, hs⟩ : K)).Monic :=
      Polynomial.monic_X_pow_sub_C _ hd.ne'
    have := Polynomial.natDegree_le_of_dvd (minpoly.dvd K s
      (p := Polynomial.X ^ d - Polynomial.C (⟨s ^ d, hs⟩ : K)) (by simp)) hm.ne_zero
    rwa [Polynomial.natDegree_X_pow_sub_C] at this
  refine ⟨K⟮s⟯.restrictScalars ℚ, ?_, mem_adjoin_simple_self K s, ?_, ?_⟩
  · intro x hx
    exact (K⟮s⟯).algebraMap_mem ⟨x, hx⟩
  · exact FiniteDimensional.trans ℚ K K⟮s⟯
  · have := Module.finrank_mul_finrank ℚ K K⟮s⟯
    exact this.symm.le.trans (Nat.mul_le_mul_left _ hdeg)

/-- The field holds every root of the expression. -/
def Holds (K : IntermediateField ℚ ℝ) : Radical → Prop
  | rat _ => True
  | root10 m k => (root10 m k).val ∈ K
  | sqrt a => Holds K a ∧ (sqrt a).val ∈ K
  | add a b => Holds K a ∧ Holds K b
  | mul a b => Holds K a ∧ Holds K b
  | inv a => Holds K a

theorem Holds.mono {K L : IntermediateField ℚ ℝ} (h : K ≤ L) : ∀ {a : Radical}, Holds K a → Holds L a
  | rat _, _ => trivial
  | root10 _ _, ha => h ha
  | sqrt _, ha => ⟨Holds.mono h ha.1, h ha.2⟩
  | add _ _, ha => ⟨Holds.mono h ha.1, Holds.mono h ha.2⟩
  | mul _ _, ha => ⟨Holds.mono h ha.1, Holds.mono h ha.2⟩
  | inv a, ha => Holds.mono h (a := a) ha

/-- A field that holds the roots of an expression holds its value. -/
theorem Holds.val_mem {K : IntermediateField ℚ ℝ} : ∀ {a : Radical}, Holds K a → a.val ∈ K
  | rat q, _ => K.algebraMap_mem q
  | root10 _ _, ha => ha
  | sqrt _, ha => ha.2
  | add _ _, ha => K.add_mem (Holds.val_mem ha.1) (Holds.val_mem ha.2)
  | mul _ _, ha => K.mul_mem (Holds.val_mem ha.1) (Holds.val_mem ha.2)
  | inv a, ha => K.inv_mem (Holds.val_mem (a := a) ha)

theorem root10_pow (m k : ℕ) : (root10 m k).val ^ (k + 1) = 10 ^ m := by
  rw [val, ← Real.rpow_natCast, ← Real.rpow_mul (by norm_num), div_mul_cancel₀ _ (by positivity),
    Real.rpow_natCast]

/-- The value of a root whose radicand is not negative, or 0. -/
theorem sqrt_pow_mem {K : IntermediateField ℚ ℝ} {a : Radical} (ha : a.val ∈ K) :
    (sqrt a).val ^ 2 ∈ K := by
  rcases le_total 0 a.val with h | h
  · rw [val, Real.sq_sqrt h]; exact ha
  · rw [val, Real.sqrt_eq_zero_of_nonpos h]; simp

theorem degreeOf_cons (r : Radical) (l : List Radical) :
    degreeOf (r :: l) = rootDegree r * degreeOf l := by simp [degreeOf]

/-- What joining the roots of an expression to a field gives. -/
structure Joined (l : List Radical) (L : IntermediateField ℚ ℝ) : Prop where
  fin : FiniteDimensional ℚ L
  deg : Module.finrank ℚ L ≤ degreeOf l
  mem : ∀ r ∈ l, r.val ∈ L

theorem Joined.root {l : List Radical} {K : IntermediateField ℚ ℝ} (h : Joined l K) {r : Radical}
    {d : ℕ} (hd : 0 < d) (hrd : rootDegree r = d) (hr : r.val ^ d ∈ K) :
    ∃ L, K ≤ L ∧ r.val ∈ L ∧ Joined (if r ∈ l then l else r :: l) L := by
  split
  · exact ⟨K, le_refl _, h.mem r ‹_›, h⟩
  · have := h.fin
    obtain ⟨L, hKL, hL, hfin, hdeg⟩ := exists_field_root hd hr
    refine ⟨L, hKL, hL, hfin, ?_, ?_⟩
    · rw [degreeOf_cons, hrd, mul_comm]
      exact hdeg.trans (Nat.mul_le_mul_right _ h.deg)
    · intro r' hr'
      rcases List.mem_cons.mp hr' with rfl | hr'
      · exact hL
      · exact hKL (h.mem r' hr')

/-- The roots of an expression, joined to a field, multiply its degree by at most the product of their
own. -/
theorem exists_joined : ∀ (a : Radical) {l : List Radical} {K : IntermediateField ℚ ℝ}, Joined l K →
    ∃ L, K ≤ L ∧ Holds L a ∧ Joined (roots a l) L
  | rat _, _, K, h => ⟨K, le_refl _, trivial, h⟩
  | root10 m k, l, K, h => by
    obtain ⟨L, h1, h2, h3⟩ := h.root (r := root10 m k) (d := k + 1) (by omega) rfl (by
      rw [root10_pow]; exact_mod_cast K.algebraMap_mem ((10 : ℚ) ^ m))
    exact ⟨L, h1, h2, h3⟩
  | sqrt a, l, K, h => by
    obtain ⟨L, h1, h2, h3⟩ := exists_joined a h
    obtain ⟨M, h4, h5, h6⟩ := h3.root (r := sqrt a) (d := 2) (by omega) rfl (sqrt_pow_mem h2.val_mem)
    exact ⟨M, h1.trans h4, ⟨h2.mono h4, h5⟩, h6⟩
  | add a b, l, K, h => by
    obtain ⟨L, h1, h2, h3⟩ := exists_joined a h
    obtain ⟨M, h4, h5, h6⟩ := exists_joined b h3
    exact ⟨M, h1.trans h4, ⟨h2.mono h4, h5⟩, h6⟩
  | mul a b, l, K, h => by
    obtain ⟨L, h1, h2, h3⟩ := exists_joined a h
    obtain ⟨M, h4, h5, h6⟩ := exists_joined b h3
    exact ⟨M, h1.trans h4, ⟨h2.mono h4, h5⟩, h6⟩
  | inv a, l, K, h => exists_joined a h

/-- A field of degree at most `degreeOf (roots a [])` holds the roots of an expression. -/
theorem exists_field (a : Radical) : ∃ K : IntermediateField ℚ ℝ, FiniteDimensional ℚ K ∧
    Module.finrank ℚ K ≤ degreeOf (roots a []) ∧ Holds K a := by
  obtain ⟨L, -, h, hj⟩ := exists_joined a (l := []) (K := ⊥) ⟨inferInstance, by simp [degreeOf], by simp⟩
  exact ⟨L, hj.fin, hj.deg, h⟩

/-! ### The height -/

/-- A number is the quotient of two algebraic integers of a field, whose conjugates the height bounds. -/
def Bounded (K : IntermediateField ℚ ℝ) (x : ℝ) (h : Height) : Prop :=
  ∃ u l : K, IsIntegral ℤ u ∧ IsIntegral ℤ l ∧ l ≠ 0 ∧ x * (l : ℝ) = (u : ℝ) ∧
    ∀ φ : K →ₐ[ℚ] ℂ, ‖φ u‖ ≤ h.num ∧ ‖φ l‖ ≤ h.den

theorem height_den_pos : ∀ a : Radical, 0 < a.height.den
  | rat q => q.den_pos
  | root10 _ _ => Nat.one_pos
  | sqrt a => height_den_pos a
  | add a b => Nat.mul_pos (height_den_pos a) (height_den_pos b)
  | mul a b => Nat.mul_pos (height_den_pos a) (height_den_pos b)
  | inv _ => lt_of_lt_of_le Nat.one_pos (le_max_right _ _)

/-- Zero is the quotient 0 / 1. -/
theorem bounded_zero {K : IntermediateField ℚ ℝ} {h : Height} (hd : 0 < h.den) : Bounded K 0 h :=
  ⟨0, 1, isIntegral_zero, isIntegral_one, one_ne_zero, by simp, fun φ => by
    simp only [map_zero, norm_zero, map_one, norm_one]
    exact ⟨by positivity, by exact_mod_cast hd⟩⟩

theorem holds_bounded {K : IntermediateField ℚ ℝ} : ∀ {a : Radical}, Holds K a →
    Bounded K a.val a.height
  | rat q, _ => by
    refine ⟨(q.num : K), (q.den : K), isIntegral_intCast _, isIntegral_natCast _, by exact_mod_cast q.den_ne_zero, ?_,
      fun φ => ?_⟩
    · have h : (q : ℝ) * q.den = q.num := by exact_mod_cast Rat.mul_den_eq_num q
      simpa [val] using h
    · constructor
      · rw [map_intCast, Complex.norm_intCast]
        simp [height]
      · rw [map_natCast, Complex.norm_natCast]; rfl
  | root10 m k, ha => by
    have hk : (⟨_, ha⟩ : K) ^ (k + 1) = ((10 ^ m : ℕ) : K) := by
      apply Subtype.ext
      show (root10 m k).val ^ (k + 1) = K.val ((10 ^ m : ℕ) : K)
      rw [root10_pow, map_natCast]
      push_cast; rfl
    refine ⟨⟨_, ha⟩, 1, IsIntegral.of_pow (Nat.succ_pos k) (by rw [hk]; exact isIntegral_natCast _),
      isIntegral_one, one_ne_zero, by simp, fun φ => ⟨?_, by simp [height]⟩⟩
    · have h : φ ⟨_, ha⟩ ^ (k + 1) = (10 : ℂ) ^ m := by
        rw [← map_pow, hk, map_natCast]
        push_cast; rfl
      refine le_of_pow_le_pow_left₀ (Nat.succ_ne_zero k) (by positivity) ?_
      rw [← norm_pow, h]
      simp only [height, norm_pow]
      push_cast
      rw [← pow_mul]
      norm_num
      refine pow_le_pow_right₀ (by norm_num) ?_
      have := Nat.lt_div_mul_add (a := m) (b := k + 1) (by omega)
      rw [Nat.add_mul, Nat.one_mul]; omega
  | sqrt a, ha => by
    rcases lt_or_ge a.val 0 with h0 | h0
    · rw [val, Real.sqrt_eq_zero_of_nonpos h0.le]
      exact bounded_zero (height_den_pos a)
    · obtain ⟨u, l, hu, hl, hl0, hx, hb⟩ := holds_bounded ha.1
      have hsq : (⟨_, ha.2⟩ * l : K) ^ 2 = u * l := by
        apply Subtype.ext
        show ((√a.val) * (l : ℝ)) ^ 2 = (u : ℝ) * l
        rw [mul_pow, Real.sq_sqrt h0, ← hx]; ring
      refine ⟨⟨_, ha.2⟩ * l, l, IsIntegral.of_pow (n := 2) (by norm_num) (by rw [hsq]; exact hu.mul hl),
        hl, hl0, rfl, fun φ => ⟨?_, (hb φ).2⟩⟩
      have h1 : ‖φ (⟨_, ha.2⟩ * l)‖ ^ 2 ≤ ((a.height.num * a.height.den : ℕ) : ℝ) := by
        rw [← norm_pow, ← map_pow, hsq, map_mul, norm_mul]
        push_cast
        exact mul_le_mul (hb φ).1 (hb φ).2 (norm_nonneg _) (by positivity)
      show _ ≤ ((a.height.num * a.height.den : ℕ) : ℝ)
      rcases Nat.eq_zero_or_pos (a.height.num * a.height.den) with h | h
      · rw [h] at h1 ⊢
        have : ‖φ (⟨_, ha.2⟩ * l)‖ ^ 2 = 0 := le_antisymm (by simpa using h1) (sq_nonneg _)
        rw [pow_eq_zero_iff (by norm_num)] at this
        exact this.le.trans (by simp)
      · have h' : (1 : ℝ) ≤ ((a.height.num * a.height.den : ℕ) : ℝ) := by exact_mod_cast h
        nlinarith [norm_nonneg (φ (⟨_, ha.2⟩ * l))]
  | add a b, ha => by
    obtain ⟨u, l, hu, hl, hl0, hx, hb⟩ := holds_bounded ha.1
    obtain ⟨u', l', hu', hl', hl0', hx', hb'⟩ := holds_bounded ha.2
    refine ⟨u * l' + u' * l, l * l', (hu.mul hl').add (hu'.mul hl), hl.mul hl', mul_ne_zero hl0 hl0', ?_,
      fun φ => ⟨?_, ?_⟩⟩
    · push_cast; rw [← hx, ← hx', val]; ring
    · rw [map_add, map_mul, map_mul]
      refine (norm_add_le _ _).trans ?_
      rw [norm_mul, norm_mul]
      simp only [height]; push_cast
      exact add_le_add (mul_le_mul (hb φ).1 (hb' φ).2 (norm_nonneg _) (by positivity))
        (mul_le_mul (hb' φ).1 (hb φ).2 (norm_nonneg _) (by positivity))
    · rw [map_mul, norm_mul]
      simp only [height]; push_cast
      exact mul_le_mul (hb φ).2 (hb' φ).2 (norm_nonneg _) (by positivity)
  | mul a b, ha => by
    obtain ⟨u, l, hu, hl, hl0, hx, hb⟩ := holds_bounded ha.1
    obtain ⟨u', l', hu', hl', hl0', hx', hb'⟩ := holds_bounded ha.2
    refine ⟨u * u', l * l', hu.mul hu', hl.mul hl', mul_ne_zero hl0 hl0', ?_, fun φ => ⟨?_, ?_⟩⟩
    · push_cast; rw [← hx, ← hx', val]; ring
    · rw [map_mul, norm_mul]
      simp only [height]; push_cast
      exact mul_le_mul (hb φ).1 (hb' φ).1 (norm_nonneg _) (by positivity)
    · rw [map_mul, norm_mul]
      simp only [height]; push_cast
      exact mul_le_mul (hb φ).2 (hb' φ).2 (norm_nonneg _) (by positivity)
  | inv a, ha => by
    rcases eq_or_ne a.val 0 with h0 | h0
    · rw [val, h0, inv_zero]
      exact bounded_zero (height_den_pos (inv a))
    · obtain ⟨u, l, hu, hl, hl0, hx, hb⟩ := holds_bounded (a := a) ha
      have hu0 : u ≠ 0 := by
        rintro rfl
        rcases mul_eq_zero.mp hx with h | h
        · exact h0 h
        · exact hl0 (by exact_mod_cast h)
      refine ⟨l, u, hl, hu, hu0, ?_, fun φ => ⟨(hb φ).2, (hb φ).1.trans ?_⟩⟩
      · rw [← hx, val]; field_simp
      · simp only [height]; exact_mod_cast le_max_left _ _

/-- A number of a field of degree at most `n` is 0, or at least `1 / gap` in size. -/
theorem one_le_gap {K : IntermediateField ℚ ℝ} [FiniteDimensional ℚ K] {a : Radical} (ha : Holds K a)
    {n : ℕ} (hn : Module.finrank ℚ K ≤ n) (h0 : a.val ≠ 0) : 1 ≤ |a.val| * gap n a := by
  obtain ⟨u, l, hu, hl, hl0, hx, hb⟩ := holds_bounded ha
  have hu0 : u ≠ 0 := by
    rintro rfl
    rcases mul_eq_zero.mp hx with h | h
    · exact h0 h
    · exact hl0 (by exact_mod_cast h)
  have h1 := one_le_mul_pow hu hu0 (fun φ => (hb φ).1) hn
  have h2 : |(l : ℝ)| ≤ a.height.den := by
    have := (hb ((Complex.ofRealAm.restrictScalars ℚ).comp K.val)).2
    refine le_trans (le_of_eq ?_) this
    show _ = ‖((l : ℝ) : ℂ)‖
    rw [Complex.norm_real, Real.norm_eq_abs]
  rw [← hx, abs_mul] at h1
  simp only [gap]; push_cast
  calc (1 : ℝ) ≤ |a.val| * |(l : ℝ)| * (a.height.num : ℝ) ^ n := h1
    _ ≤ |a.val| * a.height.den * (a.height.num : ℝ) ^ n := by gcongr
    _ = _ := by ring

/-- A number of a field of degree at most `n` is at most `size` in size. -/
theorem abs_le_size {K : IntermediateField ℚ ℝ} [FiniteDimensional ℚ K] {a : Radical} (ha : Holds K a)
    {n : ℕ} (hn : Module.finrank ℚ K ≤ n) : |a.val| ≤ size n a := by
  obtain ⟨u, l, hu, hl, hl0, hx, hb⟩ := holds_bounded ha
  have h1 := one_le_mul_pow hl hl0 (fun φ => (hb φ).2) hn
  have h2 : |(u : ℝ)| ≤ a.height.num := by
    have := (hb ((Complex.ofRealAm.restrictScalars ℚ).comp K.val)).1
    refine le_trans (le_of_eq ?_) this
    show _ = ‖((u : ℝ) : ℂ)‖
    rw [Complex.norm_real, Real.norm_eq_abs]
  simp only [size]; push_cast
  calc |a.val| = |a.val| * 1 := (mul_one _).symm
    _ ≤ |a.val| * (|(l : ℝ)| * (a.height.den : ℝ) ^ n) := by gcongr
    _ = |(u : ℝ)| * (a.height.den : ℝ) ^ n := by rw [← mul_assoc, ← abs_mul, hx]
    _ ≤ a.height.num * (a.height.den : ℝ) ^ n := by gcongr


/-! ### Approximations -/

theorem lt_two_pow_gapBits (n : ℕ) (a : Radical) : (2 * gap n a : ℝ) < 2 ^ gapBits n a := by
  have h : gap n a < 2 ^ (Nat.log2 (gap n a) + 1) := Nat.lt_log2_self
  have h' : (gap n a : ℝ) < 2 ^ (Nat.log2 (gap n a) + 1) := by exact_mod_cast h
  have : gapBits n a = Nat.log2 (gap n a) + 1 + 1 := rfl
  rw [this, pow_succ]
  linarith

/-- A number that is not 0 is more than two units of the approximation that decides it away from 0. -/
theorem two_lt_gapBits {K : IntermediateField ℚ ℝ} [FiniteDimensional ℚ K] {a : Radical}
    (ha : Holds K a) {n : ℕ} (hn : Module.finrank ℚ K ≤ n) (h0 : a.val ≠ 0) :
    2 < |a.val| * 2 ^ gapBits n a := by
  have h1 := one_le_gap ha hn h0
  have h2 := lt_two_pow_gapBits n a
  have h3 : 0 < |a.val| := abs_pos.mpr h0
  nlinarith

/-- The root approximation of a number not below 0. -/
theorem sqrt_floor_near {y : ℝ} {q : ℚ} {p : ℕ} (h : |(q : ℝ) - y| ≤ 1 / 2 ^ (2 * p + 2)) :
    |((mkRat (Nat.sqrt (q * 4 ^ (p + 1)).floor.toNat) (2 ^ (p + 1)) : ℚ) : ℝ) - √y| ≤ 1 / 2 ^ p := by
  have hP : (0 : ℝ) < 2 ^ (p + 1) := by positivity
  have h4 : (4 : ℝ) ^ (p + 1) = (2 ^ (p + 1)) ^ 2 := by rw [← pow_mul, mul_comm, pow_mul]; norm_num
  set s := Nat.sqrt (q * 4 ^ (p + 1)).floor.toNat with hs
  set N := (q * 4 ^ (p + 1)).floor with hN
  have hN1 : (N : ℝ) ≤ q * 4 ^ (p + 1) := by
    have h : (N : ℚ) ≤ q * 4 ^ (p + 1) := Int.floor_le (q * 4 ^ (p + 1))
    exact_mod_cast h
  have hN2 : (q : ℝ) * 4 ^ (p + 1) < N + 1 := by
    have h : q * 4 ^ (p + 1) < N + 1 := Int.lt_floor_add_one (q * 4 ^ (p + 1))
    exact_mod_cast h
  have hs1 : (s : ℝ) ^ 2 ≤ (N.toNat : ℝ) := by exact_mod_cast Nat.sqrt_le' N.toNat
  have hs2 : (N.toNat : ℝ) + 1 ≤ ((s : ℝ) + 1) ^ 2 := by exact_mod_cast Nat.lt_succ_sqrt' N.toNat
  -- the square root of the approximation, to within one unit
  have hq : |(s : ℝ) / 2 ^ (p + 1) - √q| ≤ 1 / 2 ^ (p + 1) := by
    have hlo : (s : ℝ) ≤ √q * 2 ^ (p + 1) := by
      rcases le_total 0 N with hn | hn
      · have : (N.toNat : ℝ) = N := by exact_mod_cast congrArg (fun i : ℤ => (i : ℝ)) (Int.toNat_of_nonneg hn)
        have hq0 : (0 : ℝ) ≤ q := by
          have : (0 : ℝ) ≤ N := by exact_mod_cast hn
          have h5 : (0 : ℝ) ≤ q * 4 ^ (p + 1) := this.trans hN1
          exact nonneg_of_mul_nonneg_left h5 (by positivity)
        rw [show √(q : ℝ) * 2 ^ (p + 1) = √(q * 4 ^ (p + 1)) by
          rw [h4, Real.sqrt_mul hq0, Real.sqrt_sq hP.le]]
        exact Real.le_sqrt_of_sq_le (by linarith)
      · have : s = 0 := by rw [hs, Int.toNat_of_nonpos hn]; rfl
        rw [this]; simp
    have hhi : √q * 2 ^ (p + 1) ≤ (s : ℝ) + 1 := by
      rcases le_total (0 : ℝ) q with hq0 | hq0
      · rw [show √(q : ℝ) * 2 ^ (p + 1) = √(q * 4 ^ (p + 1)) by
          rw [h4, Real.sqrt_mul hq0, Real.sqrt_sq hP.le]]
        have : (N : ℝ) ≤ (N.toNat : ℝ) := by exact_mod_cast Int.self_le_toNat N
        exact Real.sqrt_le_iff.mpr ⟨by positivity, by linarith⟩
      · rw [Real.sqrt_eq_zero_of_nonpos hq0]; simp; positivity
    rw [abs_le]
    constructor
    · rw [neg_le_sub_iff_le_add, ← add_div, le_div_iff₀ hP]; linarith
    · have : (s : ℝ) / 2 ^ (p + 1) ≤ √q := by rw [div_le_iff₀ hP]; exact hlo
      have : (0 : ℝ) ≤ 1 / 2 ^ (p + 1) := by positivity
      linarith
  have hy : |√(q : ℝ) - √y| ≤ 1 / 2 ^ (p + 1) := by
    have key : ∀ a b e : ℝ, 0 ≤ e → a - b ≤ e ^ 2 → √a ≤ √b + e := by
      intro a b e he hab
      refine Real.sqrt_le_iff.mpr ⟨by positivity, ?_⟩
      rcases le_total 0 b with hb | hb
      · nlinarith [Real.sq_sqrt hb, Real.sqrt_nonneg b]
      · rw [Real.sqrt_eq_zero_of_nonpos hb]; nlinarith
    have he : (1 / 2 ^ (p + 1) : ℝ) ^ 2 = 1 / 2 ^ (2 * p + 2) := by
      rw [div_pow, one_pow, ← pow_mul]; congr 2; ring
    rw [abs_le] at h ⊢
    have h1 := key q y (1 / 2 ^ (p + 1)) (by positivity) (by rw [he]; linarith)
    have h2 := key y q (1 / 2 ^ (p + 1)) (by positivity) (by rw [he]; linarith)
    constructor <;> linarith
  rw [Rat.mkRat_eq_div]; push_cast
  have h2 : (1 / 2 ^ p : ℝ) = 1 / 2 ^ (p + 1) + 1 / 2 ^ (p + 1) := by
    rw [pow_succ]; field_simp; norm_num
  rw [h2]
  calc |(s : ℝ) / 2 ^ (p + 1) - √y| = |((s : ℝ) / 2 ^ (p + 1) - √q) + (√q - √y)| := by ring_nf
    _ ≤ _ := (abs_add_le _ _).trans (add_le_add hq hy)

theorem root10_near (m k p : ℕ) : |((approx n (root10 m k) p : ℚ) : ℝ) - (root10 m k).val| ≤ 1 / 2 ^ p := by
  set t := (root10 m k).val with ht
  have ht0 : 0 ≤ t := by rw [ht, val]; positivity
  set N := rootBits (k + 1) (10 ^ m * 2 ^ (p * (k + 1))) (p + 4 * (m / (k + 1) + 1)) 0 with hN
  have hspec := rootBits_spec (k + 1) (10 ^ m * 2 ^ (p * (k + 1))) (p + 4 * (m / (k + 1) + 1)) 0
    (by simp) (by
      rw [zero_add, ← pow_mul, add_mul, pow_add, mul_comm]
      refine Nat.mul_lt_mul_of_pos_left ?_ (by positivity)
      calc 10 ^ m ≤ 16 ^ m := Nat.pow_le_pow_left (by norm_num) m
        _ < 16 ^ ((m / (k + 1) + 1) * (k + 1)) := Nat.pow_lt_pow_right (by norm_num) (by
            have := Nat.lt_div_mul_add (a := m) (b := k + 1) (by omega)
            rw [Nat.add_mul, Nat.one_mul]; omega)
        _ = 2 ^ (4 * (m / (k + 1) + 1) * (k + 1)) := by
            rw [mul_assoc, pow_mul 2 4]; norm_num)
  have hP : (0 : ℝ) < 2 ^ p := by positivity
  have hsc : (t * 2 ^ p) ^ (k + 1) = ((10 ^ m * 2 ^ (p * (k + 1)) : ℕ) : ℝ) := by
    rw [mul_pow, root10_pow, ← pow_mul]; push_cast; rfl
  have h1 : (N : ℝ) ≤ t * 2 ^ p := by
    refine le_of_pow_le_pow_left₀ (Nat.succ_ne_zero k) (by positivity) ?_
    rw [hsc]; exact_mod_cast hspec.1
  have h2 : t * 2 ^ p ≤ (N : ℝ) + 1 := by
    refine le_of_pow_le_pow_left₀ (Nat.succ_ne_zero k) (by positivity) ?_
    rw [hsc]; exact_mod_cast hspec.2.le
  show |((mkRat N (2 ^ p) : ℚ) : ℝ) - t| ≤ _
  rw [Rat.mkRat_eq_div]; push_cast
  rw [abs_le]
  constructor
  · rw [neg_le_sub_iff_le_add, ← add_div, le_div_iff₀ hP]; linarith
  · have : (N : ℝ) / 2 ^ p ≤ t := by rw [div_le_iff₀ hP]; exact h1
    have : (0 : ℝ) ≤ 1 / 2 ^ p := by positivity
    linarith

/-- A factor's share of the precision of a product. -/
theorem mul_share {e s : ℝ} {p m : ℕ} (h : e ≤ 1 / 2 ^ (p + 2 + Nat.log2 (m + 1))) (hs : 0 ≤ s)
    (hm : s ≤ m + 1) : s * e ≤ 1 / 2 ^ (p + 1) := by
  have h1 : m + 1 < 2 ^ (Nat.log2 (m + 1) + 1) := Nat.lt_log2_self
  have h2 : ((m : ℝ) + 1) < 2 ^ (Nat.log2 (m + 1) + 1) := by exact_mod_cast h1
  have h3 : (2 : ℝ) ^ (p + 2 + Nat.log2 (m + 1)) = 2 ^ (p + 1) * 2 ^ (Nat.log2 (m + 1) + 1) := by
    rw [← pow_add]; congr 1; ring
  calc s * e ≤ s * (1 / 2 ^ (p + 2 + Nat.log2 (m + 1))) := mul_le_mul_of_nonneg_left h hs
    _ ≤ 2 ^ (Nat.log2 (m + 1) + 1) * (1 / 2 ^ (p + 2 + Nat.log2 (m + 1))) :=
        mul_le_mul_of_nonneg_right (by linarith) (by positivity)
    _ = 1 / 2 ^ (p + 1) := by rw [h3]; field_simp

theorem approx_near {K : IntermediateField ℚ ℝ} [FiniteDimensional ℚ K] {n : ℕ}
    (hn : Module.finrank ℚ K ≤ n) : ∀ (a : Radical), Holds K a → ∀ p : ℕ,
      |((approx n a p : ℚ) : ℝ) - a.val| ≤ 1 / 2 ^ p
  | rat q, _, p => by simp [approx, val]
  | root10 m k, _, p => root10_near m k p
  | sqrt a, ha, p => sqrt_floor_near (approx_near hn a ha.1 (2 * p + 2))
  | add a b, ha, p => by
    have h1 := approx_near hn a ha.1 (p + 1)
    have h2 := approx_near hn b ha.2 (p + 1)
    have h3 : (1 / 2 ^ p : ℝ) = 1 / 2 ^ (p + 1) + 1 / 2 ^ (p + 1) := by
      rw [pow_succ]; field_simp; norm_num
    rw [h3, val, approx]; push_cast
    calc _ = |((approx n a (p + 1) : ℝ) - a.val) + ((approx n b (p + 1) : ℝ) - b.val)| := by ring_nf
      _ ≤ _ := (abs_add_le _ _).trans (add_le_add h1 h2)
  | mul a b, ha, p => by
    have h1 := approx_near hn a ha.1 (p + 2 + Nat.log2 (size n b + 1))
    have h2 := approx_near hn b ha.2 (p + 2 + Nat.log2 (size n a + 1))
    have ha' := abs_le_size ha.1 hn
    have hb' := abs_le_size ha.2 hn
    rw [val, approx]; push_cast
    set x := (approx n a (p + 2 + Nat.log2 (size n b + 1)) : ℝ)
    set y := (approx n b (p + 2 + Nat.log2 (size n a + 1)) : ℝ)
    have hy : |y| ≤ size n b + 1 := by
      have : (1 : ℝ) / 2 ^ (p + 2 + Nat.log2 (size n a + 1)) ≤ 1 := by
        rw [div_le_one (by positivity)]; exact one_le_pow₀ (by norm_num)
      have := abs_sub_abs_le_abs_sub y b.val
      linarith
    have e1 := mul_share h1 (abs_nonneg y) hy
    have e2 := mul_share h2 (abs_nonneg a.val) (by linarith)
    have h3 : (1 / 2 ^ p : ℝ) = 1 / 2 ^ (p + 1) + 1 / 2 ^ (p + 1) := by
      rw [pow_succ]; field_simp; norm_num
    rw [h3]
    calc |x * y - a.val * b.val| = |y * (x - a.val) + a.val * (y - b.val)| := by ring_nf
      _ ≤ |y| * |x - a.val| + |a.val| * |y - b.val| := by
          rw [← abs_mul, ← abs_mul]; exact abs_add_le _ _
      _ ≤ _ := add_le_add e1 e2
  | inv a, ha, p => by
    have hg := approx_near hn a ha (gapBits n a)
    have h1 := approx_near hn a ha (p + 2 * gapBits n a)
    have hP : (0 : ℝ) < 2 ^ gapBits n a := by positivity
    rw [val, approx]
    split
    · rename_i hz
      have hz' : |(approx n a (gapBits n a) : ℝ)| * 2 ^ gapBits n a ≤ 1 := by exact_mod_cast hz
      have h0 : a.val = 0 := by
        by_contra h0
        have h2 := two_lt_gapBits (a := a) ha hn h0
        rw [le_div_iff₀ hP] at hg
        have := abs_sub_abs_le_abs_sub a.val (approx n a (gapBits n a) : ℝ)
        rw [abs_sub_comm] at this
        nlinarith
      rw [h0]; simp
    · rename_i hz
      have hz' : 1 < |(approx n a (gapBits n a) : ℝ)| * 2 ^ gapBits n a := by
        exact_mod_cast not_le.mp hz
      have h0 : a.val ≠ 0 := by
        intro h0
        rw [h0, sub_zero, le_div_iff₀ hP] at hg
        linarith
      have h2 := two_lt_gapBits (a := a) ha hn h0
      push_cast
      set y := (approx n a (p + 2 * gapBits n a) : ℝ)
      set P := (2 : ℝ) ^ gapBits n a
      have hpp : (2 : ℝ) ^ (p + 2 * gapBits n a) = 2 ^ p * P ^ 2 := by
        rw [pow_add, pow_mul, pow_right_comm]
      rw [hpp, le_div_iff₀ (by positivity)] at h1
      have h2p : (1 : ℝ) ≤ 2 ^ p := one_le_pow₀ (by norm_num)
      have hP1 : (1 : ℝ) ≤ P := one_le_pow₀ (by norm_num)
      have hyP : 1 < |y| * P := by
        have := abs_sub_abs_le_abs_sub a.val y
        rw [abs_sub_comm] at this
        have h3 : |y - a.val| * P ≤ 1 := by
          have h5 : |y - a.val| * P * 1 ≤ |y - a.val| * P * (2 ^ p * P) :=
            mul_le_mul_of_nonneg_left (by nlinarith) (by positivity)
          nlinarith
        nlinarith
      have hy0 : y ≠ 0 := by rintro h; rw [h] at hyP; simp at hyP; linarith
      rw [le_div_iff₀ (by positivity)]
      have e : y⁻¹ - a.val⁻¹ = (a.val - y) / (y * a.val) := by field_simp
      rw [e, abs_div, abs_mul, abs_sub_comm, div_mul_eq_mul_div, div_le_one (by positivity)]
      have hprod : 1 < (|y| * P) * (|a.val| * P) := by nlinarith
      nlinarith [mul_pos (abs_pos.mpr hy0) (abs_pos.mpr h0), sq_nonneg P]

/-- The sign of an expression is the sign of the number it stands for. -/
theorem sign_eq (a : Radical) : a.sign = SignType.sign a.val := by
  obtain ⟨K, hfin, hn, ha⟩ := exists_field a
  have hg := approx_near hn a ha (gapBits (degreeOf (roots a [])) a)
  set n := degreeOf (roots a [])
  have hP : (0 : ℝ) < 2 ^ gapBits n a := by positivity
  rw [le_div_iff₀ hP] at hg
  set q := approx n a (gapBits n a)
  have hq := abs_le.mp (show |((q : ℝ) - a.val) * 2 ^ gapBits n a| ≤ 1 by
    rwa [abs_mul, abs_of_pos hP])
  have h2 := fun h0 => two_lt_gapBits (a := a) ha hn h0
  have hc1 : q * 2 ^ gapBits n a > 1 ↔ 1 < (q : ℝ) * 2 ^ gapBits n a := by
    constructor <;> intro h <;> exact_mod_cast h
  have hc2 : q * 2 ^ gapBits n a < -1 ↔ (q : ℝ) * 2 ^ gapBits n a < -1 := by
    constructor <;> intro h <;> exact_mod_cast h
  have hs : a.sign = if 1 < (q : ℝ) * 2 ^ gapBits n a then 1
      else if (q : ℝ) * 2 ^ gapBits n a < -1 then -1 else 0 := by
    rw [← ite_congr (propext hc1) (fun _ => rfl) fun _ => ite_congr (propext hc2) (fun _ => rfl) fun _ => rfl]
    rfl
  rw [hs]
  rcases lt_trichotomy a.val 0 with h | h | h
  · have := h2 h.ne
    rw [abs_of_neg h] at this
    rw [if_neg (by nlinarith), if_pos (by nlinarith), sign_neg h]
  · rw [h] at hq ⊢
    rw [if_neg (by linarith), if_neg (by linarith), sign_zero]
  · have := h2 h.ne'
    rw [abs_of_pos h] at this
    rw [if_pos (by nlinarith), sign_pos h]

/-! ### The numbers of the physical layer -/

theorem val_root1 : root1.val = √2 := by simp [root1, val]

theorem val_root2 : root2.val = √(2 + √2) := by simp [root2, val, val_root1]

theorem val_root3 : root3.val = √(2 + √(2 + √2)) := by simp [root3, val, val_root2]

theorem val_ofSurd1 (x : Surd1) : (ofSurd1 x).val = x.val := by
  unfold ofSurd1 Surd1.val
  split
  · rename_i h; simp [val, h]
  · simp [val, val_root1]

theorem val_ofSurd2 (x : Surd2) : (ofSurd2 x).val = x.val := by
  unfold ofSurd2 Surd2.val
  split
  · rename_i h; simp [val_ofSurd1, h, Surd1.val]
  · simp [val, val_ofSurd1, val_root2]

theorem val_ofSurd3 (x : Surd3) : (ofSurd3 x).val = x.val := by
  unfold ofSurd3 Surd3.val
  split
  · rename_i h; simp [val_ofSurd2, h, Surd2.val, Surd1.val]
  · simp [val, val_ofSurd2, val_root3]

theorem val_root10_num {x : Rat} (h : 0 ≤ x) :
    (root10 x.num.toNat (x.den - 1)).val = (10 : ℝ) ^ (x : ℝ) := by
  have h1 : x.den - 1 + 1 = x.den := Nat.sub_add_cancel x.den_pos
  have h2 : ((x.num.toNat : ℕ) : ℝ) = x.num := by
    exact_mod_cast congrArg (fun i : ℤ => (i : ℝ)) (Int.toNat_of_nonneg (Rat.num_nonneg.mpr h))
  have h3 : (x.num : ℝ) / x.den = x := by exact_mod_cast Rat.num_div_den x
  rw [val, h1, h2, h3]

theorem val_ofTenPow (x : Rat) : (ofTenPow x).val = (10 : ℝ) ^ (x : ℝ) := by
  unfold ofTenPow
  split
  · exact val_root10_num ‹_›
  · rename_i h
    have := val_root10_num (x := -x) (by linarith)
    rw [Rat.neg_den] at this
    rw [val, this, ← Real.rpow_neg (by norm_num)]
    push_cast
    rw [neg_neg]

/-- The expression stands for the same number. -/
theorem val_ofExact : ∀ x : ExactReal, (ofExact x).val = x.val
  | .alg x => val_ofSurd3 x
  | .pow10 x => val_ofTenPow x
  | .sqrt x => by rw [ofExact, val, val_ofExact x]; rfl
  | .add x y => by rw [ofExact, val, val_ofExact x, val_ofExact y]; rfl
  | .mul x y => by rw [ofExact, val, val_ofExact x, val_ofExact y]; rfl
  | .div x y => by rw [ofExact, val, val, val_ofExact x, val_ofExact y, ← div_eq_mul_inv]; rfl

end Radical

end Sys2Proof
end

