-- ==== Sys2Proof/Laws/Exact.lean ====
section
/-!
SUPPORT. The exact arithmetic of Machine/Exact.lean against the real numbers its data stand for:
every operation has the value the rule asks for, and every decided sign is the sign of that value.
-/

namespace Sys2Proof

/-! ### The three square roots -/

theorem root1_sq : √(2 : ℝ) * √2 = 2 := Real.mul_self_sqrt (by norm_num)

theorem root2_sq : √(2 + √2 : ℝ) * √(2 + √2) = 2 + √2 := Real.mul_self_sqrt (by positivity)

theorem root3_sq : √(2 + √(2 + √2) : ℝ) * √(2 + √(2 + √2)) = 2 + √(2 + √2) :=
  Real.mul_self_sqrt (by positivity)

/-! ### Values of field elements -/

@[simp] theorem Surd1.val_ofRat (q : Rat) : (Surd1.ofRat q).val = q := by
  simp [Surd1.ofRat, Surd1.val]

@[simp] theorem Surd2.val_ofRat (q : Rat) : (Surd2.ofRat q).val = q := by
  simp [Surd2.ofRat, Surd2.val]

@[simp] theorem Surd3.val_ofRat (q : Rat) : (Surd3.ofRat q).val = q := by
  simp [Surd3.ofRat, Surd3.val]

@[simp] theorem Surd1.val_add (x y : Surd1) : (x.add y).val = x.val + y.val := by
  simp only [Surd1.add, Surd1.val]; push_cast; ring

@[simp] theorem Surd2.val_add (x y : Surd2) : (x.add y).val = x.val + y.val := by
  simp only [Surd2.add, Surd2.val, Surd1.val_add]; ring

@[simp] theorem Surd3.val_add (x y : Surd3) : (x.add y).val = x.val + y.val := by
  simp only [Surd3.add, Surd3.val, Surd2.val_add]; ring

@[simp] theorem Surd1.val_neg (x : Surd1) : x.neg.val = -x.val := by
  simp only [Surd1.neg, Surd1.val]; push_cast; ring

@[simp] theorem Surd2.val_neg (x : Surd2) : x.neg.val = -x.val := by
  simp only [Surd2.neg, Surd2.val, Surd1.val_neg]; ring

@[simp] theorem Surd3.val_neg (x : Surd3) : x.neg.val = -x.val := by
  simp only [Surd3.neg, Surd3.val, Surd2.val_neg]; ring

@[simp] theorem Surd1.val_mul (x y : Surd1) : (x.mul y).val = x.val * y.val := by
  simp only [Surd1.mul, Surd1.val]; push_cast
  linear_combination -(x.b : ℝ) * y.b * root1_sq

@[simp] theorem Surd1.val_mulD (x : Surd1) : x.mulD.val = x.val * (2 + √2) := by
  simp only [Surd1.mulD, Surd1.val]; push_cast
  linear_combination -(x.b : ℝ) * root1_sq

@[simp] theorem Surd2.val_mul (x y : Surd2) : (x.mul y).val = x.val * y.val := by
  simp only [Surd2.mul, Surd2.val, Surd1.val_add, Surd1.val_mul, Surd1.val_mulD]
  linear_combination -x.b.val * y.b.val * root2_sq

@[simp] theorem Surd2.val_mulD (x : Surd2) : x.mulD.val = x.val * (2 + √(2 + √2)) := by
  simp only [Surd2.mulD, Surd2.val, Surd1.val_add, Surd1.val_mulD]
  linear_combination -x.b.val * root2_sq

@[simp] theorem Surd3.val_mul (x y : Surd3) : (x.mul y).val = x.val * y.val := by
  simp only [Surd3.mul, Surd3.val, Surd2.val_add, Surd2.val_mul, Surd2.val_mulD]
  linear_combination -x.b.val * y.b.val * root3_sq

theorem Surd3.val_of_toRat {x : Surd3} {q : Rat} (h : x.toRat = some q) : x.val = q := by
  unfold Surd3.toRat at h
  split at h
  · rename_i hx
    rw [hx, Surd3.val_ofRat, ← Option.some.inj h]
  · cases h

/-! ### Signs of field elements -/

theorem ratSign_eq (q : Rat) : SignType.sign (q : ℝ) = ratSign q := by
  unfold ratSign
  rcases lt_trichotomy q 0 with h | h | h
  · rw [if_neg (by exact not_lt.mpr h.le), if_pos h, sign_neg (by exact_mod_cast h)]
  · simp [h]
  · rw [if_pos h, sign_pos (by exact_mod_cast h)]

/-- The sign of `a + b √d` from three signs. -/
theorem sign_surd {a b r : ℝ} (hr : 0 < r) :
    SignType.sign (a + b * r) =
      surdSign (SignType.sign a) (SignType.sign b) (SignType.sign (a * a - b * b * (r * r))) := by
  have hp : a * a - b * b * (r * r) = (a + b * r) * (a - b * r) := by ring
  rcases lt_trichotomy a 0 with ha | rfl | ha
  · rcases lt_trichotomy b 0 with hb | rfl | hb
    · have : a + b * r < 0 := by nlinarith [mul_pos_of_neg_of_neg hb (neg_neg_of_pos hr)]
      simp [surdSign, sign_neg ha, sign_neg hb, sign_neg this]
    · simp [surdSign, sign_neg ha]
    · have : a - b * r < 0 := by nlinarith [mul_pos hb hr]
      rw [hp, sign_mul, sign_neg this, sign_neg ha, sign_pos hb]
      simp [surdSign]
  · rcases lt_trichotomy b 0 with hb | rfl | hb
    · have : b * r < 0 := mul_neg_of_neg_of_pos hb hr
      simp [surdSign, sign_neg hb, sign_neg this]
    · simp [surdSign]
    · have : 0 < b * r := mul_pos hb hr
      simp [surdSign, sign_pos hb, sign_pos this]
  · rcases lt_trichotomy b 0 with hb | rfl | hb
    · have : 0 < a - b * r := by nlinarith [mul_neg_of_neg_of_pos hb hr]
      rw [hp, sign_mul, sign_pos this, sign_pos ha, sign_neg hb]
      simp [surdSign]
    · simp [surdSign, sign_pos ha]
    · have : 0 < a + b * r := by positivity
      simp [surdSign, sign_pos ha, sign_pos hb, sign_pos this]

theorem Surd1.sign_eq (x : Surd1) : SignType.sign x.val = x.sign := by
  unfold Surd1.val Surd1.sign
  rw [sign_surd (by positivity), root1_sq, ratSign_eq, ratSign_eq, ← ratSign_eq (_ - _)]
  congr 2; push_cast; ring

theorem Surd2.sign_eq (x : Surd2) : SignType.sign x.val = x.sign := by
  unfold Surd2.val Surd2.sign
  rw [sign_surd (by positivity), root2_sq, Surd1.sign_eq, Surd1.sign_eq,
    ← Surd1.sign_eq (Surd1.add _ _)]
  simp only [Surd1.val_add, Surd1.val_mul, Surd1.val_neg, Surd1.val_mulD]
  congr 2

theorem Surd3.sign_eq (x : Surd3) : SignType.sign x.val = x.sign := by
  unfold Surd3.val Surd3.sign
  rw [sign_surd (by positivity), root3_sq, Surd2.sign_eq, Surd2.sign_eq,
    ← Surd2.sign_eq (Surd2.add _ _)]
  simp only [Surd2.val_add, Surd2.val_mul, Surd2.val_neg, Surd2.val_mulD]
  congr 2

/-! ### The sine table -/

theorem sinEighth_val (j : Nat) (h : j ≤ 8) :
    (sinEighth j).val = Real.sin (Real.pi * j / 16) := by
  have c16 := Real.cos_pi_div_sixteen
  have c8 := Real.cos_pi_div_eight
  have c4 := Real.cos_pi_div_four
  have key : ∀ k : ℕ, k ≤ 8 → Real.sin (Real.pi * (8 - k : ℕ) / 16) = Real.cos (k * (Real.pi / 16)) := by
    intro k hk
    rw [← Real.cos_pi_div_two_sub]
    congr 1
    push_cast [hk]
    ring
  have e1 := root1_sq
  have e2 := root2_sq
  have e3 := root3_sq
  have d1 : Real.cos (1 * (Real.pi / 16)) = √(2 + √(2 + √2)) / 2 := by rw [one_mul, c16]
  have d2 : Real.cos (2 * (Real.pi / 16)) = √(2 + √2) / 2 := by
    rw [← c8]; congr 1; ring
  have d4 : Real.cos (4 * (Real.pi / 16)) = √2 / 2 := by rw [← c4]; congr 1; ring
  have d3 : Real.cos (3 * (Real.pi / 16)) = (√(2 + √2) - 1) * √(2 + √(2 + √2)) / 2 := by
    rw [Real.cos_three_mul, ← one_mul (Real.pi / 16), d1]
    linear_combination (√(2 + √(2 + √2)) / 2) * e3
  have d6 : Real.cos (6 * (Real.pi / 16)) = (√2 - 1) * √(2 + √2) / 2 := by
    rw [show (6 : ℝ) * (Real.pi / 16) = 3 * (2 * (Real.pi / 16)) by ring, Real.cos_three_mul, d2]
    linear_combination (√(2 + √2) / 2) * e2
  have d5 : Real.cos (5 * (Real.pi / 16)) =
      (1 + √2 - √(2 + √2)) * √(2 + √(2 + √2)) / 2 := by
    have := Real.cos_add_cos (5 * (Real.pi / 16)) (3 * (Real.pi / 16))
    rw [show (5 * (Real.pi / 16) + 3 * (Real.pi / 16)) / 2 = 4 * (Real.pi / 16) by ring,
      show (5 * (Real.pi / 16) - 3 * (Real.pi / 16)) / 2 = 1 * (Real.pi / 16) by ring, d3, d4, d1] at this
    linear_combination this
  have d7 : Real.cos (7 * (Real.pi / 16)) =
      (-1 - √2 + √2 * √(2 + √2)) * √(2 + √(2 + √2)) / 2 := by
    have := Real.cos_add_cos (7 * (Real.pi / 16)) (5 * (Real.pi / 16))
    rw [show (7 * (Real.pi / 16) + 5 * (Real.pi / 16)) / 2 = 6 * (Real.pi / 16) by ring,
      show (7 * (Real.pi / 16) - 5 * (Real.pi / 16)) / 2 = 1 * (Real.pi / 16) by ring, d5, d6, d1] at this
    linear_combination this
  obtain ⟨k, hk, rfl⟩ : ∃ k, k ≤ 8 ∧ j = 8 - k := ⟨8 - j, by omega, by omega⟩
  rw [key k hk]
  interval_cases k <;>
    simp only [sinEighth, Surd3.val, Surd2.val, Surd1.val, Nat.sub_self, Nat.reduceSub, Nat.cast_ofNat,
      Nat.cast_one, Nat.cast_zero]
  · simp
  · rw [d1]; push_cast; ring
  · rw [d2]; push_cast; ring
  · rw [d3]; push_cast; ring
  · rw [d4]; push_cast; ring
  · rw [d5]; push_cast; ring
  · rw [d6]; push_cast; ring
  · rw [d7]; push_cast; ring
  · rw [show (8 : ℝ) * (Real.pi / 16) = Real.pi / 2 by ring, Real.cos_pi_div_two]; simp

theorem sinTurn32_val (j : Nat) (h : j < 32) :
    (sinTurn32 j).val = Real.sin (Real.pi * j / 16) := by
  unfold sinTurn32
  split
  · exact sinEighth_val j (by omega)
  split
  · rw [sinEighth_val _ (by omega), ← Real.sin_pi_sub]
    congr 1; push_cast [show j ≤ 16 by omega]; ring
  split
  · rw [Surd3.val_neg, sinEighth_val _ (by omega), ← Real.sin_add_pi]
    congr 1; push_cast [show 16 ≤ j by omega]; ring
  · rw [Surd3.val_neg, sinEighth_val _ (by omega), ← Real.sin_neg, ← Real.sin_add_two_pi]
    congr 1; push_cast [show j ≤ 32 by omega]; ring

namespace ExactReal

/-! ### Values of the reduced operations -/

@[simp] theorem val_alg (x : Surd3) : (ExactReal.alg x).val = x.val := rfl

@[simp] theorem val_ofRat (q : Rat) : (ofRat q).val = q := by simp [ofRat]

/-- A number written as the literal 0 is 0. -/
theorem val_of_isLitZero {x : ExactReal} (h : x.isLitZero = true) : x.val = 0 := by
  rw [beq_iff_eq.mp h]; simp

theorem val_of_isLitOne {x : ExactReal} (h : x.isLitOne = true) : x.val = 1 := by
  rw [beq_iff_eq.mp h]; simp

@[simp] theorem val_plus (x y : ExactReal) : (plus x y).val = x.val + y.val := by
  unfold plus
  split
  · rename_i h; rw [val_of_isLitZero h, zero_add]
  split
  · rename_i h; rw [val_of_isLitZero h, add_zero]
  split
  · simp
  · rfl

@[simp] theorem val_times (x y : ExactReal) : (times x y).val = x.val * y.val := by
  unfold times
  split
  · rename_i h
    rcases Bool.or_eq_true_iff.mp h with h | h <;> rw [val_of_isLitZero h] <;> simp
  split
  · rename_i h; rw [val_of_isLitOne h, one_mul]
  split
  · rename_i h; rw [val_of_isLitOne h, mul_one]
  split
  · simp
  · rfl

@[simp] theorem val_quot (x y : ExactReal) : (quot x y).val = x.val / y.val := by
  unfold quot
  split
  · rename_i h; rw [val_of_isLitZero h]; simp
  split
  · rename_i h; rw [val_of_isLitOne h, div_one]
  split
  · rename_i u v _ _
    split
    · rename_i h
      have hv : v.val * v.inv.val = 1 := by rw [← Surd3.val_mul, h]; simp
      have hne : v.val ≠ 0 := by intro h0; simp [h0] at hv
      simp only [val_alg, Surd3.val_mul]
      field_simp
      linear_combination u.val * hv
    · rfl
  · rfl

@[simp] theorem val_opp (x : ExactReal) : (opp x).val = -x.val := by
  unfold opp
  split <;> simp

@[simp] theorem val_minus (x y : ExactReal) : (minus x y).val = x.val - y.val := by
  simp [minus, sub_eq_add_neg]

@[simp] theorem val_total (l : List ExactReal) : (total l).val = (l.map val).sum := by
  induction l with
  | nil => simp [total]
  | cons x xs ih => simp only [total, List.foldr_cons, val_plus] at *; simp [ih]

/-- The sine is exact at every multiple of a 32nd of a turn. -/
theorem val_sinTurns {t : Rat} (hden : (t * 32).den = 1) :
    (sinTurns t).val = Real.sin (2 * Real.pi * t) := by
  unfold sinTurns
  have hz : (t : ℝ) * 32 = ((t * 32).num : ℝ) := by
    have h : t * 32 = ((t * 32).num : Rat) := (Rat.den_eq_one_iff _).mp hden |>.symm
    have := congrArg (fun q : Rat => (q : ℝ)) h
    push_cast at this
    exact this
  have hf : (t * 32).floor = (t * 32).num := by
    conv_lhs => rw [← (Rat.den_eq_one_iff _).mp hden]
    exact Int.floor_intCast (R := Rat) _
  rw [hf]
  generalize (t * 32).num = z at hz
  have hm : 0 ≤ z % 32 := Int.emod_nonneg _ (by norm_num)
  have hlt : z % 32 < 32 := Int.emod_lt_of_pos _ (by norm_num)
  rw [val_alg, sinTurn32_val _ (by omega)]
  have hcast : (((z % 32).toNat : ℕ) : ℝ) = ((z % 32 : ℤ) : ℝ) := by
    exact_mod_cast congrArg (fun i : ℤ => (i : ℝ)) (Int.toNat_of_nonneg hm)
  have hdiv : (z : ℝ) = 32 * ((z / 32 : ℤ) : ℝ) + ((z % 32 : ℤ) : ℝ) := by
    exact_mod_cast (Int.mul_ediv_add_emod z 32).symm
  rw [hcast, show 2 * Real.pi * (t : ℝ) =
      Real.pi * ((z % 32 : ℤ) : ℝ) / 16 + ((z / 32 : ℤ) : ℝ) * (2 * Real.pi) by
    linear_combination (Real.pi / 16) * (hz.trans hdiv), Real.sin_add_int_mul_two_pi]

@[simp] theorem val_tenPow (x : Rat) : (tenPow x).val = (10 : ℝ) ^ (x : ℝ) := by
  unfold tenPow
  split
  · rename_i h
    have hx : x = (x.num : Rat) := ((Rat.den_eq_one_iff _).mp h).symm
    rw [val_ofRat]
    conv_rhs => rw [hx]
    push_cast
    rw [Real.rpow_intCast]
  · rfl

theorem ratSqrt_spec {q r : Rat} (h : ratSqrt q = some r) : 0 ≤ r ∧ r * r = q := by
  unfold ratSqrt at h
  simp only at h
  split at h
  · rename_i hq
    cases h
    exact ⟨by rw [Rat.mkRat_eq_div]; positivity, hq⟩
  · cases h

theorem fieldSqrt_val {q : Rat} {r : Surd3} (h : fieldSqrt q = some r) : r.val = √(q : ℝ) := by
  unfold fieldSqrt at h
  split at h
  · rename_i r' hr
    obtain ⟨h0, h1⟩ := ratSqrt_spec hr
    cases h
    rw [← h1]; push_cast
    rw [Surd3.val_ofRat, Real.sqrt_mul_self (by exact_mod_cast h0)]
  · split at h
    · rename_i r' hr
      obtain ⟨h0, h1⟩ := ratSqrt_spec hr
      cases h
      have hq : (q : ℝ) = (r' * r') * 2 := by
        have : q = r' * r' * 2 := by rw [h1]; ring
        exact_mod_cast this
      rw [hq, Real.sqrt_mul (mul_self_nonneg _), Real.sqrt_mul_self (by exact_mod_cast h0)]
      simp [Surd3.val, Surd2.val, Surd1.val]
    · cases h

@[simp] theorem val_root (x : ExactReal) : (root x).val = √x.val := by
  unfold root
  split
  · split
    · rename_i hq
      split
      · rename_i hr
        rw [val_alg, fieldSqrt_val hr, val_alg, Surd3.val_of_toRat hq]
      · rfl
    · rfl
  · rfl

/-! ### Signs -/

/-- A sign `exactSign` gives is the sign of the value. -/
theorem exactSign_sound : ∀ (x : ExactReal) (s : SignType), exactSign x = some s →
    SignType.sign x.val = s := by
  intro x
  induction x with
  | alg x => intro s h; simp only [exactSign, Option.some.injEq] at h; rw [← h]; exact x.sign_eq
  | pow10 x =>
    intro s h
    simp only [exactSign, Option.some.injEq] at h
    rw [← h]
    exact sign_pos (Real.rpow_pos_of_pos (by norm_num) _)
  | sqrt x ih =>
    intro s h
    simp only [exactSign] at h
    split at h
    · rename_i s' hx
      have := ih s' hx
      simp only [Option.some.injEq] at h
      rw [← h]
      rcases lt_trichotomy x.val 0 with hv | hv | hv
      · rw [sign_neg hv] at this
        simp [ExactReal.val, Real.sqrt_eq_zero_of_nonpos hv.le, ← this]
      · rw [hv] at this
        simp [ExactReal.val, hv, ← this]
      · rw [sign_pos hv] at this
        simp [ExactReal.val, sign_pos (Real.sqrt_pos.mpr hv), ← this]
    · cases h
  | add x y ihx ihy =>
    intro s h
    simp only [exactSign] at h
    split at h
    · rename_i s' t' hx hy
      have h1 := ihx s' hx
      have h2 := ihy t' hy
      show SignType.sign (x.val + y.val) = s
      split at h
      · rename_i he
        cases h
        rcases lt_trichotomy x.val 0 with hv | hv | hv <;> rcases lt_trichotomy y.val 0 with hw | hw | hw <;>
          simp only [sign_neg, sign_pos, sign_zero, hv, hw] at h1 h2 <;> subst h1 <;>
          first
          | (rw [← h2] at he; exact absurd he (by decide))
          | (rw [sign_neg (by linarith)])
          | (rw [sign_pos (by linarith)])
          | simp [hv, hw]
      · split at h
        · rename_i h0
          cases h
          rw [sign_eq_zero_iff.mp (h1.trans h0), zero_add, h2]
        · split at h
          · rename_i h0
            cases h
            rw [sign_eq_zero_iff.mp (h2.trans h0), add_zero, h1]
          · cases h
    · cases h
  | mul x y ihx ihy =>
    intro s h
    simp only [exactSign] at h
    split at h
    · rename_i s' t' hx hy
      cases h
      show SignType.sign (x.val * y.val) = _
      rw [sign_mul, ihx s' hx, ihy t' hy]
    · cases h
  | div x y ihx ihy =>
    intro s h
    simp only [exactSign] at h
    split at h
    · rename_i s' t' hx hy
      cases h
      show SignType.sign (x.val / y.val) = _
      have hinv : SignType.sign (y.val)⁻¹ = SignType.sign y.val := by
        rcases lt_trichotomy y.val 0 with hv | hv | hv
        · rw [sign_neg hv, sign_neg (inv_lt_zero.mpr hv)]
        · simp [hv]
        · rw [sign_pos hv, sign_pos (inv_pos.mpr hv)]
      rw [div_eq_mul_inv, sign_mul, hinv, ihx s' hx, ihy t' hy]
    · cases h

/-! ### Enclosures -/

/-- An enclosure holds a real number. -/
def Enclosure.holds (e : Enclosure) (x : ℝ) : Prop := (e.lo : ℝ) ≤ x ∧ x ≤ (e.hi : ℝ)

theorem toNat_num_div (q : Rat) : (q : ℝ) ≤ (q.num.toNat : ℝ) / q.den ∧
    (0 < q → (q : ℝ) = (q.num.toNat : ℝ) / q.den) := by
  have hden : (0 : ℝ) < (q.den : ℝ) := by exact_mod_cast q.den_pos
  have hq : (q : ℝ) = (q.num : ℝ) / q.den := by exact_mod_cast (Rat.num_div_den q).symm
  have hle : (q.num : ℝ) ≤ ((q.num.toNat : ℕ) : ℝ) := by exact_mod_cast Int.self_le_toNat q.num
  constructor
  · rw [hq]; gcongr
  · intro h
    have hn : ((q.num.toNat : ℕ) : ℤ) = q.num := Int.toNat_of_nonneg (Rat.num_nonneg.mpr h.le)
    rw [hq]; congr 1; exact_mod_cast hn.symm

/-- The integer part of a root: `s² ≤ m d 4^p < (s + 1)²`. -/
theorem sqrtBelow_le (p : Nat) (q : Rat) : ((sqrtBelow p q : Rat) : ℝ) ≤ √(q : ℝ) := by
  have hden : (0 : ℝ) < (q.den : ℝ) := by exact_mod_cast q.den_pos
  rcases le_or_gt q 0 with h | h
  · have hn : q.num.toNat = 0 := by
      have := Rat.num_nonpos.mpr h; omega
    simp [sqrtBelow, hn]
  · apply Real.le_sqrt_of_sq_le
    rw [(toNat_num_div q).2 h]
    unfold sqrtBelow
    have hs : ((Nat.sqrt (q.num.toNat * q.den * 4 ^ p) : ℕ) : ℝ) ^ 2 ≤
        (q.num.toNat : ℝ) * q.den * 4 ^ p := by
      exact_mod_cast Nat.sqrt_le' _
    rw [Rat.mkRat_eq_div]; push_cast
    rw [div_pow, div_le_div_iff₀ (by positivity) hden]
    have h4 : (4 : ℝ) ^ p = (2 ^ p) ^ 2 := by rw [← pow_mul, mul_comm, pow_mul]; norm_num
    rw [h4] at hs
    nlinarith [hs]

theorem le_sqrtAbove (p : Nat) (q : Rat) : √(q : ℝ) ≤ ((sqrtAbove p q : Rat) : ℝ) := by
  have hden : (0 : ℝ) < (q.den : ℝ) := by exact_mod_cast q.den_pos
  unfold sqrtAbove
  rw [Rat.mkRat_eq_div]; push_cast
  rw [Real.sqrt_le_iff]
  refine ⟨by positivity, (toNat_num_div q).1.trans ?_⟩
  have hs : (q.num.toNat : ℝ) * q.den * 4 ^ p ≤
      (((Nat.sqrt (q.num.toNat * q.den * 4 ^ p) : ℕ) : ℝ) + 1) ^ 2 := by
    exact_mod_cast (Nat.lt_succ_sqrt' _).le
  have h4 : (4 : ℝ) ^ p = (2 ^ p) ^ 2 := by rw [← pow_mul, mul_comm, pow_mul]; norm_num
  rw [h4] at hs
  rw [div_pow, div_le_div_iff₀ hden (by positivity)]
  nlinarith [hs]

theorem Enclosure.holds_ofRat (q : Rat) : (Enclosure.ofRat q).holds q := ⟨le_refl _, le_refl _⟩

theorem Enclosure.holds_add {e f : Enclosure} {x y : ℝ} (hx : e.holds x) (hy : f.holds y) :
    (e.add f).holds (x + y) := by
  unfold Enclosure.holds Enclosure.add at *
  push_cast
  exact ⟨by linarith [hx.1, hy.1], by linarith [hx.2, hy.2]⟩

theorem Enclosure.holds_sqrt {e : Enclosure} {x : ℝ} (p : Nat) (hx : e.holds x) :
    (e.sqrt p).holds (√x) :=
  ⟨(sqrtBelow_le p _).trans (Real.sqrt_le_sqrt hx.1), (Real.sqrt_le_sqrt hx.2).trans (le_sqrtAbove p _)⟩

/-- A product lies between the products with the ends of one factor. -/
theorem mul_between {a b x k : ℝ} (h1 : a ≤ x) (h2 : x ≤ b) :
    min (a * k) (b * k) ≤ x * k ∧ x * k ≤ max (a * k) (b * k) := by
  rcases le_total 0 k with hk | hk
  · exact ⟨(min_le_left _ _).trans (by nlinarith), le_trans (by nlinarith) (le_max_right _ _)⟩
  · exact ⟨(min_le_right _ _).trans (by nlinarith), le_trans (by nlinarith) (le_max_left _ _)⟩

theorem Enclosure.holds_mul {e f : Enclosure} {x y : ℝ} (hx : e.holds x) (hy : f.holds y) :
    (e.mul f).holds (x * y) := by
  have h := mul_between (k := y) hx.1 hx.2
  have hl := mul_between (k := (e.lo : ℝ)) hy.1 hy.2
  have hh := mul_between (k := (e.hi : ℝ)) hy.1 hy.2
  simp only [mul_comm _ ((e.lo : ℝ))] at hl
  simp only [mul_comm _ ((e.hi : ℝ))] at hh
  unfold Enclosure.holds Enclosure.mul
  push_cast
  refine ⟨le_trans ?_ h.1, h.2.trans ?_⟩
  · exact le_min ((min_le_left _ _).trans hl.1) ((min_le_right _ _).trans hh.1)
  · exact max_le (hl.2.trans (le_max_left _ _)) (hh.2.trans (le_max_right _ _))

theorem Enclosure.holds_inv {e i : Enclosure} {x : ℝ} (hx : e.holds x) (hi : e.inv = some i) :
    i.holds x⁻¹ := by
  unfold Enclosure.inv at hi
  split at hi
  · rename_i h
    cases hi
    unfold Enclosure.holds
    push_cast
    rw [← one_div]
    rcases h with h | h
    · have h' : (0 : ℝ) < e.lo := by exact_mod_cast h
      exact ⟨one_div_le_one_div_of_le (h'.trans_le hx.1) hx.2, one_div_le_one_div_of_le h' hx.1⟩
    · have h' : (e.hi : ℝ) < 0 := by exact_mod_cast h
      exact ⟨one_div_le_one_div_of_neg_of_le h' hx.2,
        one_div_le_one_div_of_neg_of_le (hx.2.trans_lt h') hx.1⟩
  · cases hi

theorem Enclosure.holds_root1 (p : Nat) : (Enclosure.root1 p).holds (√2) := by
  have := Enclosure.holds_sqrt p (Enclosure.holds_ofRat 2)
  simpa [Enclosure.root1] using this

theorem Enclosure.holds_root2 (p : Nat) : (Enclosure.root2 p).holds (√(2 + √2)) := by
  have := Enclosure.holds_sqrt p
    (Enclosure.holds_add (Enclosure.holds_ofRat 2) (Enclosure.holds_root1 p))
  simpa [Enclosure.root2] using this

theorem Enclosure.holds_root3 (p : Nat) : (Enclosure.root3 p).holds (√(2 + √(2 + √2))) := by
  have := Enclosure.holds_sqrt p
    (Enclosure.holds_add (Enclosure.holds_ofRat 2) (Enclosure.holds_root2 p))
  simpa [Enclosure.root3] using this

theorem Enclosure.holds_surd1 (p : Nat) (x : Surd1) : (Enclosure.ofSurd1 p x).holds x.val :=
  Enclosure.holds_add (Enclosure.holds_ofRat _)
    (Enclosure.holds_mul (Enclosure.holds_ofRat _) (Enclosure.holds_root1 p))

theorem Enclosure.holds_surd2 (p : Nat) (x : Surd2) : (Enclosure.ofSurd2 p x).holds x.val :=
  Enclosure.holds_add (Enclosure.holds_surd1 p _)
    (Enclosure.holds_mul (Enclosure.holds_surd1 p _) (Enclosure.holds_root2 p))

theorem Enclosure.holds_surd3 (p : Nat) (x : Surd3) : (Enclosure.ofSurd3 p x).holds x.val :=
  Enclosure.holds_add (Enclosure.holds_surd2 p _)
    (Enclosure.holds_mul (Enclosure.holds_surd2 p _) (Enclosure.holds_root3 p))

theorem Enclosure.holds_tenPow (x : Rat) : (Enclosure.tenPow x).holds ((10 : ℝ) ^ (x : ℝ)) := by
  have hd : 0 < x.den := x.den_pos
  have hdz : (0 : ℤ) < (x.den : ℤ) := by exact_mod_cast hd
  set w := x.num / (x.den : Int) with hw
  set r := (x.num % (x.den : Int)).toNat with hr
  set n := 10 ^ r * 2 ^ (precision * x.den) with hn
  set m := rootBits x.den n (precision + 4) 0 with hm
  have hrz : ((r : ℕ) : ℤ) = x.num % (x.den : Int) :=
    Int.toNat_of_nonneg (Int.emod_nonneg _ hdz.ne')
  have hrd : r < x.den := by
    have := Int.emod_lt_of_pos x.num hdz
    omega
  have hspec : m ^ x.den ≤ n ∧ n < (m + 1) ^ x.den := by
    refine rootBits_spec x.den n (precision + 4) 0 (by simp [hd.ne']) ?_
    rw [hn, zero_add, ← pow_mul, show (precision + 4) * x.den = 4 * x.den + precision * x.den by ring,
      pow_add, pow_mul 2 4]
    have : 10 ^ r < (2 ^ 4) ^ x.den := by
      calc 10 ^ r ≤ 16 ^ r := Nat.pow_le_pow_left (by norm_num) r
        _ < 16 ^ x.den := Nat.pow_lt_pow_right (by norm_num) hrd
    exact Nat.mul_lt_mul_of_pos_right this (by positivity)
  have hx : (x : ℝ) = (w : ℝ) + (r : ℝ) / x.den := by
    have h1 : (x.num : ℝ) = x.den * (w : ℝ) + (r : ℝ) := by
      have h := (Int.mul_ediv_add_emod x.num (x.den : Int)).symm
      rw [← hrz] at h
      exact_mod_cast h
    have h2 : (x : ℝ) = (x.num : ℝ) / x.den := by exact_mod_cast (Rat.num_div_den x).symm
    have h3 : (x.den : ℝ) ≠ 0 := by exact_mod_cast hd.ne'
    rw [h2, h1]; field_simp
  have hpow : (10 : ℝ) ^ (x : ℝ) = (10 : ℝ) ^ ((r : ℝ) / x.den) * (10 : ℝ) ^ w := by
    rw [hx, Real.rpow_add (by norm_num), Real.rpow_intCast, mul_comm]
  set t := (10 : ℝ) ^ ((r : ℝ) / x.den) with ht
  have ht0 : 0 < t := Real.rpow_pos_of_pos (by norm_num) _
  have htd : t ^ x.den = (10 : ℝ) ^ r := by
    rw [ht, ← Real.rpow_natCast, ← Real.rpow_mul (by norm_num),
      div_mul_cancel₀ _ (by exact_mod_cast hd.ne'), Real.rpow_natCast]
  have hscale : (t * 2 ^ precision) ^ x.den = (n : ℝ) := by
    rw [mul_pow, htd, hn]; push_cast; rw [← pow_mul]
  have hlo : (m : ℝ) ≤ t * 2 ^ precision := by
    refine le_of_pow_le_pow_left₀ hd.ne' (by positivity) ?_
    rw [hscale]; exact_mod_cast hspec.1
  have hhi : t * 2 ^ precision ≤ (m : ℝ) + 1 := by
    refine le_of_pow_le_pow_left₀ hd.ne' (by positivity) ?_
    rw [hscale]; exact_mod_cast hspec.2.le
  have h2 : (0 : ℝ) < 2 ^ precision := by positivity
  have hw0 : (0 : ℝ) < (10 : ℝ) ^ w := by positivity
  show ((mkRat m (2 ^ precision) * (10 : Rat) ^ w : Rat) : ℝ) ≤ _ ∧
    _ ≤ ((mkRat (m + 1) (2 ^ precision) * (10 : Rat) ^ w : Rat) : ℝ)
  rw [hpow, Rat.mkRat_eq_div, Rat.mkRat_eq_div]
  push_cast
  exact ⟨mul_le_mul_of_nonneg_right ((div_le_iff₀ h2).mpr hlo) hw0.le,
    mul_le_mul_of_nonneg_right ((le_div_iff₀ h2).mpr hhi) hw0.le⟩

/-- An enclosure of an expression holds its value. -/
theorem enclose_sound : ∀ (x : ExactReal) (e : Enclosure), enclose x = some e → e.holds x.val := by
  intro x
  induction x with
  | alg x => intro e h; cases h; exact Enclosure.holds_surd3 _ x
  | pow10 x => intro e h; cases h; exact Enclosure.holds_tenPow x
  | sqrt x ih =>
    intro e h
    simp only [enclose] at h
    split at h
    · rename_i e' hx
      cases h
      exact Enclosure.holds_sqrt _ (ih e' hx)
    · cases h
  | add x y ihx ihy =>
    intro e h
    simp only [enclose] at h
    split at h
    · rename_i e' f' hx hy
      cases h
      exact Enclosure.holds_add (ihx e' hx) (ihy f' hy)
    · cases h
  | mul x y ihx ihy =>
    intro e h
    simp only [enclose] at h
    split at h
    · rename_i e' f' hx hy
      cases h
      exact Enclosure.holds_mul (ihx e' hx) (ihy f' hy)
    · cases h
  | div x y ihx ihy =>
    intro e h
    simp only [enclose] at h
    split at h
    · rename_i e' f' hx hy
      split at h
      · rename_i i hi
        cases h
        show (e'.mul i).holds (x.val / y.val)
        rw [div_eq_mul_inv]
        exact Enclosure.holds_mul (ihx e' hx) (Enclosure.holds_inv (ihy f' hy) hi)
      · cases h
    · cases h

/-- A decided sign is the sign of the value. -/
theorem decidedSign_sound {x : ExactReal} {s : SignType} (h : decidedSign x = some s) :
    SignType.sign x.val = s := by
  unfold decidedSign at h
  split at h
  · rename_i s' hs
    cases h
    exact exactSign_sound x _ hs
  · split at h
    · rename_i e he
      have hv := enclose_sound x e he
      split at h
      · rename_i hlo
        cases h
        exact sign_pos ((by exact_mod_cast hlo : (0 : ℝ) < e.lo).trans_le hv.1)
      · split at h
        · rename_i hhi
          cases h
          exact sign_neg (hv.2.trans_lt (by exact_mod_cast hhi))
        · cases h
    · cases h

/-- A sign is the sign of the value, for every number. -/
theorem sgn_eq (x : ExactReal) : x.sgn = SignType.sign x.val := by
  unfold sgn
  split
  · rename_i s h
    exact (decidedSign_sound h).symm
  · rw [Radical.sign_eq, Radical.val_ofExact]

/-- Two numbers compare as their values do. -/
theorem greater_iff (x y : ExactReal) : greater x y = true ↔ y.val < x.val := by
  rw [greater, sgn_eq, beq_iff_eq, sign_eq_one_iff, val_minus, sub_pos]

end ExactReal

end Sys2Proof
end

