-- ==== Sys2Proof/Laws/Ops.lean ====
section
/-!
SUPPORT. One lemma for each shared operation of Machine/Ops.lean and Machine/Operands.lean, saying once
all it can do.
-/

namespace Sys2Proof.Machine

/-! ### Ending an operation -/

@[simp] theorem commit_ok (s s' : State) (r : Result) :
    commit s (.ok (s', r)) = .next (s'.after (.ok r)) := rfl

@[simp] theorem commit_error (s : State) (e : Exc) : commit s (.error e) = .next (s.raise e) := rfl

@[simp] theorem answer_ok (s : State) (r : Result) :
    answer s (.ok r) = .next (s.after (.ok r)) := rfl

@[simp] theorem answer_error (s : State) (e : Exc) : answer s (.error e) = .next (s.raise e) := rfl

/-- `commit` answers the committed state with its result, or the exception from the old state. -/
theorem commit_next {s t : State} {x : Except Exc (State × Result)} (h : commit s x = .next t) :
    (∃ s' r, x = .ok (s', r) ∧ t = s'.after (.ok r)) ∨ (∃ e, x = .error e ∧ t = s.raise e) := by
  rcases x with e | ⟨s', r⟩
  · exact .inr ⟨e, rfl, by simpa using h.symm⟩
  · exact .inl ⟨s', r, rfl, by simpa using h.symm⟩

/-- `answer` answers the old state with a result, or the exception from it. -/
theorem answer_next {s t : State} {x : Except Exc Result} (h : answer s x = .next t) :
    (∃ r, x = .ok r ∧ t = s.after (.ok r)) ∨ (∃ e, x = .error e ∧ t = s.raise e) := by
  rcases x with e | r
  · exact .inr ⟨e, rfl, by simpa using h.symm⟩
  · exact .inl ⟨r, rfl, by simpa using h.symm⟩

/-! ### Registers and typed values -/

@[simp] theorem whenSet_some {α : Type} (a : α) : whenSet (some a) = .ok a := rfl
@[simp] theorem whenSet_none {α : Type} : whenSet (none : Option α) = .error .configUnset := rfl

theorem whenSet_ok {α : Type} {x : Option α} {a : α} (h : whenSet x = .ok a) : x = some a := by
  cases x with
  | none => cases h
  | some b => cases h; rfl

theorem whenSet_error {α : Type} {x : Option α} {e : Exc} (h : whenSet x = .error e) :
    e = .configUnset := by
  cases x with
  | none => cases h; rfl
  | some b => cases h

@[simp] theorem finiteValue_finite {α : Type} (a : α) : finiteValue (.finite a) = .ok a := rfl

/-- A port carries a finite value, or is refused. -/
theorem finiteValue_cases {α : Type} (p : Port α) :
    (∃ a, p = .finite a ∧ finiteValue p = .ok a) ∨
      ((∀ a, p ≠ .finite a) ∧ finiteValue p = .error .operandRange) := by
  cases p <;> simp [finiteValue]

theorem finiteValue_error {α : Type} {p : Port α} {e : Exc} (h : finiteValue p = .error e) :
    e = .operandRange := by
  cases p <;> simp_all [finiteValue]

/-- `legalNat` accepts exactly the integers from 0 to its bound. -/
theorem legalNat_ok {max n : Nat} {v : Port Rat} (h : legalNat max v = .ok n) :
    v = .finite (n : Rat) ∧ n ≤ max := by
  unfold legalNat at h
  split at h
  · rename_i q
    split at h
    · rename_i hq
      obtain ⟨hden, h0, hmax⟩ := hq
      cases h
      have hq' : q = (q.num : Rat) := ((Rat.den_eq_one_iff q).mp hden).symm
      refine ⟨?_, by omega⟩
      congr 1
      conv_lhs => rw [hq']
      exact_mod_cast congrArg (fun z : Int => (z : Rat)) (Int.toNat_of_nonneg h0).symm
    · cases h
  all_goals cases h

@[simp] theorem legalNat_nat (max n : Nat) : legalNat max (.finite (n : Rat)) =
    if n ≤ max then .ok n else .error .operandRange := by
  simp [legalNat]

theorem legalNat_error {max : Nat} {v : Port Rat} {e : Exc} (h : legalNat max v = .error e) :
    e = .operandRange ∧ ∀ n : Nat, n ≤ max → v ≠ .finite (n : Rat) := by
  constructor
  · unfold legalNat at h
    split at h
    · split at h <;> cases h
      rfl
    all_goals (cases h; rfl)
  · rintro n hn rfl
    simp [hn] at h

/-- CFG.WR that succeeds writes one register with a legal value. -/
theorem cfgWrite_ok {s t : State} {reg : BitVec 4} {v : Port Rat} (h : s.cfgWrite reg v = .ok t) :
    (∃ n : Nat, reg = 0 ∧ v = .finite n ∧ n ≤ 31 ∧ t = { s with df := some (BitVec.ofNat 5 n) }) ∨
    (∃ n : Nat, reg = 1 ∧ v = .finite n ∧ n ≤ 7 ∧ t = { s with ca := some (BitVec.ofNat 3 n) }) ∨
    (∃ q, reg = 2 ∧ v = .finite q ∧ 0 < q ∧ t = { s with fc := some q }) ∨
    (∃ q, reg = 3 ∧ v = .finite q ∧ t = { s with snrDb := some q }) ∨
    (∃ n : Nat, reg = 4 ∧ v = .finite n ∧ n ≤ 1 ∧
      t = { s with fading := some (if n = 0 then .rayleigh else .rician) }) ∨
    (∃ n : Sps, reg = 5 ∧ v = .finite (n.count : Rat) ∧ t = { s with sps := some n }) := by
  have hreg : ∀ k : BitVec 4, reg.toNat = k.toNat → reg = k := fun k hk => BitVec.eq_of_toNat_eq hk
  unfold State.cfgWrite at h
  split at h
  · rename_i hr
    cases hv : legalNat 31 v with
    | error e => rw [hv] at h; cases h
    | ok n =>
      rw [hv] at h; cases h
      have := legalNat_ok hv
      exact .inl ⟨n, hreg 0 hr, this.1, this.2, rfl⟩
  · rename_i hr
    cases hv : legalNat 7 v with
    | error e => rw [hv] at h; cases h
    | ok n =>
      rw [hv] at h; cases h
      have := legalNat_ok hv
      exact .inr (.inl ⟨n, hreg 1 hr, this.1, this.2, rfl⟩)
  · rename_i hr
    rcases finiteValue_cases v with ⟨q, rfl, hq⟩ | ⟨_, hq⟩ <;> rw [hq] at h
    · simp only at h
      split at h
      · cases h; exact .inr (.inr (.inl ⟨q, hreg 2 hr, rfl, ‹_›, rfl⟩))
      · cases h
    · cases h
  · rename_i hr
    rcases finiteValue_cases v with ⟨q, rfl, hq⟩ | ⟨_, hq⟩ <;> rw [hq] at h
    · cases h; exact .inr (.inr (.inr (.inl ⟨q, hreg 3 hr, rfl, rfl⟩)))
    · cases h
  · rename_i hr
    cases hv : legalNat 1 v with
    | error e => rw [hv] at h; cases h
    | ok n =>
      rw [hv] at h; cases h
      have := legalNat_ok hv
      exact .inr (.inr (.inr (.inr (.inl ⟨n, hreg 4 hr, this.1, this.2, rfl⟩))))
  · rename_i hr
    cases hv : legalNat 127 v with
    | error e => rw [hv] at h; cases h
    | ok n =>
      rw [hv] at h
      simp only at h
      split at h
      · subst n; cases h
        exact .inr (.inr (.inr (.inr (.inr ⟨.s48, hreg 5 hr, (legalNat_ok hv).1, rfl⟩))))
      · split at h
        · subst n; cases h
          exact .inr (.inr (.inr (.inr (.inr ⟨.s96, hreg 5 hr, (legalNat_ok hv).1, rfl⟩))))
        · cases h
  · cases h

/-- CFG.WR fails with OPERAND_RANGE only. -/
theorem cfgWrite_error {s : State} {reg : BitVec 4} {v : Port Rat} {e : Exc}
    (h : s.cfgWrite reg v = .error e) : e = .operandRange := by
  have hmap : ∀ {α β : Type} (x : Except Exc α) (g : α → β), x.map g = .error e → x = .error e := by
    intro α β x g hx
    cases x with
    | error e' => cases hx; rfl
    | ok a => cases hx
  unfold State.cfgWrite at h
  split at h
  · exact (legalNat_error (hmap _ _ h)).1
  · exact (legalNat_error (hmap _ _ h)).1
  · split at h
    · split at h <;> cases h
      rfl
    · rename_i hv; cases h; exact finiteValue_error hv
  · exact finiteValue_error (hmap _ _ h)
  · exact (legalNat_error (hmap _ _ h)).1
  · split at h
    · split at h
      · cases h
      · split at h <;> cases h
        rfl
    · rename_i hv; cases h; exact (legalNat_error hv).1
  · cases h; rfl

/-! ### Signals -/

@[simp] theorem samples_finite (x : List ExactReal) : samples (x.map .finite) = .ok x := by
  induction x with
  | nil => rfl
  | cons a as ih => simp [samples, ih, Except.map]

/-- The samples of a signal are all finite, or one is not. -/
theorem samples_cases (p : List (Port ExactReal)) :
    (∃ x : List ExactReal, p = x.map .finite ∧ samples p = .ok x) ∨
      ((∃ q ∈ p, ∀ a, q ≠ .finite a) ∧ samples p = .error .operandRange) := by
  induction p with
  | nil => exact .inl ⟨[], rfl, rfl⟩
  | cons q qs ih =>
    rcases finiteValue_cases q with ⟨a, rfl, hq⟩ | ⟨hq, he⟩
    · rcases ih with ⟨x, rfl, hx⟩ | ⟨⟨r, hr, hn⟩, hx⟩
      · exact .inl ⟨a :: x, rfl, by simp [samples, Except.map]⟩
      · exact .inr ⟨⟨r, by simp [hr], hn⟩, by simp [samples, hx, Except.map]⟩
    · exact .inr ⟨⟨q, by simp, hq⟩, by simp [samples, he]⟩

theorem samples_error {p : List (Port ExactReal)} {e : Exc} (h : samples p = .error e) :
    e = .operandRange := by
  rcases samples_cases p with ⟨x, _, hx⟩ | ⟨_, hx⟩ <;> rw [hx] at h <;> cases h
  rfl

/-! ### The noise source -/

/-- A draw that a known run covers first is that run's value. -/
theorem drawAt_cons {r : NoiseRun} {rest : List NoiseRun} {seed i : Nat}
    (h : r.covers seed i = true) : drawAt (r :: rest) seed i = r.value := by
  simp [drawAt, h]

/-- A draw of which nothing is known is the free value. -/
theorem drawAt_nil (seed i : Nat) : drawAt [] seed i = Config.draw seed i := rfl

end Sys2Proof.Machine
end

