-- ==== Sys2Proof/Laws/Exec.lean ====
section
/-!
SUPPORT. What an operation can do to the state, said once (30_encoding R78, columns "reads" and
"writes"; 60_exceptions R238, R242): every statement over all instructions follows from these cases.
-/

namespace Sys2Proof.Machine

/-- The ways an operation can end. -/
def Ends (i : Instr) (s t : State) : Prop :=
  (∃ e, e ∈ mayRaise i ∧ t = s.raise e) ∨
  (i ≠ .reset ∧ ∃ r, t = s.after (.ok r)) ∨
  (i = .reset ∧ t = s.clear.after (.ok .nothing)) ∨
  (∃ reg v s', i = .cfgWr reg v ∧ s.cfgWrite reg v = .ok s' ∧ t = s'.after (.ok .nothing)) ∨
  (∃ n, i = .seed n ∧ t = ({ s with rng := some ⟨n, 0⟩ } : State).after (.ok .nothing)) ∨
  (∃ g n r, writesRng i = true ∧ i ≠ .reset ∧ t = (s.drawn g n).after (.ok r)) ∨
  (∃ f r, receivesFrame i = true ∧ i ≠ .reset ∧
    t = ({ s with hist := s.hist ++ [frameRecord s.num s.hist f] } : State).after (.ok r))

/-- An operation that only answers: it raises one of its statuses or returns a result. -/
theorem answer_ends {i : Instr} {s : State} {x : Except Exc Result} (hi : i ≠ .reset)
    (he : ∀ e, x = .error e → e ∈ mayRaise i) : ∃ t, answer s x = .next t ∧ Ends i s t := by
  cases x with
  | error e => exact ⟨_, rfl, .inl ⟨e, he e rfl, rfl⟩⟩
  | ok r => exact ⟨_, rfl, .inr (.inl ⟨hi, r, rfl⟩)⟩

/-- An operation that commits a state: it raises one of its statuses or ends in the new state. -/
theorem commit_ends {i : Instr} {s : State} {x : Except Exc (State × Result)}
    (he : ∀ e, x = .error e → e ∈ mayRaise i)
    (ho : ∀ s' r, x = .ok (s', r) → Ends i s (s'.after (.ok r))) :
    ∃ t, commit s x = .next t ∧ Ends i s t := by
  rcases x with e | ⟨s', r⟩
  · exact ⟨_, rfl, .inl ⟨e, he e rfl, rfl⟩⟩
  · exact ⟨_, rfl, ho s' r rfl⟩

/-- A received frame is reported, appended if it is a position, or counted as corrupt. -/
theorem receiveFrame_ends {i : Instr} {s : State} {k : PayloadKind} {f : BitVec 112}
    (hi : receivesFrame i = true) (hr : i ≠ .reset) (he : .checksumFailure ∈ mayRaise i) :
    ∃ t, commit s (receiveFrame k f s) = .next t ∧ Ends i s t := by
  unfold receiveFrame
  split
  · cases k with
    | ident => exact ⟨_, rfl, .inr (.inl ⟨hr, _, rfl⟩)⟩
    | position src => exact ⟨_, rfl, .inr (.inr (.inr (.inr (.inr (.inr ⟨f, _, hi, hr, rfl⟩)))))⟩
    | other => exact ⟨_, rfl, .inr (.inl ⟨hr, _, rfl⟩)⟩
  · exact ⟨_, rfl, .inl ⟨_, he, rfl⟩⟩

/-- Mapping a result over an outcome keeps the failures. -/
theorem map_error {α β : Type} {x : Except Exc α} {g : α → β} {e : Exc}
    (h : x.map g = .error e) : x = .error e := by
  cases x with
  | error e' => cases h; rfl
  | ok a => cases h

theorem hexDigits_error {str : Chars} {e : Exc} (h : hexDigits str = .error e) :
    e = .malformedInput := by
  induction str with
  | nil => cases h
  | cons c cs ih =>
    simp only [hexDigits] at h
    split at h
    · cases h; rfl
    · exact ih (map_error h)

theorem hexToBits_error {str : Chars} {e : Exc} (h : hexToBits str = .error e) :
    e = .malformedInput := by
  unfold hexToBits at h
  split at h
  · cases h; rfl
  · exact hexDigits_error h

theorem frameString_error {str : Chars} {e : Exc} (h : frameString str = .error e) :
    e = .malformedInput := by
  unfold frameString at h
  split at h
  · cases h; rfl
  · exact hexToBits_error h

theorem cprEncodePorts_error {num : Numerics} {lat lon : Port Rat} {p : BitVec 1} {e : Exc}
    (h : cprEncodePorts num lat lon p = .error e) : e = .operandRange := by
  unfold cprEncodePorts at h
  split at h
  · cases h
  · cases h; exact finiteValue_error ‹_›
  · cases h; exact finiteValue_error ‹_›

theorem altEncode_error {num : Numerics} {m : Rat} {e : Exc} (h : altEncode num m = .error e) :
    e = .operandRange := by
  unfold altEncode at h
  simp only at h
  split at h <;> cases h
  rfl

theorem channelNoise_error {draw : Nat → Surd3} {n : Nat} {snr : Rat} {fam : Fading}
    {x : List ExactReal} {e : Exc} (h : channelNoise draw n snr fam x = .error e) : e = .divZero := by
  unfold channelNoise at h
  split at h
  · cases h
  · simp only at h
    split at h <;> cases h
    rfl

/-- Every instruction answers, in one of the ways of `Ends`. -/
theorem exec_ends (i : Instr) (s : State) : ∃ t, exec i s = .next t ∧ Ends i s t := by
  cases i with
  | reset => exact ⟨_, rfl, .inr (.inr (.inl ⟨rfl, rfl⟩))⟩
  | cfgWr reg v =>
    cases h : s.cfgWrite reg v with
    | error e =>
      refine ⟨_, ?_, .inl ⟨e, ?_, rfl⟩⟩
      · show commit s _ = _; rw [h]; rfl
      · rw [cfgWrite_error h]; simp [mayRaise]
    | ok s' =>
      refine ⟨_, ?_, .inr (.inr (.inr (.inl ⟨reg, v, s', rfl, h, rfl⟩)))⟩
      show commit s _ = _; rw [h]; rfl
  | cfgRd reg =>
    refine answer_ends ?_ fun e he => ?_
    · simp
    replace he := map_error he
    unfold State.cfgRead at he
    split at he
    · rw [whenSet_error (map_error he)]; simp [mayRaise]
    · rw [whenSet_error (map_error he)]; simp [mayRaise]
    · rw [whenSet_error he]; simp [mayRaise]
    · rw [whenSet_error he]; simp [mayRaise]
    · rw [whenSet_error (map_error he)]; simp [mayRaise]
    · rw [whenSet_error (map_error he)]; simp [mayRaise]
    · cases he; simp [mayRaise]
  | seed n => exact ⟨_, rfl, .inr (.inr (.inr (.inr (.inl ⟨n, rfl, rfl⟩))))⟩
  | cntRd => exact ⟨_, rfl, .inr (.inl ⟨by simp, _, rfl⟩)⟩
  | histLen => exact ⟨_, rfl, .inr (.inl ⟨by simp, _, rfl⟩)⟩
  | histRd n =>
    refine answer_ends ?_ fun e he => ?_
    · simp
    split at he <;> cases he
    simp [mayRaise]
  | hex2bit str =>
    refine answer_ends ?_ fun e he => ?_
    · simp
    rw [hexToBits_error (map_error he)]; simp [mayRaise]
  | bit2hex v =>
    refine answer_ends ?_ fun e he => ?_
    · simp
    replace he := map_error he
    unfold bitsToHex at he
    split at he <;> cases he
    simp [mayRaise]
  | char2six c => exact ⟨_, rfl, .inr (.inl ⟨by simp, _, rfl⟩)⟩
  | six2char x => exact ⟨_, rfl, .inr (.inl ⟨by simp, _, rfl⟩)⟩
  | crcGen d => exact ⟨_, rfl, .inr (.inl ⟨by simp, _, rfl⟩)⟩
  | crcChk f => exact ⟨_, rfl, .inr (.inl ⟨by simp, _, rfl⟩)⟩
  | altEnc m =>
    refine answer_ends ?_ fun e he => ?_
    · simp
    split at he
    · rw [altEncode_error (map_error he)]; simp [mayRaise]
    · rename_i hu; cases he; rw [finiteValue_error hu]; simp [mayRaise]
  | altDec a => exact ⟨_, rfl, .inr (.inl ⟨by simp, _, rfl⟩)⟩
  | encId address category callsign typeCode =>
    refine answer_ends ?_ fun e he => ?_
    · simp
    unfold build at he
    split at he
    · cases he
    · rename_i hu; cases he; rw [whenSet_error hu]; simp [mayRaise]
    · rename_i hu _; cases he; rw [whenSet_error hu]; simp [mayRaise]
  | encPos address ss saf m lat lon t typeCode p =>
    refine answer_ends ?_ fun e he => ?_
    · simp
    split at he
    · split at he
      · unfold build at he
        split at he
        · cases he
        · rename_i hu; cases he; rw [whenSet_error hu]; simp [mayRaise]
        · rename_i hu _; cases he; rw [whenSet_error hu]; simp [mayRaise]
      · rename_i hm
        cases he
        unfold positionMeOf at hm
        split at hm
        · rw [altEncode_error (map_error hm)]; simp [mayRaise]
        · rename_i hu; cases hm; rw [finiteValue_error hu]; simp [mayRaise]
        · rename_i hu _; cases hm; rw [cprEncodePorts_error hu]; simp [mayRaise]
    · rename_i hu; cases he; rw [whenSet_error hu]; simp [mayRaise]
    · rename_i hu _; cases he; rw [whenSet_error hu]; simp [mayRaise]
  | dec str =>
    show ∃ t, commit s (decodeString str s) = .next t ∧ _
    unfold decodeString
    cases h : frameString str with
    | error e => exact ⟨_, rfl, .inl ⟨e, by rw [frameString_error h]; simp [mayRaise], rfl⟩⟩
    | ok v => exact receiveFrame_ends rfl (by simp) (by simp [mayRaise])
  | cprNl lat =>
    refine answer_ends ?_ fun e he => ?_
    · simp
    rw [finiteValue_error (map_error he)]; simp [mayRaise]
  | cprEnc lat lon p =>
    refine answer_ends ?_ fun e he => ?_
    · simp
    rw [cprEncodePorts_error (map_error he)]; simp [mayRaise]
  | cprPair yzE xzE tE yzO xzO tO => exact ⟨_, rfl, .inr (.inl ⟨by simp, _, rfl⟩)⟩
  | cprResolve address fp yz xz t => exact ⟨_, rfl, .inr (.inl ⟨by simp, _, rfl⟩)⟩
  | mod v =>
    refine answer_ends ?_ fun e he => ?_
    · simp
    split at he
    · split at he <;> cases he
      simp [mayRaise]
    · rename_i hu; cases he; rw [whenSet_error hu]; simp [mayRaise]
    · rename_i hu _; cases he; rw [whenSet_error hu]; simp [mayRaise]
  | chan x =>
    refine commit_ends (fun e hx => ?_) fun s' r hx => ?_
    · split at hx
      · split at hx
        · rw [channelNoise_error (map_error (map_error hx))]; simp [mayRaise]
        · rename_i hu; cases hx; rw [samples_error hu]; simp [mayRaise]
      · rename_i hu; cases hx; rw [whenSet_error hu]; simp [mayRaise]
      · rename_i hu _; cases hx; rw [whenSet_error hu]; simp [mayRaise]
      · rename_i hu _ _; cases hx; rw [whenSet_error hu]; simp [mayRaise]
    · split at hx
      · split at hx
        · unfold chanWith at hx
          generalize channel _ _ _ _ _ = c at hx
          cases c with
          | error e => cases hx
          | ok z =>
            cases hx
            exact .inr (.inr (.inr (.inr (.inr (.inl ⟨_, _, _, rfl, by simp, rfl⟩)))))
        · cases hx
      all_goals cases hx
  | demod x =>
    refine answer_ends ?_ fun e he => ?_
    · simp
    split at he
    · split at he
      · split at he <;> cases he
        simp [mayRaise]
      · rename_i hu; cases he; rw [samples_error hu]; simp [mayRaise]
    · rename_i hu; cases he; rw [whenSet_error hu]; simp [mayRaise]
    · rename_i hu _; cases he; rw [whenSet_error hu]; simp [mayRaise]
  | xmit str =>
    refine commit_ends (fun e hx => ?_) fun s' r hx => ?_
    · split at hx
      · rename_i hu; cases hx; rw [frameString_error hu]; simp [mayRaise]
      · split at hx
        · rw [channelNoise_error (map_error hx)]; simp [mayRaise]
        · rename_i hu; cases hx; rw [whenSet_error hu]; simp [mayRaise]
        · rename_i hu _; cases hx; rw [whenSet_error hu]; simp [mayRaise]
        · rename_i hu _ _; cases hx; rw [whenSet_error hu]; simp [mayRaise]
        · rename_i hu _ _ _; cases hx; rw [whenSet_error hu]; simp [mayRaise]
        · rename_i hu _ _ _ _; cases hx; rw [whenSet_error hu]; simp [mayRaise]
    · split at hx
      · cases hx
      · split at hx
        · unfold xmitWith at hx
          simp only at hx
          generalize channelNoise _ _ _ _ _ = c at hx
          cases c with
          | error e => cases hx
          | ok z =>
            cases hx
            exact .inr (.inr (.inr (.inr (.inr (.inl ⟨_, _, _, rfl, by simp, rfl⟩)))))
        all_goals cases hx
  | _ => exact receiveFrame_ends rfl (by simp) (by simp [mayRaise])

/-- The inversion of `exec`. -/
theorem exec_next {i : Instr} {s t : State} (h : exec i s = .next t) : Ends i s t := by
  obtain ⟨u, hu, he⟩ := exec_ends i s
  rw [h] at hu
  cases hu
  exact he

end Sys2Proof.Machine
end

