-- ==== Sys2Proof/Laws/Hex.lean ====
section
/-!
SUPPORT. The operand forms of Machine/Operands.lean: hex strings, bits in wire order, the character map.
-/

namespace Sys2Proof.Machine

/-! ### One digit -/

/-- Exactly the characters `0-9A-F` have a value. -/
theorem hexValue_some_iff (c : Byte) : (∃ d, hexValue c = some d) ↔ hexDigit c := by
  unfold hexValue hexDigit
  split
  · simp_all
  · split <;> simp_all

theorem hexValue_none_iff (c : Byte) : hexValue c = none ↔ ¬ hexDigit c := by
  rw [← hexValue_some_iff]
  cases hexValue c <;> simp

/-- The value of a digit as a number. -/
theorem hexValue_toNat {c : Byte} {d : BitVec 4} (h : hexValue c = some d) :
    d.toNat = if c.toNat ≤ 57 then c.toNat - 48 else c.toNat - 55 := by
  unfold hexValue at h
  split at h
  · cases h
    simp only [BitVec.toNat_ofNat]
    rw [if_pos (by omega)]; omega
  · split at h
    · cases h
      simp only [BitVec.toNat_ofNat]
      rw [if_neg (by omega)]; omega
    · cases h

@[simp] theorem hexValue_hexChar (d : BitVec 4) : hexValue (hexChar d) = some d := by
  revert d; decide

theorem hexChar_of_hexValue {c : Byte} {d : BitVec 4} (h : hexValue c = some d) : hexChar d = c := by
  have := hexValue_toNat h
  have hc := (hexValue_some_iff c).mp ⟨d, h⟩
  have hd := d.isLt
  apply BitVec.eq_of_toNat_eq
  unfold hexDigit at hc
  unfold hexChar
  split at this <;> split <;> simp only [BitVec.toNat_ofNat] <;> omega

theorem hexChar_toNat (d : BitVec 4) :
    (hexChar d).toNat = if d.toNat < 10 then 48 + d.toNat else 55 + d.toNat := by
  revert d; decide

/-! ### Bits in wire order -/

@[simp] theorem wireBits_length {w : Nat} (v : BitVec w) : (wireBits v).length = w := by
  simp [wireBits]

theorem wireBits_getElem? {w : Nat} (v : BitVec w) (k : Nat) (h : k < w) :
    (wireBits v)[k]? = some (v.getMsbD k) := by
  simp [wireBits, h]

/-- The number a sequence of bits stands for, its first bit the most significant. -/
theorem foldl_bits_testBit (v : Bits) (acc k : Nat) :
    (v.foldl (fun acc b => 2 * acc + b.toNat) acc).testBit k =
      if k < v.length then v[v.length - 1 - k]?.getD false else acc.testBit (k - v.length) := by
  induction v generalizing acc with
  | nil => simp
  | cons b bs ih =>
    rw [List.foldl_cons, ih]
    simp only [List.length_cons]
    by_cases h : k < bs.length
    · rw [if_pos h, if_pos (by omega), show bs.length + 1 - 1 - k = (bs.length - 1 - k) + 1 by omega,
        List.getElem?_cons_succ]
    · rw [if_neg h]
      by_cases h' : k < bs.length + 1
      · obtain rfl : k = bs.length := by omega
        rw [if_pos h']
        cases b <;> simp [Nat.testBit_zero]
      · rw [if_neg h', show k - bs.length = (k - (bs.length + 1)) + 1 by omega, Nat.testBit_succ]
        congr 1
        cases b
        · simp
        · simp; omega

theorem ofWire_getLsbD (w : Nat) (v : Bits) (k : Nat) : (ofWire w v).getLsbD k =
    (decide (k < w) && if k < v.length then v[v.length - 1 - k]?.getD false else false) := by
  simp [ofWire, BitVec.getLsbD_ofNat, foldl_bits_testBit]

@[simp] theorem ofWire_wireBits {w : Nat} (v : BitVec w) : ofWire w (wireBits v) = v := by
  apply BitVec.eq_of_getLsbD_eq
  intro k hk
  rw [ofWire_getLsbD, wireBits_length]
  simp only [hk, decide_true, if_true, Bool.true_and]
  rw [wireBits_getElem? _ _ (by omega)]
  simp [BitVec.getMsbD, show w - 1 - k < w by omega, show w - 1 - (w - 1 - k) = k by omega]

theorem wireBits_ofWire {w : Nat} {v : Bits} (h : v.length = w) : wireBits (ofWire w v) = v := by
  subst h
  apply List.ext_getElem?
  intro k
  by_cases hk : k < v.length
  · rw [wireBits_getElem? _ _ hk, BitVec.getMsbD, ofWire_getLsbD]
    simp [hk, show v.length - 1 - k < v.length by omega,
      show v.length - 1 - (v.length - 1 - k) = k by omega]
  · rw [List.getElem?_eq_none (by simpa using hk), List.getElem?_eq_none (by simpa using hk)]

theorem wireBits_four (d : BitVec 4) :
    wireBits d = [d.getMsbD 0, d.getMsbD 1, d.getMsbD 2, d.getMsbD 3] := rfl

/-! ### Whole strings -/

/-- A sequence whose length is a multiple of 4 falls into groups of four. -/
theorem bits_four {v : Bits} (h : v.length % 4 = 0) (hv : v ≠ []) :
    ∃ a b c d rest, v = a :: b :: c :: d :: rest ∧ rest.length % 4 = 0 ∧
      v.length = rest.length + 4 := by
  match v, hv with
  | [_], _ => simp at h
  | [_, _], _ => simp at h
  | [_, _, _], _ => simp at h
  | a :: b :: c :: d :: rest, _ =>
    exact ⟨a, b, c, d, rest, rfl, by simp at h; omega, by simp⟩

/-- Digits back to the bits they came from. -/
theorem hexDigits_hexChars (n : Nat) : ∀ v : Bits, v.length = 4 * n → hexDigits (hexChars v) = .ok v := by
  induction n with
  | zero =>
    intro v hv
    obtain rfl : v = [] := List.length_eq_zero_iff.mp (by omega)
    rfl
  | succ n ih =>
    intro v hv
    obtain ⟨a, b, c, d, rest, rfl, _, _⟩ :=
      bits_four (v := v) (by omega) (by rintro rfl; simp at hv)
    simp only [List.length_cons] at hv
    simp only [hexChars, hexDigits, hexValue_hexChar]
    rw [ih rest (by omega), wireBits_ofWire (by rfl)]
    rfl

theorem hexChars_length (n : Nat) : ∀ v : Bits, v.length = 4 * n → (hexChars v).length = n := by
  induction n with
  | zero =>
    intro v hv
    obtain rfl : v = [] := List.length_eq_zero_iff.mp (by omega)
    rfl
  | succ n ih =>
    intro v hv
    obtain ⟨a, b, c, d, rest, rfl, _, _⟩ :=
      bits_four (v := v) (by omega) (by rintro rfl; simp at hv)
    simp only [List.length_cons] at hv
    simp only [hexChars, List.length_cons]
    rw [ih rest (by omega)]

theorem hexDigit_hexChars (v : Bits) : ∀ c ∈ hexChars v, hexDigit c := by
  fun_induction hexChars v with
  | case1 a b c d rest ih =>
    intro x hx
    rcases List.mem_cons.mp hx with rfl | hx
    · exact (hexValue_some_iff _).mp ⟨_, hexValue_hexChar _⟩
    · exact ih x hx
  | case2 => simp

/-- What the digits of a string give: accepted exactly when all are digits, four bits each, and the
same string back. -/
theorem hexDigits_ok {str : Chars} {v : Bits} (h : hexDigits str = .ok v) :
    v.length = 4 * str.length ∧ hexChars v = str ∧ ∀ c ∈ str, hexDigit c := by
  induction str generalizing v with
  | nil => cases h; simp [hexChars]
  | cons c cs ih =>
    simp only [hexDigits] at h
    split at h
    · cases h
    · rename_i d hd
      cases hcs : hexDigits cs with
      | error e => rw [hcs] at h; cases h
      | ok u =>
        rw [hcs] at h; cases h
        obtain ⟨h1, h2, h3⟩ := ih hcs
        refine ⟨by simp [h1]; omega, ?_, ?_⟩
        · rw [wireBits_four]
          simp only [List.cons_append, List.nil_append, hexChars, h2]
          rw [← wireBits_four, ofWire_wireBits, hexChar_of_hexValue hd]
        · intro x hx
          rcases List.mem_cons.mp hx with rfl | hx
          · exact (hexValue_some_iff _).mp ⟨d, hd⟩
          · exact h3 x hx

theorem hexDigits_of_all {str : Chars} (h : ∀ c ∈ str, hexDigit c) : ∃ v, hexDigits str = .ok v := by
  induction str with
  | nil => exact ⟨[], rfl⟩
  | cons c cs ih =>
    obtain ⟨u, hu⟩ := ih fun x hx => h x (by simp [hx])
    obtain ⟨d, hd⟩ := (hexValue_some_iff c).mpr (h c (by simp))
    exact ⟨wireBits d ++ u, by simp [hexDigits, hd, hu, Except.map]⟩

theorem hexDigits_of_not {str : Chars} (h : ∃ c ∈ str, ¬ hexDigit c) :
    hexDigits str = .error .malformedInput := by
  induction str with
  | nil => obtain ⟨c, hc, _⟩ := h; cases hc
  | cons c cs ih =>
    unfold hexDigits
    cases hc : hexValue c with
    | none => rfl
    | some d =>
      obtain ⟨x, hx, hn⟩ := h
      rcases List.mem_cons.mp hx with rfl | hx
      · exact absurd ((hexValue_some_iff _).mp ⟨d, hc⟩) hn
      · simp [ih ⟨x, hx, hn⟩, Except.map]

/-- A string is a frame's text exactly when DEC and XMIT accept it. -/
theorem frameString_ok_iff (str : Chars) : (∃ v, frameString str = .ok v) ↔ frameText str := by
  unfold frameString hexToBits frameText
  constructor
  · rintro ⟨v, h⟩
    split at h
    · cases h
    · split at h
      · cases h
      · exact ⟨by omega, (hexDigits_ok h).2.2⟩
  · rintro ⟨hl, hd⟩
    rw [if_neg (by omega), if_neg (by omega)]
    exact hexDigits_of_all hd

theorem frameString_malformed {str : Chars} (h : ¬ frameText str) :
    frameString str = .error .malformedInput := by
  unfold frameString hexToBits
  split
  · rfl
  · rw [if_neg (by omega)]
    refine hexDigits_of_not ?_
    by_contra hc
    push Not at hc
    exact h ⟨by omega, hc⟩

@[simp] theorem frameString_frameHex (f : BitVec 112) : frameString (frameHex f) = .ok (wireBits f) := by
  have hl : (frameHex f).length = 28 := hexChars_length 28 _ (by simp)
  unfold frameString hexToBits
  rw [if_neg (by omega), if_neg (by omega)]
  exact hexDigits_hexChars 28 _ (by simp)

theorem frameText_frameHex (f : BitVec 112) : frameText (frameHex f) :=
  (frameString_ok_iff _).mp ⟨_, frameString_frameHex f⟩

/-- A frame's text is the hex string of one frame, the one its bits are. -/
theorem frameHex_of_frameString {str : Chars} {v : Bits} (h : frameString str = .ok v) :
    v.length = 112 ∧ str = frameHex (ofWire 112 v) := by
  obtain ⟨hl, _⟩ := (frameString_ok_iff _).mp ⟨v, h⟩
  unfold frameString hexToBits at h
  rw [if_neg (by omega), if_neg (by omega)] at h
  obtain ⟨h1, h2, _⟩ := hexDigits_ok h
  have hv : v.length = 112 := by omega
  exact ⟨hv, by rw [frameHex, wireBits_ofWire hv, h2]⟩

/-! ### The character map -/

theorem charToSix_toNat (c : Byte) : (charToSix c).toNat =
    if 65 ≤ c.toNat ∧ c.toNat ≤ 90 then c.toNat - 64
    else if 48 ≤ c.toNat ∧ c.toNat ≤ 57 then c.toNat else 32 := by
  unfold charToSix
  split
  · simp only [BitVec.toNat_ofNat]; omega
  · split
    · simp only [BitVec.toNat_ofNat]; omega
    · rfl

theorem sixToChar_toNat (x : BitVec 6) : (sixToChar x).toNat =
    if 1 ≤ x.toNat ∧ x.toNat ≤ 26 then x.toNat + 64
    else if 48 ≤ x.toNat ∧ x.toNat ≤ 57 then x.toNat
    else if x.toNat = 32 then 32 else 35 := by
  revert x; decide

end Sys2Proof.Machine
end

