-- ==== Sys2Proof/Laws/Frame.lean ====
section
/-!
SUPPORT. The fields of an assembled frame, and what receiving a frame does.
-/

namespace Sys2Proof.Machine

/-- A slice of a slice is a slice. -/
theorem extract_extract {w : Nat} (x : BitVec w) (a b n m : Nat) (h : b + m ≤ n) :
    (x.extractLsb' a n).extractLsb' b m = x.extractLsb' (a + b) m := by
  apply BitVec.eq_of_getLsbD_eq
  intro i hi
  rw [BitVec.getLsbD_extractLsb', BitVec.getLsbD_extractLsb', BitVec.getLsbD_extractLsb',
    decide_eq_true (by omega : b + i < n), Nat.add_assoc, Bool.true_and]

/-! ### The prefix byte -/

theorem prefixByte_eq (df : BitVec 5) (ca : BitVec 3) : prefixByte df ca = df ++ ca := by
  apply BitVec.eq_of_getLsbD_eq
  intro i hi
  rw [prefixByte, BitVec.getLsbD_or, BitVec.getLsbD_shiftLeft, BitVec.getLsbD_setWidth,
    BitVec.getLsbD_setWidth, BitVec.getLsbD_append]
  by_cases h : i < 3
  · simp [h, hi]
  · simp [h, hi, show i - 3 < 8 by omega, BitVec.getLsbD_of_ge ca i (by omega)]

/-! ### The fields of an assembled frame -/

section
variable (df : BitVec 5) (ca : BitVec 3) (addr : BitVec 24) (me : BitVec 56)

@[simp] theorem assemble_data : frameData (assemble df ca addr me) = (df ++ ca) ++ addr ++ me := by
  simp only [frameData, assemble, prefixByte_eq]
  rw [BitVec.extractLsb'_append_eq_of_le (by omega)]
  exact BitVec.extractLsb'_eq_self

@[simp] theorem assemble_crc :
    frameCrc (assemble df ca addr me) = crc24 (frameData (assemble df ca addr me)) := by
  rw [assemble_data]
  simp only [frameCrc, assemble, prefixByte_eq]
  rw [BitVec.extractLsb'_append_eq_of_add_le (by omega)]
  exact BitVec.extractLsb'_eq_self

@[simp] theorem assemble_passes : crcPasses (assemble df ca addr me) = true := by
  unfold crcPasses
  rw [assemble_crc, beq_self_eq_true]

/-- A slice above the CRC is a slice of the data. -/
theorem slice_data (f : BitVec 112) (a n : Nat) (h : a + n ≤ 88) :
    f.extractLsb' (24 + a) n = (frameData f).extractLsb' a n := by
  rw [frameData, extract_extract _ _ _ _ _ h]

@[simp] theorem assemble_df : frameDf (assemble df ca addr me) = df := by
  rw [frameDf, slice_data _ 83 5 (by omega), assemble_data,
    BitVec.extractLsb'_append_eq_of_le (by omega), BitVec.extractLsb'_append_eq_of_le (by omega),
    BitVec.extractLsb'_append_eq_of_le (by omega)]
  exact BitVec.extractLsb'_eq_self

@[simp] theorem assemble_ca : frameCa (assemble df ca addr me) = ca := by
  rw [frameCa, slice_data _ 80 3 (by omega), assemble_data,
    BitVec.extractLsb'_append_eq_of_le (by omega), BitVec.extractLsb'_append_eq_of_le (by omega),
    BitVec.extractLsb'_append_eq_of_add_le (by omega)]
  exact BitVec.extractLsb'_eq_self

@[simp] theorem assemble_addr : frameAddr (assemble df ca addr me) = addr := by
  rw [frameAddr, slice_data _ 56 24 (by omega), assemble_data,
    BitVec.extractLsb'_append_eq_of_le (by omega), BitVec.extractLsb'_append_eq_of_add_le (by omega)]
  exact BitVec.extractLsb'_eq_self

/-- A slice of the ME of an assembled frame. -/
theorem assemble_me (a n : Nat) (h : a + n ≤ 56) :
    (assemble df ca addr me).extractLsb' (24 + a) n = me.extractLsb' a n := by
  rw [slice_data _ a n (by omega), assemble_data, BitVec.extractLsb'_append_eq_of_add_le (by omega)]

end

/-! ### The fields of the two ME formats -/

theorem identMe_slices (tc : BitVec 5) (cat : BitVec 3) (cs : BitVec 48) :
    (identMe tc cat cs).extractLsb' 51 5 = tc ∧ (identMe tc cat cs).extractLsb' 48 3 = cat ∧
      (identMe tc cat cs).extractLsb' 0 48 = cs := by
  unfold identMe
  refine ⟨?_, ?_, ?_⟩
  · rw [BitVec.extractLsb'_append_eq_of_le (by omega), BitVec.extractLsb'_append_eq_of_le (by omega)]
    exact BitVec.extractLsb'_eq_self
  · rw [BitVec.extractLsb'_append_eq_of_le (by omega),
      BitVec.extractLsb'_append_eq_of_add_le (by omega)]
    exact BitVec.extractLsb'_eq_self
  · rw [BitVec.extractLsb'_append_eq_of_add_le (by omega)]
    exact BitVec.extractLsb'_eq_self

/-- The slice of code `i` of a callsign is that code. -/
theorem callsignBits_slice (s : Chars) (i : Nat) (hi : i < 8) :
    (callsignBits s).extractLsb' (42 - 6 * i) 6 = callsignCode s i := by
  unfold callsignBits
  interval_cases i <;>
  · repeat rw [BitVec.extractLsb'_append_eq_of_le (by omega)]
    first
      | exact BitVec.extractLsb'_eq_self
      | (rw [BitVec.extractLsb'_append_eq_of_add_le (by omega)]; exact BitVec.extractLsb'_eq_self)

section
variable (tc : BitVec 5) (ss : BitVec 2) (saf : BitVec 1) (alt : BitVec 12) (t f : BitVec 1)
  (yz xz : BitVec 17)

theorem positionMe_slices :
    (positionMe tc ss saf alt t f yz xz).extractLsb' 51 5 = tc ∧
    (positionMe tc ss saf alt t f yz xz).extractLsb' 49 2 = ss ∧
    (positionMe tc ss saf alt t f yz xz).extractLsb' 48 1 = saf ∧
    (positionMe tc ss saf alt t f yz xz).extractLsb' 36 12 = alt ∧
    (positionMe tc ss saf alt t f yz xz).extractLsb' 35 1 = t ∧
    (positionMe tc ss saf alt t f yz xz).extractLsb' 34 1 = f ∧
    (positionMe tc ss saf alt t f yz xz).extractLsb' 17 17 = yz ∧
    (positionMe tc ss saf alt t f yz xz).extractLsb' 0 17 = xz := by
  unfold positionMe
  refine ⟨?_, ?_, ?_, ?_, ?_, ?_, ?_, ?_⟩ <;>
  · repeat rw [BitVec.extractLsb'_append_eq_of_le (by omega)]
    first
      | exact BitVec.extractLsb'_eq_self
      | (rw [BitVec.extractLsb'_append_eq_of_add_le (by omega)]; exact BitVec.extractLsb'_eq_self)

end

/-! ### Receiving -/

/-- A frame whose CRC does not match is counted and given up. -/
theorem receiveFrame_corrupt {f : BitVec 112} (k : PayloadKind) (s : State)
    (h : crcPasses f = false) : receiveFrame k f s = .error .checksumFailure := by
  simp [receiveFrame, h]

/-- A frame whose CRC matches is accepted. -/
theorem receiveFrame_valid {f : BitVec 112} (k : PayloadKind) (s : State)
    (h : crcPasses f = true) : receiveFrame k f s = .ok (acceptFrame k f s) := by
  simp [receiveFrame, h]

/-- DEC of the text of a frame receives that frame. -/
theorem decodeString_frameHex (f : BitVec 112) (s : State) :
    decodeString (frameHex f) s = receiveFrame (payloadKind (frameTypeCode f)) f s := by
  simp [decodeString]

end Sys2Proof.Machine
end

