-- ==== Sys2Proof/Laws/Memory.lean ====
section
/-!
SUPPORT. The History memory: reading after an append, the search, and the form every operation keeps.
-/

namespace Sys2Proof.Machine

/-! ### Reading after the one write -/

theorem memRead_append_lt {h : List Record} {i : Nat} (r : Record) (hi : i < h.length) :
    memRead (memAppend h r) i = memRead h i := by
  simp [memRead, memAppend, List.getElem?_append_left hi]

@[simp] theorem memRead_append_new (h : List Record) (r : Record) :
    memRead (memAppend h r) h.length = some r := by
  simp [memRead, memAppend]

theorem memRead_isSome (h : List Record) (i : Nat) : (memRead h i).isSome = decide (i < h.length) := by
  rw [Bool.eq_iff_iff]
  simp [memRead]

/-! ### The form of the memory -/

@[simp] theorem Memory.wf_nil (num : Numerics) : Memory.wf num [] = true := rfl

/-- The form says that every record is one DEC appended to the records before it. -/
theorem Memory.wf_iff (num : Numerics) (h : List Record) : Memory.wf num h = true ↔
    ∀ i r, memRead h i = some r → r.from num (h.take i) = true := by
  unfold Memory.wf
  rw [List.all_eq_true]
  constructor
  · intro H i r hr
    have hi : i < h.length := by
      have := memRead_isSome h i
      rw [hr] at this
      simpa using this.symm
    have := H i (List.mem_range.mpr hi)
    rwa [hr] at this
  · intro H i _
    split
    · exact H i _ ‹_›
    · rfl

/-- Appending a record that comes from the History keeps the form. -/
theorem Memory.wf_memAppend {num : Numerics} {h : List Record} {r : Record}
    (hw : Memory.wf num h = true) (hr : r.from num h = true) : Memory.wf num (memAppend h r) = true := by
  rw [Memory.wf_iff] at hw ⊢
  intro i q hq
  rcases lt_trichotomy i h.length with hi | rfl | hi
  · rw [memRead_append_lt r hi] at hq
    rw [memAppend, List.take_append_of_le_length hi.le]
    exact hw i q hq
  · simp only [memRead_append_new, Option.some.injEq] at hq
    subst hq
    simpa [memAppend] using hr
  · have h1 := memRead_isSome (memAppend h r) i
    rw [hq] at h1
    simp [memAppend] at h1
    omega

/-- Every decoded altitude is one a field decodes to. -/
theorem altFromField_altMetres (a : BitVec 12) : altFromField (altMetres a) = true := by
  unfold altFromField
  rw [List.any_eq_true]
  exact ⟨a.toNat, List.mem_range.mpr a.isLt, by simp⟩

/-- The record DEC appends comes from the History before it. -/
theorem frameRecord_from (num : Numerics) (h : List Record) (f : BitVec 112) :
    (frameRecord num h f).from num h = true := by
  simp [Record.from, frameRecord, framePos, altFromField_altMetres]

/-- A frame whose CRC matched leaves the History in its form. -/
theorem acceptFrame_wf {k : PayloadKind} {f : BitVec 112} {s : State}
    (hw : Memory.wf s.num s.hist = true) : Memory.wf s.num (acceptFrame k f s).1.hist = true := by
  cases k with
  | ident => exact hw
  | position src => exact Memory.wf_memAppend hw (frameRecord_from s.num s.hist f)
  | other => exact hw

theorem reset_wf : Memory.wf State.reset.num State.reset.hist = true := rfl

/-! ### The search -/

/-- Searching a History with one more record looks at that record first. -/
theorem histFind_append (h : List Record) (r : Record) (addr : BitVec 24) (fp : BitVec 1) :
    histFind (h ++ [r]) addr fp =
      if r.addr = addr ∧ r.f ≠ fp then some r else histFind h addr fp := by
  simp only [histFind, List.reverse_append, List.reverse_singleton, List.singleton_append,
    List.find?_cons]
  by_cases hc : r.addr = addr ∧ r.f ≠ fp
  · have : (r.addr == addr && r.f != fp) = true := by simpa using hc
    rw [if_pos hc, this]
  · rw [if_neg hc]
    have : (r.addr == addr && r.f != fp) = false := by
      rw [Bool.eq_false_iff]
      simpa using hc
    rw [this]

@[simp] theorem histFind_nil (addr : BitVec 24) (fp : BitVec 1) : histFind [] addr fp = none := rfl

/-- The search looks only at the records of its address. -/
theorem histFind_eq_lookup (h : List Record) (addr : BitVec 24) (fp : BitVec 1) :
    histFind h addr fp = (lookup h addr).reverse.find? fun r => r.f != fp := by
  simp [histFind, lookup, ← List.filter_reverse, List.find?_filter, bne]
  congr

end Sys2Proof.Machine
end

