-- ==== Sys2Proof/Laws/PerInstr.lean ====
section
/-!
SUPPORT. One lemma per instruction: its encoding stands in its row of the opcode table (30_encoding R78,
R81).
-/

namespace Sys2Proof.Laws.TableRow

/-- An operation is asked for by a code of the operation table, and is well formed with any operands but a
callsign too long for the port; a frame row is asked for by its whole frame, and is well formed exactly
for the frames of its type code. -/
def Statement (i : Instr) : Prop :=
  match encode i with
  | .op code _ =>
    i.rowTypeCode = none ∧ i.wellFormed = i.callsignFits ∧
      (decodeTableWord 8 code.toNat).isSome = true
  | .frame f => ∃ tc, i.rowTypeCode = some (tc, f) ∧ (i.wellFormed = true ↔ frameTypeCode f = tc)

theorem frame_row {i : Instr} {f : BitVec 112} (tc : BitVec 5) (he : encode i = .frame f)
    (hr : i.rowTypeCode = some (tc, f)) (hw : i.wellFormed = (frameTypeCode f == tc)) :
    Statement i := by
  unfold Statement
  rw [he]
  exact ⟨tc, hr, by rw [hw, beq_iff_eq]⟩

theorem reset : Statement (.reset) := ⟨rfl, rfl, rfl⟩

theorem cfgWr (reg : BitVec 4) (value : Port Rat) : Statement (.cfgWr reg value) := ⟨rfl, rfl, rfl⟩

theorem cfgRd (reg : BitVec 4) : Statement (.cfgRd reg) := ⟨rfl, rfl, rfl⟩

theorem seed (seed : Nat) : Statement (.seed seed) := ⟨rfl, rfl, rfl⟩

theorem cntRd : Statement (.cntRd) := ⟨rfl, rfl, rfl⟩

theorem histLen : Statement (.histLen) := ⟨rfl, rfl, rfl⟩

theorem histRd (i : Nat) : Statement (.histRd i) := ⟨rfl, rfl, rfl⟩

theorem hex2bit (s : Chars) : Statement (.hex2bit s) := ⟨rfl, rfl, rfl⟩

theorem bit2hex (v : Bits) : Statement (.bit2hex v) := ⟨rfl, rfl, rfl⟩

theorem char2six (c : Byte) : Statement (.char2six c) := ⟨rfl, rfl, rfl⟩

theorem six2char (x : BitVec 6) : Statement (.six2char x) := ⟨rfl, rfl, rfl⟩

theorem crcGen (d : BitVec 88) : Statement (.crcGen d) := ⟨rfl, rfl, rfl⟩

theorem crcChk (f : BitVec 112) : Statement (.crcChk f) := ⟨rfl, rfl, rfl⟩

theorem altEnc (m : Port Rat) : Statement (.altEnc m) := ⟨rfl, rfl, rfl⟩

theorem altDec (a : BitVec 12) : Statement (.altDec a) := ⟨rfl, rfl, rfl⟩

theorem encId (address : BitVec 24) (category : BitVec 3) (callsign : Chars) (typeCode : BitVec 5)
    : Statement (.encId address category callsign typeCode) := ⟨rfl, rfl, rfl⟩

theorem encPos (address : BitVec 24) (surveillance : BitVec 2) (singleAntenna : BitVec 1) (altitudeMeters lat lon : Port Rat) (timeFlag : BitVec 1) (typeCode : BitVec 5) (cprParity : BitVec 1)
    : Statement (.encPos address surveillance singleAntenna altitudeMeters lat lon timeFlag typeCode cprParity) := ⟨rfl, rfl, rfl⟩

theorem dec (s : Chars) : Statement (.dec s) := ⟨rfl, rfl, rfl⟩

theorem cprNl (lat : Port Rat) : Statement (.cprNl lat) := ⟨rfl, rfl, rfl⟩

theorem cprEnc (lat lon : Port Rat) (parity : BitVec 1)
    : Statement (.cprEnc lat lon parity) := ⟨rfl, rfl, rfl⟩

theorem cprPair (yzE xzE : BitVec 17) (tE : BitVec 1) (yzO xzO : BitVec 17) (tO : BitVec 1)
    : Statement (.cprPair yzE xzE tE yzO xzO tO) := ⟨rfl, rfl, rfl⟩

theorem cprResolve (address : BitVec 24) (fp : BitVec 1) (yz xz : BitVec 17) (t : BitVec 1)
    : Statement (.cprResolve address fp yz xz t) := ⟨rfl, rfl, rfl⟩

theorem mod (bits : Bits) : Statement (.mod bits) := ⟨rfl, rfl, rfl⟩

theorem chan (signal : List (Port ExactReal)) : Statement (.chan signal) := ⟨rfl, rfl, rfl⟩

theorem demod (signal : List (Port ExactReal)) : Statement (.demod signal) := ⟨rfl, rfl, rfl⟩

theorem xmit (hexIn : Chars) : Statement (.xmit hexIn) := ⟨rfl, rfl, rfl⟩

theorem frameTc0Other (f : BitVec 112) : Statement (.frameTc0Other f) := frame_row 0 rfl rfl rfl

theorem frameTc1Ident (f : BitVec 112) : Statement (.frameTc1Ident f) := frame_row 1 rfl rfl rfl

theorem frameTc2Ident (f : BitVec 112) : Statement (.frameTc2Ident f) := frame_row 2 rfl rfl rfl

theorem frameTc3Ident (f : BitVec 112) : Statement (.frameTc3Ident f) := frame_row 3 rfl rfl rfl

theorem frameTc4Ident (f : BitVec 112) : Statement (.frameTc4Ident f) := frame_row 4 rfl rfl rfl

theorem frameTc5Other (f : BitVec 112) : Statement (.frameTc5Other f) := frame_row 5 rfl rfl rfl

theorem frameTc6Other (f : BitVec 112) : Statement (.frameTc6Other f) := frame_row 6 rfl rfl rfl

theorem frameTc7Other (f : BitVec 112) : Statement (.frameTc7Other f) := frame_row 7 rfl rfl rfl

theorem frameTc8Other (f : BitVec 112) : Statement (.frameTc8Other f) := frame_row 8 rfl rfl rfl

theorem frameTc9Position (f : BitVec 112) : Statement (.frameTc9Position f) :=
  frame_row 9 rfl rfl rfl

theorem frameTc10Position (f : BitVec 112) : Statement (.frameTc10Position f) :=
  frame_row 10 rfl rfl rfl

theorem frameTc11Position (f : BitVec 112) : Statement (.frameTc11Position f) :=
  frame_row 11 rfl rfl rfl

theorem frameTc12Position (f : BitVec 112) : Statement (.frameTc12Position f) :=
  frame_row 12 rfl rfl rfl

theorem frameTc13Position (f : BitVec 112) : Statement (.frameTc13Position f) :=
  frame_row 13 rfl rfl rfl

theorem frameTc14Position (f : BitVec 112) : Statement (.frameTc14Position f) :=
  frame_row 14 rfl rfl rfl

theorem frameTc15Position (f : BitVec 112) : Statement (.frameTc15Position f) :=
  frame_row 15 rfl rfl rfl

theorem frameTc16Position (f : BitVec 112) : Statement (.frameTc16Position f) :=
  frame_row 16 rfl rfl rfl

theorem frameTc17Position (f : BitVec 112) : Statement (.frameTc17Position f) :=
  frame_row 17 rfl rfl rfl

theorem frameTc18Position (f : BitVec 112) : Statement (.frameTc18Position f) :=
  frame_row 18 rfl rfl rfl

theorem frameTc19Other (f : BitVec 112) : Statement (.frameTc19Other f) := frame_row 19 rfl rfl rfl

theorem frameTc20Position (f : BitVec 112) : Statement (.frameTc20Position f) :=
  frame_row 20 rfl rfl rfl

theorem frameTc21Position (f : BitVec 112) : Statement (.frameTc21Position f) :=
  frame_row 21 rfl rfl rfl

theorem frameTc22Position (f : BitVec 112) : Statement (.frameTc22Position f) :=
  frame_row 22 rfl rfl rfl

theorem frameTc23Other (f : BitVec 112) : Statement (.frameTc23Other f) := frame_row 23 rfl rfl rfl

theorem frameTc24Other (f : BitVec 112) : Statement (.frameTc24Other f) := frame_row 24 rfl rfl rfl

theorem frameTc25Other (f : BitVec 112) : Statement (.frameTc25Other f) := frame_row 25 rfl rfl rfl

theorem frameTc26Other (f : BitVec 112) : Statement (.frameTc26Other f) := frame_row 26 rfl rfl rfl

theorem frameTc27Other (f : BitVec 112) : Statement (.frameTc27Other f) := frame_row 27 rfl rfl rfl

theorem frameTc28Other (f : BitVec 112) : Statement (.frameTc28Other f) := frame_row 28 rfl rfl rfl

theorem frameTc29Other (f : BitVec 112) : Statement (.frameTc29Other f) := frame_row 29 rfl rfl rfl

theorem frameTc30Other (f : BitVec 112) : Statement (.frameTc30Other f) := frame_row 30 rfl rfl rfl

theorem frameTc31Other (f : BitVec 112) : Statement (.frameTc31Other f) := frame_row 31 rfl rfl rfl

end Sys2Proof.Laws.TableRow
end

