-- ==== Sys2Proof/Laws/Phy.lean ====
section
/-!
SUPPORT. The physical layer: the reference waveforms, the modulated signal sample by sample, the real
values of correlations, fading magnitudes and channel outputs.
-/

namespace Sys2Proof.Machine

open ExactReal

/-! ### The reference waveforms -/

theorem phase_eq {fc : Rat} (h : fc ≠ 0) (sps k : Nat) :
    fc * sampleInstant fc sps k = (k : Rat) * 3 / (sps : Rat) := by
  unfold sampleInstant
  rcases eq_or_ne (sps : Rat) 0 with h0 | h0
  · simp [h0]
  · field_simp

/-- The carrier frequency cancels in the references (44_phy_channel R183). -/
theorem ref1_eq {fc : Rat} (h : fc ≠ 0) (sps k : Nat) :
    ref1 fc sps k = sinTurns ((k : Rat) * 3 / (sps : Rat)) := by
  rw [ref1, phase_eq h]

theorem ref0_eq {fc : Rat} (h : fc ≠ 0) (sps k : Nat) :
    ref0 fc sps k = sinTurns ((k : Rat) * 3 / (sps : Rat) + 1 / 2) := by
  rw [ref0, phase_eq h]

theorem symbol_eq {fc fc' : Rat} (h : fc ≠ 0) (h' : fc' ≠ 0) (sps : Nat) (b : Bool) :
    symbol fc sps b = symbol fc' sps b := by
  simp only [symbol, ref1_eq h, ref1_eq h', ref0_eq h, ref0_eq h']

/-- At every sample instant of both legal values of SPS the phase is a multiple of a 32nd of a turn. -/
theorem phase_den (sps : Sps) (k : Nat) : ((k : Rat) * 3 / (sps.count : Rat) * 32).den = 1 ∧
    (((k : Rat) * 3 / (sps.count : Rat) + 1 / 2) * 32).den = 1 := by
  have key : ∀ (q : Rat) (n : Nat), q = (n : Rat) → q.den = 1 := by
    rintro q n rfl; exact Rat.den_natCast n
  cases sps
  · exact ⟨key _ (2 * k) (by simp only [Sps.count]; push_cast; ring),
      key _ (2 * k + 16) (by simp only [Sps.count]; push_cast; ring)⟩
  · exact ⟨key _ k (by simp only [Sps.count]; push_cast; ring),
      key _ (k + 16) (by simp only [Sps.count]; push_cast; ring)⟩

theorem val_ref1 {fc : Rat} (h : fc ≠ 0) (sps : Sps) (k : Nat) :
    (ref1 fc sps.count k).val = Real.sin (2 * Real.pi * 3 * k / sps.count) := by
  rw [ref1_eq h, val_sinTurns (phase_den sps k).1]
  push_cast
  congr 1; ring

theorem val_ref0 {fc : Rat} (h : fc ≠ 0) (sps : Sps) (k : Nat) :
    (ref0 fc sps.count k).val = Real.sin (2 * Real.pi * 3 * k / sps.count + Real.pi) := by
  rw [ref0_eq h, val_sinTurns (phase_den sps k).2]
  push_cast
  congr 1; ring

/-- The phase-180 reference is the opposite of the phase-0 reference. -/
theorem val_ref0_neg {fc : Rat} (h : fc ≠ 0) (sps : Sps) (k : Nat) :
    (ref0 fc sps.count k).val = -(ref1 fc sps.count k).val := by
  rw [val_ref0 h, val_ref1 h, Real.sin_add_pi]

/-! ### Signals sample by sample -/

@[simp] theorem symbol_length (fc : Rat) (sps : Nat) (b : Bool) : (symbol fc sps b).length = sps := by
  simp [symbol]

@[simp] theorem modulate_length (fc : Rat) (sps : Nat) (v : Bits) :
    (modulate fc sps v).length = v.length * sps := by
  induction v with
  | nil => simp [modulate]
  | cons b bs ih =>
    unfold modulate at ih ⊢
    rw [List.flatMap_cons, List.length_append, ih, symbol_length, List.length_cons]
    ring

theorem symbol_getElem? (fc : Rat) (sps : Nat) (b : Bool) {k : Nat} (h : k < sps) :
    (symbol fc sps b)[k]? = some (if b then ref1 fc sps k else ref0 fc sps k) := by
  simp [symbol, h]

/-- Window `j` of a modulated signal is the symbol of bit `j`. -/
theorem window_modulate (fc : Rat) (sps : Nat) {v : Bits} {j : Nat} {b : Bool} (h : v[j]? = some b) :
    window sps (modulate fc sps v) j = symbol fc sps b := by
  induction v generalizing j with
  | nil => simp at h
  | cons a as ih =>
    cases j with
    | zero =>
      simp only [List.getElem?_cons_zero, Option.some.injEq] at h
      subst h
      simp [window, modulate, List.flatMap_cons]
    | succ j =>
      have := ih (j := j) (by simpa using h)
      rw [← this]
      unfold window
      congr 1
      show (symbol fc sps a ++ modulate fc sps as).drop ((j + 1) * sps) = _
      rw [List.drop_append, show (j + 1) * sps = sps + j * sps by ring]
      simp [List.drop_eq_nil_of_le]

/-- Sample `k` of a window is sample `j * sps + k` of the signal. -/
theorem window_getElem? (sps : Nat) (r : List ExactReal) (j : Nat) {k : Nat} (h : k < sps) :
    (window sps r j)[k]? = r[j * sps + k]? := by
  unfold window
  rw [List.getElem?_take, if_pos h, List.getElem?_drop]

/-- A window within the signal has its full length. -/
theorem window_length {sps : Nat} {r : List ExactReal} {j : Nat} (h : j < r.length / sps) :
    (window sps r j).length = sps := by
  unfold window
  rw [List.length_take, List.length_drop]
  have := (Nat.le_div_iff_mul_le (by
    rcases Nat.eq_zero_or_pos sps with h0 | h0
    · simp [h0] at h
    · exact h0)).mp (Nat.succ_le_of_lt h)
  rw [Nat.succ_mul] at this
  omega

theorem modulate_getElem? (fc : Rat) {sps : Nat} {v : Bits} {j k : Nat} {b : Bool}
    (h : v[j]? = some b) (hk : k < sps) : (modulate fc sps v)[j * sps + k]? =
      some (if b then ref1 fc sps k else ref0 fc sps k) := by
  rw [← window_getElem? sps _ j hk, window_modulate fc sps h, symbol_getElem? fc sps b hk]

/-! ### Sums -/

/-- The sum of a list is the sum over its positions. -/
theorem sum_getD (l : List ℝ) : l.sum = ∑ k ∈ Finset.range l.length, l.getD k 0 := by
  induction l with
  | nil => simp
  | cons a as ih =>
    rw [List.sum_cons, List.length_cons, Finset.sum_range_succ', ih, add_comm]
    simp

/-- A correlation as a real sum over the samples of the window. -/
theorem val_correlate {r ref : List ExactReal} (h : r.length = ref.length) :
    (correlate r ref).val =
      ∑ k ∈ Finset.range r.length, sampleVal r k * sampleVal ref k := by
  unfold correlate
  rw [val_total, sum_getD]
  simp only [List.length_map, List.length_zipWith, h, min_self]
  refine Finset.sum_congr rfl fun k hk => ?_
  have hk' : k < ref.length := Finset.mem_range.mp hk
  have hr : k < r.length := h ▸ hk'
  simp [sampleVal, List.getD_eq_getElem?_getD, hr, hk']

/-- The phase-0 correlation of a window, as a real number. -/
theorem val_correlate_ref1 (fc : Rat) {sps : Nat} {r : List ExactReal} (hl : r.length = sps) :
    (correlate r (symbol fc sps true)).val =
      ∑ k ∈ Finset.range sps, sampleVal r k * (ref1 fc sps k).val := by
  rw [val_correlate (by simp [hl]), hl]
  refine Finset.sum_congr rfl fun k hk => ?_
  simp [sampleVal, symbol_getElem? fc sps true (Finset.mem_range.mp hk)]

/-- The phase-180 correlation of a window is the opposite of the phase-0 one. -/
theorem val_correlate_ref0 {fc : Rat} (h : fc ≠ 0) (sps : Sps) {r : List ExactReal}
    (hl : r.length = sps.count) : (correlate r (symbol fc sps.count false)).val =
      -(correlate r (symbol fc sps.count true)).val := by
  rw [val_correlate_ref1 fc hl, val_correlate (by simp [hl]), hl, ← Finset.sum_neg_distrib]
  refine Finset.sum_congr rfl fun k hk => ?_
  have : sampleVal (symbol fc sps.count false) k = -(ref1 fc sps.count k).val := by
    rw [← val_ref0_neg h]
    simp [sampleVal, symbol_getElem? fc sps.count false (Finset.mem_range.mp hk)]
  rw [this]; ring

/-- The squares of the samples of a signal, summed over its positions. -/
theorem sum_squares (r : List ExactReal) :
    (r.map fun x => x.val ^ 2).sum = ∑ k ∈ Finset.range r.length, sampleVal r k ^ 2 := by
  rw [sum_getD, List.length_map]
  refine Finset.sum_congr rfl fun k hk => ?_
  have hk' : k < r.length := Finset.mem_range.mp hk
  simp [sampleVal, List.getD_eq_getElem?_getD, hk']

theorem val_partsEnergy (parts : List (List ExactReal)) :
    (partsEnergy parts).val = parts.length * (parts.flatten.map fun x => x.val ^ 2).sum := by
  unfold partsEnergy
  rw [val_times, val_total, List.map_map, val_ofRat]
  congr 2
  exact List.map_congr_left fun x _ => by simp [sq]

/-- A window is near a tie where its correlation is in the band. -/
theorem nearTie_iff (c1 : ExactReal) (sps : Nat) (parts : List (List ExactReal)) :
    nearTie c1 sps parts = true ↔
      c1.val ^ 2 < (tieBand : ℝ) ^ 2 * (sps / 2) *
        (parts.length * (parts.flatten.map fun x => x.val ^ 2).sum) := by
  rw [nearTie, greater_iff, val_times, val_times, val_partsEnergy, val_ofRat, sq c1.val]
  push_cast
  exact Iff.rfl

/-- The decision is the sign of the phase-0 correlation; in a build that rounds, where that is beyond
rounding distance of 0. -/
theorem decideBit_iff {num : Numerics} {fc : Rat} (h : fc ≠ 0) {sps : Sps} {r : List ExactReal}
    {parts : List (List ExactReal)} {free : Bool} (hl : r.length = sps.count)
    (hs : num = .exact ∨ (tieBand : ℝ) ^ 2 * (sps.count / 2) *
        (parts.length * (parts.flatten.map fun x => x.val ^ 2).sum) ≤
      (∑ k ∈ Finset.range sps.count, sampleVal r k * (ref1 fc sps.count k).val) ^ 2) :
    decideBit num fc sps.count r parts free = true ↔
      0 < ∑ k ∈ Finset.range sps.count, sampleVal r k * (ref1 fc sps.count k).val := by
  have hg : greater (correlate r (symbol fc sps.count true)) (correlate r (symbol fc sps.count false)) =
      true ↔ 0 < ∑ k ∈ Finset.range sps.count, sampleVal r k * (ref1 fc sps.count k).val := by
    rw [greater_iff, val_correlate_ref0 h sps hl, val_correlate_ref1 fc hl]
    constructor <;> intro hx <;> linarith
  unfold decideBit
  cases num with
  | exact => exact hg
  | rounded =>
    have hs' := hs.resolve_left (by simp)
    have hn : ¬ nearTie (correlate r (symbol fc sps.count true)) sps.count parts = true := by
      rw [nearTie_iff, not_lt, val_correlate_ref1 fc hl]
      exact hs'
    simp only [if_neg hn]
    exact hg

/-- The reference decides by the samples alone, whatever they were computed from. -/
theorem demodulate_exact (fc : Rat) (sps : Nat) (r : List ExactReal)
    (parts parts' sources sources' : List (List ExactReal)) :
    demodulate .exact fc sps r parts sources = demodulate .exact fc sps r parts' sources' := rfl

@[simp] theorem demodulate_length (num : Numerics) (fc : Rat) (sps : Nat) (r : List ExactReal)
    (parts sources : List (List ExactReal)) :
    (demodulate num fc sps r parts sources).length = r.length / sps := by
  simp [demodulate]

/-! ### The sums of the references over one symbol -/

theorem reference_sums_exact (sps : Sps) :
    total ((List.range sps.count).map fun k : Nat => sinTurns ((k : Rat) * 3 / (sps.count : Rat))) =
      ofRat 0 ∧
    total ((List.range sps.count).map fun k : Nat =>
      times (sinTurns ((k : Rat) * 3 / (sps.count : Rat)))
        (sinTurns ((k : Rat) * 3 / (sps.count : Rat)))) = ofRat ((sps.count : Rat) / 2) := by
  cases sps
  · decide +kernel
  · decide +kernel

theorem sum_range_total (f : Nat → ExactReal) (n : Nat) :
    ∑ k ∈ Finset.range n, (f k).val = (total ((List.range n).map f)).val := by
  rw [val_total, List.map_map, Finset.sum_range]
  rw [← List.sum_ofFn]
  congr 1
  apply List.ext_getElem <;> simp

/-- The reference sums to 0 over a symbol, its square to half the samples (44_phy_channel R185). -/
theorem reference_sums {fc : Rat} (h : fc ≠ 0) (sps : Sps) :
    (∑ k ∈ Finset.range sps.count, (ref1 fc sps.count k).val = 0) ∧
      (∑ k ∈ Finset.range sps.count, (ref1 fc sps.count k).val ^ 2 = sps.count / 2) := by
  have hx := reference_sums_exact sps
  simp only [ref1_eq h]
  constructor
  · rw [sum_range_total, hx.1]; simp
  · have e : ∀ k ∈ Finset.range sps.count,
        (sinTurns ((k : Rat) * 3 / (sps.count : Rat))).val ^ 2 =
          (times (sinTurns ((k : Rat) * 3 / (sps.count : Rat)))
            (sinTurns ((k : Rat) * 3 / (sps.count : Rat)))).val := by
      intro k _
      rw [val_times]; ring
    rw [Finset.sum_congr rfl e, sum_range_total, hx.2]; simp

/-- The product of the two references sums to minus half the samples (44_phy_channel R185). -/
theorem reference_product {fc : Rat} (h : fc ≠ 0) (sps : Sps) :
    ∑ k ∈ Finset.range sps.count, (ref1 fc sps.count k).val * (ref0 fc sps.count k).val =
      -((sps.count : ℝ) / 2) := by
  rw [← (reference_sums h sps).2, ← Finset.sum_neg_distrib]
  exact Finset.sum_congr rfl fun k _ => by rw [val_ref0_neg h]; ring

/-- The energy of a symbol is half its samples, so that its mean square, and that of any signal of
symbols, is 1/2 (44_phy_channel R185). -/
theorem symbol_energy {fc : Rat} (h : fc ≠ 0) (sps : Sps) (b : Bool) :
    ((symbol fc sps.count b).map fun x => x.val ^ 2).sum = (sps.count / 2 : ℝ) := by
  rw [sum_squares, ← (reference_sums h sps).2, symbol_length]
  refine Finset.sum_congr rfl fun k hk => ?_
  simp only [sampleVal, symbol_getElem? fc sps.count b (Finset.mem_range.mp hk), Option.getD_some]
  cases b
  · simp [val_ref0_neg h]
  · simp

/-! ### Fading and noise -/

@[simp] theorem val_square (x : ExactReal) : (square x).val = x.val ^ 2 := by
  induction x with
  | sqrt y ih =>
    unfold square
    split
    · simp [sq]
    · rename_i hne
      rw [ExactReal.sgn_eq] at hne
      have h0 : 0 ≤ y.val := not_lt.mp fun hlt => hne (sign_neg hlt)
      show y.val = √y.val ^ 2
      rw [Real.sq_sqrt h0]
  | mul y z ihy ihz =>
    unfold square
    rw [val_times, ihy, ihz]
    show _ = (y.val * z.val) ^ 2
    ring
  | div y z ihy ihz =>
    unfold square
    rw [val_quot, ihy, ihz]
    show _ = (y.val / z.val) ^ 2
    rw [div_pow]
  | alg u => simp [square, sq]
  | pow10 t => simp [square, sq]
  | add y z => simp [square, sq]

/-- What a fading magnitude is the root of. -/
theorem val_fadePower (fam : Fading) (x y : Surd3) : (fadePower fam x y).val = (match fam with
    | .rayleigh => x.val ^ 2 + y.val ^ 2
    | .rician => (x.val + 1) ^ 2 + y.val ^ 2) := by
  cases fam <;> simp [fadePower, sq]

/-- A fading magnitude is the real number of its definition. -/
theorem val_fade (fam : Fading) (draw : Nat → Surd3) (n k : Nat) :
    (fade fam (draw (n + 2 * k)) (draw (n + 2 * k + 1))).val = fadingReal fam draw n k := by
  cases fam <;> simp [fade, fadingReal, val_fadePower]

/-- The comparison of a fading magnitude with 0 is exact. -/
theorem fadeIsZero_iff (fam : Fading) (draw : Nat → Surd3) (n k : Nat) :
    fadeIsZero fam (draw (n + 2 * k)) (draw (n + 2 * k + 1)) = true ↔ fadingReal fam draw n k = 0 := by
  unfold fadeIsZero
  rw [beq_iff_eq, ← Surd3.sign_eq, sign_eq_zero_iff, val_fadePower]
  cases fam
  · rw [fadingReal, div_eq_zero_iff, Real.sqrt_eq_zero (by positivity)]
    simp
  · rw [fadingReal, Real.sqrt_eq_zero (by positivity)]

@[simp] theorem fadings_length (draw : Nat → Surd3) (n len : Nat) (fam : Fading) :
    (fadings draw n len fam).length = len := by simp [fadings]

@[simp] theorem noiseDraws_length (draw : Nat → Surd3) (n len : Nat) :
    (noiseDraws draw n len).length = len := by simp [noiseDraws]

/-- Some fading magnitude of the signal is 0, or none is. -/
theorem someFadingIsZero_iff (draw : Nat → Surd3) (n len : Nat) (fam : Fading) :
    someFadingIsZero draw n len fam = true ↔ ∃ k, k < len ∧ fadingReal fam draw n k = 0 := by
  simp [someFadingIsZero, fadeIsZero_iff]

/-- The power of the faded signal is the mean of its squares. -/
theorem val_signalPower (draw : Nat → Surd3) (n : Nat) (fam : Fading) (x : List ExactReal) :
    (signalPower (fadings draw n x.length fam) x).val =
      (∑ k ∈ Finset.range x.length, (fadingReal fam draw n k * sampleVal x k) ^ 2) / x.length := by
  unfold signalPower
  rw [val_quot, val_total, sum_getD, val_ofRat]
  simp only [List.length_map, List.length_zipWith, fadings_length, min_self]
  congr 1
  refine Finset.sum_congr rfl fun k hk => ?_
  have hk' : k < x.length := Finset.mem_range.mp hk
  simp [sampleVal, fadings, hk', val_fade]

/-- The channel: the empty signal, a zero fading magnitude, or a signal of the same length. -/
theorem channel_nil (draw : Nat → Surd3) (n : Nat) (snr : Rat) (fam : Fading) :
    channel draw n snr fam [] = .ok [] := rfl

theorem channelNoise_divZero {draw : Nat → Surd3} {n : Nat} {snr : Rat} {fam : Fading}
    {x : List ExactReal} {k : Nat} (hk : k < x.length) (h : fadingReal fam draw n k = 0) :
    channelNoise draw n snr fam x = .error .divZero := by
  have hx : x ≠ [] := by rintro rfl; simp at hk
  simp only [channelNoise, if_neg hx]
  rw [if_pos ((someFadingIsZero_iff draw n x.length fam).mpr ⟨k, hk, h⟩)]

theorem channel_divZero {draw : Nat → Surd3} {n : Nat} {snr : Rat} {fam : Fading}
    {x : List ExactReal} {k : Nat} (hk : k < x.length) (h : fadingReal fam draw n k = 0) :
    channel draw n snr fam x = .error .divZero := by
  rw [channel, channelNoise_divZero hk h]; rfl

theorem channelNoise_ok {draw : Nat → Surd3} {n : Nat} {snr : Rat} {fam : Fading}
    {x : List ExactReal} (h : ∀ k, k < x.length → fadingReal fam draw n k ≠ 0) :
    ∃ w, channelNoise draw n snr fam x = .ok w ∧ w.length = x.length ∧
      ∀ k, k < x.length → w[k]? = some (noiseTerm
        (noiseScale (signalPower (fadings draw n x.length fam) x) snr)
        (fade fam (draw (n + 2 * k)) (draw (n + 2 * k + 1))) (.alg (draw (n + 2 * x.length + k)))) := by
  rcases eq_or_ne x [] with rfl | hx
  · exact ⟨[], rfl, rfl, by simp⟩
  · have hany : ¬ someFadingIsZero draw n x.length fam = true := by
      rw [someFadingIsZero_iff]
      rintro ⟨k, hk, hz⟩
      exact h k hk hz
    simp only [channelNoise, if_neg hx, if_neg hany]
    refine ⟨_, rfl, by simp, fun k hk => ?_⟩
    simp [fadings, noiseDraws, hk]

@[simp] theorem received_length {x w : List ExactReal} (h : w.length = x.length) :
    (received x w).length = x.length := by
  simp [received, h]

theorem received_getElem? {x w : List ExactReal} (h : w.length = x.length) {k : Nat}
    (hk : k < x.length) : (received x w)[k]? =
      some (plus (x[k]?.getD (.ofRat 0)) (w[k]?.getD (.ofRat 0))) := by
  have hw : k < w.length := by omega
  simp [received, hk, hw]

/-- A received signal is the sum of the sent one and the noise. -/
theorem sampleVal_received {x w : List ExactReal} (h : w.length = x.length) {k : Nat}
    (hk : k < x.length) : sampleVal (received x w) k = sampleVal x k + sampleVal w k := by
  simp only [sampleVal, received_getElem? h hk, Option.getD_some, val_plus]

theorem channel_ok {draw : Nat → Surd3} {n : Nat} {snr : Rat} {fam : Fading}
    {x : List ExactReal} (h : ∀ k, k < x.length → fadingReal fam draw n k ≠ 0) :
    ∃ r, channel draw n snr fam x = .ok r ∧ r.length = x.length ∧
      ∀ k, k < x.length → r[k]? = some (plus (x[k]?.getD (.ofRat 0)) (noiseTerm
        (noiseScale (signalPower (fadings draw n x.length fam) x) snr)
        (fade fam (draw (n + 2 * k)) (draw (n + 2 * k + 1))) (.alg (draw (n + 2 * x.length + k))))) := by
  obtain ⟨w, hw, hl, hk⟩ := channelNoise_ok (snr := snr) h
  refine ⟨received x w, by rw [channel, hw]; rfl, received_length hl, fun k hkl => ?_⟩
  rw [received_getElem? hl hkl, hk k hkl, Option.getD_some]

end Sys2Proof.Machine
end

