-- ==== Sys2Proof/Tests/Slice0.lean ====
section
/-!
SUPPORT. The model's own tests: the well-formedness check, the decoding of words written out from the
spec's tables, the vectors of 95_test_vectors.md, and for every statement with hypotheses a state and
operands that meet them.
-/

namespace Sys2Proof.Tests

-- One test at a time: each may take a thread and its stack.
set_option Elab.async false

open Sys2Proof.Machine

/-! ### Helpers -/

/-- The characters of a string literal. -/
def ascii (s : String) : Chars := s.toList.map fun c => BitVec.ofNat 8 c.toNat

/-- The next state of an outcome. -/
def next? (o : Host.Outcome State Fault Refusal) : Option State :=
  match o with
  | .next t => some t
  | .fault _ | .refused _ => none

/-- The answer of one operation. -/
def ans (i : Instr) (s : State) : Option Response := (next? (exec i s)).bind fun t => t.response

theorem of_next? {o : Host.Outcome State Fault Refusal} {t : State} (h : next? o = some t) :
    o = .next t := by
  cases o <;> simp_all [next?]

theorem of_ans {i : Instr} {s : State} {r : Response} (h : ans i s = some r) :
    ∃ t, exec i s = .next t ∧ t.response = some r := by
  unfold ans at h
  cases ho : exec i s with
  | next t => rw [ho] at h; exact ⟨t, rfl, h⟩
  | fault f => cases f
  | refused f => rw [ho] at h; cases h

theorem of_map {α : Type} {o : Host.Outcome State Fault Refusal} {g : State → α} {a : α}
    (h : (next? o).map g = some a) : ∃ t, o = .next t ∧ g t = a := by
  cases o <;> simp_all [next?]

/-- A finite real operand. -/
def num (q : Rat) : Port Rat := .finite q

/-- The start state of the programs of 95_test_vectors.md section 11, after its CFG.WR lines. -/
def ready : State :=
  { State.reset with
    df := some 17, ca := some 5, fc := some 1090000000, snrDb := some 0, fading := some .rayleigh,
    sps := some .s48 }

/-- `ready` after SEED 1, with a noise source that answers the listed draws. -/
def seeded (noise : List NoiseRun) : State := { ready with rng := some ⟨1, 0⟩, noise := noise }

/-- `ready` in a build that rounds. -/
def rounding : State := { ready with num := .rounded }

/-- The noise source answers the listed numbers in turn. -/
def tape (l : List Rat) : List NoiseRun := l.zipIdx.map fun q => ⟨1, q.2, 1, .ofRat q.1⟩

/-- X = Y = 1 and W = 0 over a frame at 48 samples a symbol (V-XMIT-1). -/
def quiet : List NoiseRun := [⟨1, 0, 10752, .ofRat 1⟩, ⟨1, 10752, 5376, .ofRat 0⟩]

/-- A signal of rational samples. -/
def signal (l : List Rat) : List (Port ExactReal) := l.map fun q => .finite (.ofRat q)

/-- The number is within `1e-9` of a decimal. -/
def near (x : ExactReal) (q : Rat) : Bool :=
  match ExactReal.enclose x with
  | some e => decide (q - 1 / 10 ^ 9 ≤ e.lo) && decide (e.hi ≤ q + 1 / 10 ^ 9)
  | none => false

/-- The answer is a signal near the listed decimals. -/
def nearSignal (r : Option Response) (l : List Rat) : Bool :=
  match r with
  | some (.ok (.signal x)) => x.length == l.length && (List.zipWith near x l).all id
  | _ => false

/-- The record of V-DEC-12. -/
def r0 : Record := ⟨0x40621D, 0, 93000, 51372, 0, 57912 / 5, none⟩

/-- The history of V-CPR-R2. -/
def held : State := { ready with hist := [r0] }

/-! ### Frames of every type code

The frames of V-ID, V-POS, V-DEC where the section has one of the type code; the others are
`8D40621D`, the type code, `123456789ABCD`, and the CRC worked out apart from the model. -/

def frameRows : List (BitVec 112 × (BitVec 112 → Instr)) :=
  [(0x8D40621D00000000000000D44943, .frameTc0Other),
   (0x8800000008820820820820851F46, .frameTc1Ident),
   (0x8DABCDEF178208318208309D54FC, .frameTc2Ident),
   (0x8D40621D1923456789ABCD216079, .frameTc3Ident),
   (0x8D40621D2251504EC31820BE5303, .frameTc4Ident),
   (0x8D40621D2923456789ABCD69551C, .frameTc5Other),
   (0x8D40621D3123456789ABCDB2B5AA, .frameTc6Other),
   (0x8D40621D3923456789ABCD51463F, .frameTc7Other),
   (0x8D40621D4123456789ABCD1ACC43, .frameTc8Other),
   (0x8D3C64444815B2F92C638EAD6BA2, .frameTc9Position),
   (0x8D40621D5123456789ABCD22DF60, .frameTc10Position),
   (0x8D40621D58C382D690C8AC2863A7, .frameTc11Position),
   (0x8D40621D6123456789ABCD6AEA05, .frameTc12Position),
   (0x8D40621D6923456789ABCD891990, .frameTc13Position),
   (0x8D40621D7123456789ABCD52F926, .frameTc14Position),
   (0x8D40621D7923456789ABCDB10AB3, .frameTc15Position)] ++
  [(0x8D40621D8123456789ABCDC5EDDE, .frameTc16Position),
   (0x8D40621D8923456789ABCD261E4B, .frameTc17Position),
   (0x8D40621D9123456789ABCDFDFEFD, .frameTc18Position),
   (0x8D40621D9923456789ABCD1E0D68, .frameTc19Other),
   (0x8DA12345A5378F35617EA5494C6C, .frameTc20Position),
   (0x8D40621DA923456789ABCD56380D, .frameTc21Position),
   (0x8D40621DB123456789ABCD8DD8BB, .frameTc22Position),
   (0x8D40621DB923456789ABCD6E2B2E, .frameTc23Other),
   (0x8D40621DC123456789ABCD25A152, .frameTc24Other),
   (0x8D40621DC923456789ABCDC652C7, .frameTc25Other),
   (0x8D40621DD123456789ABCD1DB271, .frameTc26Other),
   (0x8D40621DD923456789ABCDFE41E4, .frameTc27Other),
   (0x8D40621DE123456789ABCD558714, .frameTc28Other),
   (0x8D40621DE923456789ABCDB67481, .frameTc29Other),
   (0x8D40621DF123456789ABCD6D9437, .frameTc30Other),
   (0x00FFFFFFFF69A69A69A69ADCF227, .frameTc31Other)]

/-! ### Well-formedness and decoding -/

/-- Every frame row refuses a frame of another type code (the frame of the next row). -/
theorem test_wellFormed_refuses_other_type_code :
    (List.zipWith (fun r f => (r.2 f.1).wellFormed) frameRows (frameRows.tail ++ frameRows)).all
      not = true := by decide +kernel

theorem test_wellFormed_accepts_own_type_code :
    frameRows.all (fun r => (r.2 r.1).wellFormed) = true := by decide +kernel

/-- A callsign longer than the port carries is refused, whatever CS_MAX is; eight characters fit. -/
theorem test_wellFormed_callsign :
    (Instr.encId 0 0 (List.replicate (Config.csMax + 1) 65) 4).wellFormed = false ∧
    (Instr.encId 0 0 (List.replicate 8 65) 4).wellFormed = true := by
  simp [Instr.wellFormed, Instr.rowTypeCode, Instr.callsignFits, Config.csMax]

/-- The codes of 30_encoding R78, each with operands of zeros. -/
theorem test_decode_operations :
    [0x01, 0x02, 0x03, 0x04, 0x05, 0x06, 0x07, 0x10, 0x11, 0x12, 0x13, 0x20, 0x21, 0x30, 0x31, 0x32,
      0x33, 0x34, 0x40, 0x41, 0x42, 0x43, 0x50, 0x51, 0x52, 0x53].map (decodeTableWord 8) =
    [.reset, .cfgWr 0 (num 0), .cfgRd 0, .seed 0, .cntRd, .histLen, .histRd 0, .hex2bit [],
      .bit2hex [], .char2six 0, .six2char 0, .crcGen 0, .crcChk 0, .altEnc (num 0), .altDec 0,
      .encId 0 0 [] 0, .encPos 0 0 0 (num 0) (num 0) (num 0) 0 0 0, .dec [], .cprNl (num 0),
      .cprEnc (num 0) (num 0) 0, .cprPair 0 0 0 0 0 0, .cprResolve 0 0 0 0 0, .mod [], .chan [],
      .demod [], .xmit []].map some := by decide +kernel

/-- The same code written bit by bit: `0010 0001` is group 2, code 1, CRC.CHK. -/
theorem test_decode_bits : decodeTableWord 8 0b00100001 = some (.crcChk 0) := by decide +kernel

/-- Operands of every type reach their instruction. -/
theorem test_decode_operands :
    decode (.op 0x02 [.bits 4 5, .real (num 96)]) = .ok (.cfgWr 5 (num 96)) ∧
    decode (.op 0x04 [.nat 7]) = .ok (.seed 7) ∧
    decode (.op 0x11 [.vector [true, false]]) = .ok (.bit2hex [true, false]) ∧
    decode (.op 0x32 [.bits 24 0x40621D, .bits 3 2, .chars (ascii "TUAN01"), .bits 5 4]) =
      .ok (.encId 0x40621D 2 (ascii "TUAN01") 4) ∧
    decode (.op 0x52 [.signal (signal [1])]) = .ok (.demod (signal [1])) := by decide +kernel

/-- The 32 type codes of 30_encoding R81. -/
theorem test_decode_frames :
    frameRows.all (fun r => decodeTableWord 112 r.1.toNat == some (r.2 r.1)) = true := by
  decide +kernel

/-- The frame V-POS-1 written field by field, as the spec writes it out. -/
theorem test_decode_frame_bits :
    decodeTableWord 112 ((0b10001101 <<< 104) + (0b010000000110001000011101 <<< 80) +
      (0b01011 <<< 75) + (0b00 <<< 73) + (0b0 <<< 72) + (0b110000111000 <<< 60) + (93000 <<< 41) +
      (51372 <<< 24) + 0x2863A7) =
    some (.frameTc11Position 0x8D40621D58C382D690C8AC2863A7) := by decide +kernel

/-! ### System operations (V-SYS) -/

theorem test_reset : next? (exec .reset { held with corruptCnt := 3, rng := some ⟨1, 4⟩ }) =
    some { State.reset with response := some (.ok .nothing) } := by decide +kernel

theorem test_cfgWr : (ans (.cfgWr 5 (num 64)) State.reset = some (.raised .operandRange)) ∧
    (next? (exec (.cfgWr 5 (num 96)) State.reset)).map (fun t => t.sps) = some (some .s96) := by
  decide +kernel

theorem test_cfgWr_illegal :
    [Instr.cfgWr 6 (num 0), .cfgWr 0 (num 32), .cfgWr 2 (num 0), .cfgWr 2 (num (-5)),
      .cfgWr 3 .posInf, .cfgWr 4 (num 2)].all
      (fun i => ans i State.reset == some (.raised .operandRange)) = true := by decide +kernel

theorem test_cfgRd : [0, 1, 2, 3, 4, 5].all (fun r => ans (.cfgRd r) State.reset ==
      some (.raised .configUnset)) = true ∧
    ans (.cfgRd 15) State.reset = some (.raised .operandRange) := by decide +kernel

theorem test_cfgRd_values :
    [0, 1, 2, 3, 4, 5].map (fun r => ans (.cfgRd r) { ready with snrDb := some (-300) }) =
      [17, 5, 1090000000, -300, 0, 48].map fun q => some (.ok (.value q)) := by decide +kernel

theorem test_seed : (next? (exec (.seed 7) ready)).map (fun t => t.rng) = some (some ⟨7, 0⟩) := by
  decide +kernel

theorem test_cntRd : ans .cntRd { ready with corruptCnt := 9 } = some (.ok (.count 9)) := by
  decide +kernel

theorem test_histLen : ans .histLen held = some (.ok (.count 1)) := by decide +kernel

theorem test_histRd : ans (.histRd 0) held = some (.ok (.record r0)) ∧
    ans (.histRd 1) held = some (.raised .operandRange) := by decide +kernel

/-! ### BitCodec (V-BC) -/

theorem test_hex2bit : ans (.hex2bit (ascii "8D4")) State.reset =
    some (.ok (.bits [true, false, false, false, true, true, false, true, false, true, false, false])) := by
  decide +kernel

theorem test_hex2bit_malformed :
    [ascii "8d4", ascii "8G", List.replicate 29 48].all
      (fun h => ans (.hex2bit h) State.reset == some (.raised .malformedInput)) = true := by
  decide +kernel

theorem test_bit2hex : ans (.bit2hex (wireBits (0x000409 : BitVec 24))) State.reset =
      some (.ok (.hex (ascii "000409"))) ∧
    ans (.bit2hex [true, false, true]) State.reset = some (.raised .operandRange) := by
  decide +kernel

theorem test_char2six : ((ascii "AZT09 a@[/:-#").map fun c => (charToSix c).toNat) =
    [1, 26, 20, 48, 57, 32, 32, 32, 32, 32, 32, 32, 32] := by decide +kernel

theorem test_six2char : ([1, 26, 48, 57, 32, 0, 27, 31, 33, 47, 58, 63].map sixToChar) =
    ascii "AZ09 #######" := by decide +kernel

/-! ### CRC-24 (V-CRC) -/

theorem test_crcGen :
    ([0, 1, 2, 0x8000000000000000000000, 0xFFFFFFFFFFFFFFFFFFFFFF, 0x8D40621D2251504EC31820,
      0x8D40621D58C382D690C8AC, 0x8D4840D6202CC371C32CE0].map crc24) =
    [0, 0xFFF409, 0x001C1B, 0x3935EA, 0xD1D94C, 0xBE5303, 0x2863A7, 0x576098] := by decide +kernel

theorem test_crcChk :
    ([0x8D40621D2251504EC31820BE5303, 0x8D40621D22D1504EC31820BE5303,
      0x8D40621D2251504EC31820BE5302, 0].map fun f => ans (.crcChk f) State.reset) =
    [some (.ok (.check true 0xBE5303)), some (.ok (.check false 0x2F947C)),
      some (.ok (.check false 0xBE5303)), some (.ok (.check true 0))] := by decide +kernel

/-! ### The frame codec (V-ALT, V-ID, V-POS, V-DEC) -/

theorem test_altEnc :
    ([0, -3048 / 10, -3049 / 10, -100, 152399 / 10, 15240, 621182 / 10, 62119].map
      fun m => ans (.altEnc (num m)) State.reset) =
    [some (.ok (.altField 0x058)), some (.ok (.altField 0x010)), some (.raised .operandRange),
      some (.ok (.altField 0x03A)), some (.ok (.altField 0xFF7)), some (.ok (.altField 0x3EE)),
      some (.ok (.altField 0xFEF)), some (.raised .operandRange)] := by decide +kernel

theorem test_altDec :
    ([0x000, 0x15B, 0x3EE, 0xFFF, 0x00F].map fun a => ans (.altDec a) State.reset) =
    [some (.ok (.altitude 0 0 (-1000) (-1524 / 5))), some (.ok (.altitude 1 171 3275 (49911 / 50))),
      some (.ok (.altitude 0 510 50000 15240)), some (.ok (.altitude 1 2047 50175 (764667 / 50))),
      some (.ok (.altitude 0 15 500 (762 / 5)))] := by decide +kernel

theorem test_encId : ans (.encId 0x40621D 2 (ascii "TUAN01") 4) ready =
    some (.ok (.frame 0x8D40621D2251504EC31820BE5303 (ascii "8D40621D2251504EC31820BE5303"))) := by
  decide +kernel

theorem test_encId_long : ans (.encId 0xABCDEF 7 (ascii "ab-1xyz0123") 2) ready =
    some (.ok (.frame 0x8DABCDEF178208318208309D54FC (ascii "8DABCDEF178208318208309D54FC"))) := by
  decide +kernel

theorem test_encPos : ans (.encPos 0xA12345 2 1 (num 3048) (num (476062 / 10000))
      (num (-1223321 / 10000)) 1 20 1) ready =
    some (.ok (.frame 0x8DA12345A5378F35617EA5494C6C (ascii "8DA12345A5378F35617EA5494C6C"))) := by
  decide +kernel

theorem test_encPos_order : ans (.encPos 0 0 0 (num 0) .posInf (num 0) 0 11 0) State.reset =
      some (.raised .configUnset) ∧
    ans (.encPos 0 0 0 (num 70000) (num 0) (num 0) 0 11 0) ready = some (.raised .operandRange) := by
  decide +kernel

theorem test_dec_position :
    next? (exec (.dec (ascii "8D40621D58C38641ECC31999541A")) held) = some
      { held with
        hist := [r0, ⟨0x40621D, 1, 73974, 49945, 0, 57912 / 5,
          some (428091 / 8192, 64215 / 16384)⟩]
        response := some (.ok (.position ⟨17, 5, 0x40621D, 11⟩
          ⟨0, 0, .barometric, 1, 38000, 57912 / 5, 0, 1, 73974, 49945,
            some (428091 / 8192, 64215 / 16384)⟩)) } := by
  decide +kernel

theorem test_dec_statuses :
    (next? (exec (.dec (ascii "8D40621D22D1504EC31820BE5303")) State.reset) =
      some { State.reset with
        corruptCnt := 1, response := some (.raised .checksumFailure) }) ∧
    (ans (.dec (ascii "8D40621D2251504EC31820BE530")) State.reset =
      some (.raised .malformedInput)) ∧
    ans (.dec (ascii "8D40621D9923456789ABCD1E0D68")) State.reset =
      some (.ok (.other ⟨17, 5, 0x40621D, 19⟩)) := by decide +kernel

/-! ### Frame rows -/

/-- The report of each frame, by its kind. -/
theorem test_frame_rows_kinds :
    (frameRows.map fun r => (ans (r.2 r.1) State.reset).bind Response.kind) =
      ([2, 0, 0, 0, 0, 2, 2, 2, 2, 1, 1, 1, 1, 1, 1, 1] ++
        [1, 1, 1, 2, 1, 1, 1, 2, 2, 2, 2, 2, 2, 2, 2, 2]).map some := by decide +kernel

/-- A frame with its last bit flipped counts a checksum failure in every row. -/
theorem test_frame_rows_corrupt :
    frameRows.all (fun r => (next? (exec (r.2 (r.1 ^^^ 1)) State.reset)).map
      (fun t => (t.corruptCnt, t.hist)) == some (1, [])) = true := by decide +kernel

theorem test_frame_ident : ans (.frameTc4Ident 0x8D40621D2251504EC31820BE5303) State.reset =
    some (.ok (.ident ⟨17, 5, 0x40621D, 4⟩ ⟨2, ascii "TUAN01  "⟩)) := by decide +kernel

theorem test_frame_gnss : (ans (.frameTc20Position 0x8DA12345A5378F35617EA5494C6C) State.reset) =
    some (.ok (.position ⟨17, 5, 0xA12345, 20⟩
      ⟨2, 1, .gnss, 1, 10000, 3048, 1, 1, 105136, 97957, none⟩)) := by decide +kernel

/-! ### CPR (V-CPR) -/

theorem test_cprNl :
    ([0, 1047 / 100, 1048 / 100, 20, 45, 60, -339461 / 10000, 865 / 10, 8699 / 100, 87, -87,
      870001 / 10000, -200].map (calculateNL .exact [])) = [59, 59, 58, 56, 42, 29, 49, 3, 2, 2, 2, 1, 1] := by
  decide +kernel

/-- Near the comparison with 0 the reference answers 59, and a build that rounds 59 or the 60 that 43_cpr
R152 says the formula alone gives at 0. -/
theorem test_cprNl_equator (lat : Rat) (h : lat = 0 ∨ lat = 1 / 10 ^ 5) :
    calculateNL .exact [] lat = 59 ∧ calculateNL .rounded [] lat =
      if Config.roundedAtLeast .equator [lat] = true then 60 else 59 := by
  have hb : ∀ q : Rat, q = 0 ∨ q = 1 / 10 ^ 5 → ratAbs q = q ∧ decide (q < equatorBand) = true ∧
      calculateNL .exact [] q = 59 := by
    rintro q (rfl | rfl) <;> decide +kernel
  obtain ⟨h1, h2, h3⟩ := hb lat h
  refine ⟨h3, ?_⟩
  simp only [calculateNL, equatorRoundsUp, Numerics.origin, h1, h2, Bool.true_and] at h3 ⊢
  split
  · rfl
  · rcases h with rfl | rfl
    · rfl
    · decide +kernel

theorem test_cprEnc :
    ([(52.2572, 3.91937, 0), (52.2572, 3.91937, 1), (-33.9461, 151.1772, 0), (5.99999, 0, 0),
      (3, -0.5, 1), (87, 10, 1), (-90, 359.99999, 1)].map
      fun x : Rat × Rat × BitVec 1 => cprEncode .exact x.1 x.2.1 x.2.2) =
    [(93000, 51372), (73974, 49945), (44868, 75615), (0, 0), (64444, 120331), (33860, 3641),
      (32768, 0)] := by decide +kernel

/-- Away from the boundaries of item U1 a build that rounds answers as the reference. -/
theorem test_cprEnc_rounding :
    ([(52.2572, 3.91937, 0), (52.2572, 3.91937, 1), (-33.9461, 151.1772, 0), (5.99999, 0, 0),
      (3, -0.5, 1)].map fun x : Rat × Rat × BitVec 1 => cprEncode .rounded x.1 x.2.1 x.2.2) =
    [(93000, 51372), (73974, 49945), (44868, 75615), (0, 0), (64444, 120331)] := by decide +kernel

theorem test_cprPair :
    ans (.cprPair 93000 51372 0 73974 49945 1) State.reset =
      some (.ok (.resolved (some (25257375 / 483328, 2247525 / 606208)))) ∧
    ans (.cprPair 44868 75615 0 57228 130657 0) State.reset =
      some (.ok (.resolved (some (-556173 / 16384, 168553395 / 802816 - 360)))) ∧
    ans (.cprPair 97430 25486 0 94051 7282 0) State.reset = some (.ok (.resolved none)) := by
  decide +kernel

/-- The History of V-CPR-R5. -/
def crowded : State :=
  { State.reset with
    hist := [⟨0x40621D, 0, 1, 1, 0, 0, none⟩, ⟨0xA12345, 0, 5, 5, 0, 0, none⟩, r0,
      ⟨0x40621D, 1, 9, 9, 0, 0, none⟩] }

theorem test_cprResolve :
    ans (.cprResolve 0x40621D 1 73974 49945 0) crowded =
      some (.ok (.resolved (some (428091 / 8192, 64215 / 16384)))) ∧
    ans (.cprResolve 0x40621D 0 93000 51372 0) held = some (.ok (.resolved none)) ∧
    ans (.cprResolve 0x40621E 1 73974 49945 0) held = some (.ok (.resolved none)) := by
  decide +kernel

/-! ### The physical layer (V-MOD, V-CHAN, V-DEM, V-XMIT) -/

theorem test_mod : nearSignal ((ans (.mod [true]) ready).map fun r =>
      match r with
      | .ok (.signal x) => .ok (.signal (x.take 9))
      | r => r)
    [0, 0.3826834324, 0.7071067812, 0.9238795325, 1, 0.9238795325, 0.7071067812, 0.3826834324, 0] =
    true := by decide +kernel

theorem test_mod_empty : ans (.mod []) ready = some (.ok (.signal [])) ∧
    ans (.mod [true]) { ready with sps := none } = some (.raised .configUnset) := by decide +kernel

theorem test_chan :
    nearSignal (ans (.chan (signal [1, -1, 1, -1]))
      { seeded (tape [1, 1, -1, 1, 1, -1, 7, 1, 1, 0, -1, 2]) with snrDb := some 10 })
      [1.5916079783, -1, 0.4083920217, -0.7633568087] = true := by decide +kernel

theorem test_chan_rician :
    nearSignal (ans (.chan (signal [1, -1, 0.5, 0]))
      { seeded (tape [0, 0, 2, 0, 2, 4, -4, 4, 2, -2, 0, 1]) with
        snrDb := some 20, fading := some .rician })
      [1.2850438563, -1.0950146188, 0.5, 0.0285043856] = true := by decide +kernel

theorem test_demod :
    ans (.demod ((symbol 1 48 true).map .finite)) ready = some (.ok (.bits [true])) ∧
    ans (.demod (List.replicate 48 (.finite (.ofRat 1)))) ready = some (.ok (.bits [false])) := by
  decide +kernel

/-- V-DEM-4: the tie of a constant window is 0 in the reference, whatever the constant, and either bit in a
build that rounds. -/
theorem test_demod_tie (free : Bool) :
    decideBit .exact 1 48 (List.replicate 48 (.ofRat 1)) [List.replicate 48 (.ofRat 1)] free = false ∧
    decideBit .rounded 1 48 (List.replicate 48 (.ofRat 1)) [List.replicate 48 (.ofRat 1)] free = free := by
  cases free <;> decide +kernel

/-- So does a window of one sample √5, which is outside the field (sixteen samples, for a short test). -/
theorem test_demod_tie_sqrt :
    decideBit .exact 1 16 (List.replicate 16 (.sqrt (.ofRat 5))) [List.replicate 16 (.sqrt (.ofRat 5))] true =
      false := by decide +kernel

/-- Numbers whose enclosure holds 0: √5 √5 - 5 and 10^(1/3) 10^(2/3) - 10 are 0, and
√(1 + 4^-70) - √1 is not. -/
theorem test_sign :
    (ExactReal.minus (.mul (.sqrt (.ofRat 5)) (.sqrt (.ofRat 5))) (.ofRat 5)).sgn = 0 ∧
    (ExactReal.minus (.mul (.pow10 (1 / 3)) (.pow10 (2 / 3))) (.ofRat 10)).sgn = 0 ∧
    (ExactReal.minus (.sqrt (.ofRat (1 + 1 / 4 ^ 70))) (.sqrt (.ofRat 1))).sgn = 1 := by decide +kernel

/-- Noise that cancels a sent 1 exactly: the window of zeros is 0 as DEMOD's operand in any build, and
either bit in XMIT, whose build rounds both parts (00_scope R14). -/
theorem test_xmit_cancelled (free : Bool) :
    decideBit .rounded 1 48 (List.replicate 48 (.ofRat 0)) [List.replicate 48 (.ofRat 0)] free = false ∧
    decideBit .rounded 1 48 (List.replicate 48 (.ofRat 0)) [symbol 1 48 true, symbol 1 48 false] free =
      free := by
  cases free <;> decide +kernel

/-- One symbol through the channel at 0 dB with every `h` the root of 5/2, so that the noise is W/2: at
W = -48 on the sample where the reference is 1 the correlation is exactly 0, a tie, and the bit 0. -/
theorem test_xmit_tie :
    (match channel (fun i => Surd3.ofRat (if i = 100 then -48 else if 96 ≤ i then 0 else (i % 2 : Nat) + 1))
        0 0 .rayleigh (symbol 1 48 true) with
      | .ok r => demodulate .exact 1 48 r [r] [r]
      | .error _ => []) = [false] := by decide +kernel

theorem test_demod_length : ans (.demod (List.replicate 47 (.finite (.ofRat 1)))) ready =
    some (.raised .operandRange) := by decide +kernel

/-- V-XMIT-4 and V-XMIT-6, before any sample is computed. -/
theorem test_xmit :
    ans (.xmit (List.replicate 27 48)) State.reset = some (.raised .malformedInput) ∧
    ans (.xmit (ascii "8D40621D2251504EC31820BE5303")) ready = some (.raised .configUnset) := by
  decide +kernel

/-! ### Witnesses

For each statement of Certificates/Slice0 with hypotheses, values that meet them, clause by clause and at
the ends of their ranges. -/

/-- The request waits at the port. -/
def asked (r : Request) : State := { ready with requests := [r] }

theorem witness_StepRunsTheDecodedInstruction :
    ((asked (.op 0x05 [])).requests.head? = some (.op 0x05 []) ∧
      decode (.op 0x05 []) = .ok .cntRd) ∧
    (ready.requests = []) ∧
    ((asked (.op 0x05 [.nat 0])).requests.head? = some (.op 0x05 [.nat 0]) ∧
      decode (.op 0x05 [.nat 0]) = .error .operandTypes) := by decide +kernel

theorem witness_DecodeAndEncodeAgree :
    (Instr.frameTc0Other 0).wellFormed = true ∧ (Instr.xmit (ascii "8D")).wellFormed = true ∧
    decode (.frame (BitVec.allOnes 112)) = .ok (.frameTc31Other (BitVec.allOnes 112)) := by
  decide +kernel

/-- The ends of every range of unused codes. -/
theorem witness_UnknownCodeIsIllegal : ∀ code : BitVec 8,
    code ∈ [0x00, 0x08, 0x0F, 0x14, 0x1F, 0x22, 0x2F, 0x35, 0x3F, 0x44, 0x4F, 0x54, 0x5F, 0x60, 0xFF] →
    (code.toNat = 0 ∨ (0x08 ≤ code.toNat ∧ code.toNat ≤ 0x0F) ∨
      (0x14 ≤ code.toNat ∧ code.toNat ≤ 0x1F) ∨ (0x22 ≤ code.toNat ∧ code.toNat ≤ 0x2F) ∨
      (0x35 ≤ code.toNat ∧ code.toNat ≤ 0x3F) ∨ (0x44 ≤ code.toNat ∧ code.toNat ≤ 0x4F) ∨
      (0x54 ≤ code.toNat ∧ code.toNat ≤ 0x5F) ∨ 0x60 ≤ code.toNat) ∧
    (asked (.op code [])).requests.head? = some (.op code []) := by decide +kernel

/-- DEC of a corrupt frame, and CFG.WR of an illegal value. -/
theorem witness_FailedOperationChangesNothing :
    (∃ t, exec (.dec (ascii "8D40621D22D1504EC31820BE5303")) held = .next t ∧
      t.response = some (.raised .checksumFailure)) ∧
    (∃ t, exec (.cfgWr 5 (num 64)) held = .next t ∧ t.response = some (.raised .operandRange)) :=
  ⟨of_ans (by decide +kernel), of_ans (by decide +kernel)⟩

theorem witness_StatusesAreThoseOfTheTable :
    (∃ t, exec (.xmit []) ready = .next t ∧ t.response = some (.raised .malformedInput)) ∧
    (∃ t, exec (.frameTc0Other 1) ready = .next t ∧
      t.response = some (.raised .checksumFailure)) :=
  ⟨of_ans (by decide +kernel), of_ans (by decide +kernel)⟩

theorem witness_OnlyNamedStateIsWritten :
    (∃ t, exec (.seed 1) held = .next t ∧ writesConfig (.seed 1) = false ∧
      receivesFrame (.seed 1) = false ∧ Instr.seed 1 ≠ .reset) ∧
    (∃ t, exec (.cfgWr 0 (num 31)) held = .next t ∧ writesRng (.cfgWr 0 (num 31)) = false) :=
  ⟨⟨_, rfl, by decide +kernel⟩, ⟨_, rfl, by decide +kernel⟩⟩

/-- A DEC that appends after one record, and that record's index. -/
theorem witness_HistoryIsAppendOnly :
    (∃ t, exec (.frameTc11Position 0x8D40621D58C38641ECC31999541A) held = .next t ∧
      t.hist.length = 2) ∧
    Instr.frameTc11Position 0x8D40621D58C38641ECC31999541A ≠ .reset ∧ 0 < held.hist.length :=
  ⟨of_map (g := fun t => t.hist.length) (by decide +kernel), by decide +kernel⟩

/-- A state with legal registers and one record, and a step that appends a second. -/
theorem witness_StepKeepsTheInvariant :
    ({ asked (.frame 0x8D40621D58C38641ECC31999541A) with hist := [r0] } : State).Inv ∧
    ∃ t, step { asked (.frame 0x8D40621D58C38641ECC31999541A) with hist := [r0] } = .next t ∧
      t.hist.length = 2 :=
  ⟨⟨by rintro fc ⟨⟩; norm_num, by decide +kernel⟩,
    of_map (g := fun t => t.hist.length) (by decide +kernel)⟩

theorem witness_ResetClearsAllState : ∃ t, exec .histLen held = .next t ∧ Instr.histLen ≠ .reset :=
  ⟨_, rfl, by decide +kernel⟩

theorem natBound {q : Rat} (n : Nat) (h : ∀ k < n + 1, q ≠ ((k : Nat) : Rat)) :
    ¬ ∃ k : Nat, k ≤ n ∧ q = k := fun ⟨k, hk, he⟩ => h k (by omega) he

/-- The ends of every register's legal values, and the values just beyond them. -/
theorem witness_CfgWrWritesLegalValuesOnly :
    legalValue 0 (num 0) ∧ legalValue 0 (num 31) ∧ legalValue 1 (num 7) ∧
    legalValue 2 (num (1 / 1000)) ∧ legalValue 3 (num (-300)) ∧ legalValue 4 (num 1) ∧
    legalValue 5 (num 48) ∧ legalValue 5 (num 96) ∧
    ¬ legalValue 0 (num 32) ∧ ¬ legalValue 0 (num (-1)) ∧ ¬ legalValue 0 (num (1 / 2)) ∧
    ¬ legalValue 1 (num 8) ∧ ¬ legalValue 2 (num 0) ∧ ¬ legalValue 3 .nan ∧
    ¬ legalValue 4 (num 2) ∧ ¬ legalValue 5 (num 64) ∧ ¬ legalValue 6 (num 0) ∧
    ¬ legalValue 15 (num 0) := by
  refine ⟨.inl ⟨rfl, 0, by norm_num⟩, .inl ⟨rfl, 31, by norm_num⟩,
    .inr (.inl ⟨rfl, 7, by norm_num⟩), ?_, ?_, ?_, ?_, ?_, ?_, ?_, ?_, ?_, ?_, ?_, ?_, ?_, ?_, ?_⟩
  case refine_6 => have := natBound (q := 32) 31 (by decide +kernel); simp [legalValue, num, this]
  case refine_7 => have := natBound (q := -1) 31 (by decide +kernel); simp [legalValue, num, this]
  case refine_8 => have := natBound (q := 1 / 2) 31 (by decide +kernel); simpa [legalValue, num] using this
  case refine_9 => have := natBound (q := 8) 7 (by decide +kernel); simp [legalValue, num, this]
  all_goals simp [legalValue, num]

theorem witness_CfgRdReturnsTheRegister :
    5 < (6 : BitVec 4).toNat ∧ 5 < (15 : BitVec 4).toNat ∧
    (∃ t, exec (.cfgWr 5 (.finite 96)) ready = .next t ∧ t.response = some (.ok .nothing)) ∧
    (∃ t, exec (.cfgWr 0 (.finite 31)) ready = .next t ∧ t.response = some (.ok .nothing)) :=
  ⟨by decide, by decide, of_ans (by decide +kernel), of_ans (by decide +kernel)⟩

/-- CHAN and XMIT in turn, over states that differ in all but the channel's registers. -/
theorem witness_SeedRestartsTheDraws :
    (∀ i ∈ [Instr.chan (signal [1]), .xmit (ascii "8D40621D2251504EC31820BE5303"), .chan []],
      draws i = true) ∧
    sameChannel (seeded quiet)
      { seeded quiet with df := none, hist := [r0], corruptCnt := 3, rng := some ⟨9, 4⟩ } := by
  unfold sameChannel
  decide +kernel

theorem witness_CounterAndHistoryReads :
    held.hist[0]? = some r0 ∧ held.hist.length ≤ 1 ∧
    (∃ t, exec (.dec (ascii "8D40621D58C38641ECC31999541A")) held = .next t ∧ t.hist.length = 2) ∧
    Instr.dec (ascii "8D40621D58C38641ECC31999541A") ≠ .reset :=
  ⟨by decide +kernel, by decide +kernel, of_map (g := fun t => t.hist.length) (by decide +kernel),
    by decide +kernel⟩

theorem frameText_iff (h : Chars) : frameText h ↔ (h.length == 28 && h.all fun c =>
    (48 ≤ c.toNat && c.toNat ≤ 57) || (65 ≤ c.toNat && c.toNat ≤ 70)) = true := by
  simp [frameText, hexDigit]

/-- One register unset, the others set. -/
theorem witness_UnsetRegistersAreRefused :
    State.reset.df = none ∧ State.reset.ca = none ∧ State.reset.fc = none ∧
    State.reset.snrDb = none ∧ State.reset.fading = none ∧ State.reset.sps = none ∧
    ({ ready with ca := none } : State).ca = none ∧ ({ ready with sps := none } : State).sps = none ∧
    ready.rng = none ∧ frameText (ascii "8D40621D2251504EC31820BE5303") := by
  rw [frameText_iff]
  decide +kernel

/-- Just beyond each end of the altitude range, and a non-finite altitude. -/
theorem altOutOfRange_ends : altOutOfRange .exact (num (-30481 / 100)) ∧
    altOutOfRange .rounded (num (6211825 / 100)) ∧ altOutOfRange .rounded .nan := by
  refine ⟨?_, ?_, nofun⟩ <;>
  · rintro q ⟨⟩
    norm_num [Numerics.altSlack, Numerics.slack, roundingDistance, ratAbs_eq, abs_of_pos, abs_of_neg]

/-- The ends of the altitude range of the reference, and of a build that rounds. -/
theorem altInRange_ends : altInRange .exact (-3048 / 10) ∧ altInRange .exact 62118 ∧
    altInRange .rounded (-304) ∧ altInRange .rounded 62118 := by
  refine ⟨?_, ?_, ?_, ?_⟩ <;>
    norm_num [altInRange, Numerics.altSlack, Numerics.slack, roundingDistance, ratAbs_eq, abs_of_pos,
      abs_of_neg]

theorem witness_OutOfRangeOperandsAreRefused :
    5 < (6 : BitVec 4).toNat ∧ ¬ legalValue 2 (num 0) ∧ State.reset.hist.length ≤ 0 ∧
    (List.replicate 3 true).length % 4 ≠ 0 ∧ 112 < (List.replicate 116 true).length ∧
    (altOutOfRange .exact (num (-30481 / 100)) ∧ altOutOfRange .rounded (num (6211825 / 100)) ∧
      altOutOfRange .rounded .nan) ∧
    (ready.df ≠ none ∧ ready.ca ≠ none ∧ ∀ q, Port.posInf ≠ .finite (α := Rat) q) ∧
    (ready.fc ≠ none ∧ ready.sps = some .s48 ∧ Config.nbitsMax <
      (List.replicate (Config.nbitsMax + 1) true).length) ∧
    ((seeded []).snrDb ≠ none ∧ (seeded []).fading ≠ none ∧ (seeded []).rng ≠ none ∧
      ∃ p ∈ [Port.nan], ∀ q : ExactReal, p ≠ .finite q) ∧
    ((signal [1]).length % Sps.s48.count ≠ 0) := by
  refine ⟨by decide, ?_, by decide, by decide, by decide, altOutOfRange_ends,
    ⟨by decide, by decide, nofun⟩,
    ⟨by decide, rfl, by simp⟩, ⟨by decide, by decide, by decide, .nan, by simp, nofun⟩, by decide⟩
  simp [legalValue, num]

theorem witness_MalformedStringsAreRefused :
    (¬ frameText (List.replicate 27 48) ∧ ¬ frameText (List.replicate 29 48) ∧
      ¬ frameText (ascii "8d40621d2251504ec31820be5303")) ∧
    28 < (List.replicate 29 (48 : Byte)).length ∧
    (∀ c ∈ ascii "/:@G", ¬ hexDigit c) := by
  simp only [frameText_iff]
  unfold hexDigit
  decide +kernel

theorem witness_HexStringGivesItsBits :
    ((ascii "09AF").length ≤ 28 ∧ ∀ c ∈ ascii "09AF", hexDigit c) ∧
    ((List.replicate 28 (70 : Byte)).length ≤ 28 ∧ ∀ c ∈ List.replicate 28 (70 : Byte), hexDigit c) ∧
    ((ascii "09AF")[3]? = some 70 ∧ 3 < 4) ∧ 28 < (List.replicate 29 (48 : Byte)).length := by
  unfold hexDigit
  decide +kernel

theorem witness_BitsGiveTheirHexString :
    (([] : Bits).length % 4 = 0 ∧ ([] : Bits).length ≤ 112) ∧
    ((List.replicate 112 true).length % 4 = 0 ∧ (List.replicate 112 true).length ≤ 112) ∧
    (27 < (List.replicate 112 true).length / 4) ∧
    ((List.replicate 3 true).length % 4 ≠ 0 ∧ 112 < (List.replicate 116 true).length) := by decide

theorem witness_BitCodecRoundTrips :
    ((List.replicate 112 true).length % 4 = 0 ∧ (List.replicate 112 true).length ≤ 112) ∧
    hexToBits (ascii "0") = .ok [false, false, false, false] ∧
    (∀ c ∈ ascii "AZ09 ", alphabetChar c) ∧ (∀ c ∈ ascii "@[/:#", ¬ alphabetChar c) ∧
    (∀ x ∈ [1, 26, 32, 48, 57], ((1 ≤ (x : BitVec 6).toNat ∧ x.toNat ≤ 26) ∨ x.toNat = 32 ∨
      (48 ≤ x.toNat ∧ x.toNat ≤ 57))) ∧
    (∀ x ∈ [0, 27, 31, 33, 47, 58, 63], ¬ ((1 ≤ (x : BitVec 6).toNat ∧ x.toNat ≤ 26) ∨
      x.toNat = 32 ∨ (48 ≤ x.toNat ∧ x.toNat ≤ 57))) := by
  unfold alphabetChar
  decide +kernel

theorem witness_SingleBitErrorsAreDetected :
    0 < 88 ∧ 87 < 88 ∧ 111 < 112 ∧ crcPasses 0x8D40621D2251504EC31820BE5303 = true := by
  decide +kernel

/-- The ends of the range, the two sides of 50000 ft, and just beyond the range. -/
theorem witness_AltitudeFieldIsEncodedAndDecoded :
    (altInRange .exact (-3048 / 10) ∧ altInRange .exact 62118 ∧
      altInRange .rounded (-304) ∧ altInRange .rounded 62118) ∧
    (ready.num = .exact ∧ -1000 ≤ (-3048 / 10 : Rat) * 1250 / 381 ∧
      (-3048 / 10 : Rat) * 1250 / 381 < 203800) ∧
    (-1000 ≤ (152399 / 10 : Rat) * 1250 / 381 ∧ (152399 / 10 : Rat) * 1250 / 381 < 50000) ∧
    (50000 ≤ (15240 : Rat) * 1250 / 381) ∧
    (50000 ≤ (62118 : Rat) * 1250 / 381 ∧ (62118 : Rat) * 1250 / 381 < 203800) ∧
    (altOutOfRange .exact (num (-30481 / 100)) ∧ altOutOfRange .rounded (num (6211825 / 100)) ∧
      altOutOfRange .rounded .nan) :=
  ⟨altInRange_ends, ⟨rfl, by norm_num, by norm_num⟩, by norm_num, by norm_num, by norm_num,
    altOutOfRange_ends⟩

theorem witness_AltitudeRoundTrip :
    exec (.altEnc (.finite (-3048 / 10))) ready = .next (ready.after (.ok (.altField 0x010))) ∧
    exec (.altEnc (.finite 15240)) ready = .next (ready.after (.ok (.altField 0x3EE))) ∧
    exec (.altEnc (.finite (621182 / 10))) ready = .next (ready.after (.ok (.altField 0xFEF))) ∧
    exec (.altEnc (.finite (-100))) rounding = .next (rounding.after (.ok (.altField 0x03A))) :=
  ⟨of_next? (by decide +kernel), of_next? (by decide +kernel), of_next? (by decide +kernel),
    of_next? (by decide +kernel)⟩

/-- A callsign of eight characters and one just longer than the port carries. -/
theorem witness_EncIdBuildsTheFrame :
    (List.replicate 8 (65 : Byte)).length ≤ Config.csMax ∧
    (Config.csMax < (List.replicate (Config.csMax + 1) (65 : Byte)).length ∧
      (asked (.op 0x32 [.bits 24 0, .bits 3 0, .chars (List.replicate (Config.csMax + 1) 65),
        .bits 5 4])).requests.head? = some (.op 0x32 [.bits 24 0, .bits 3 0,
          .chars (List.replicate (Config.csMax + 1) 65), .bits 5 4])) ∧
    (ready.df = some 17 ∧ ready.ca = some 5) ∧ State.reset.df = none ∧ 7 < 8 :=
  ⟨by simp [Config.csMax], ⟨by simp, rfl⟩, by decide, rfl, by decide⟩

theorem witness_EncPosBuildsTheFrame :
    (ready.df = some 17 ∧ ready.ca = some 5) ∧
    (altInRange .exact (-3048 / 10) ∧ altInRange .exact 62118 ∧
      altInRange .rounded (-304) ∧ altInRange .rounded 62118) ∧
    State.reset.df = none ∧ ({ ready with ca := none } : State).ca = none ∧
    altOutOfRange .exact (num (-30481 / 100)) ∧ (∀ q, Port.negInf ≠ .finite (α := Rat) q) :=
  ⟨by decide, altInRange_ends, rfl, rfl, altOutOfRange_ends.1, nofun⟩

theorem witness_EncodedFramesDecode :
    (ready.df = some 17 ∧ ready.ca = some 5) ∧
    (1 ≤ (1 : BitVec 5).toNat ∧ (4 : BitVec 5).toNat ≤ 4) ∧
    ((ascii "TUAN0109").length ≤ 8 ∧ ∀ c ∈ ascii "TUAN0109", alphabetChar c) ∧
    (∀ tc ∈ [9, 18, 20, 22], (9 ≤ (tc : BitVec 5).toNat ∧ tc.toNat ≤ 18) ∨
      (20 ≤ tc.toNat ∧ tc.toNat ≤ 22)) ∧
    (altInRange .exact (-3048 / 10) ∧ altInRange .exact 62118 ∧
      altInRange .rounded (-304) ∧ altInRange .rounded 62118) := by
  refine ⟨by decide, by decide, ?_, by decide +kernel, altInRange_ends⟩
  unfold alphabetChar
  decide +kernel

theorem witness_DecCountsChecksumFailures :
    crc24 ((0x8D40621D2251504EC31820BE5302 : BitVec 112).extractLsb' 24 88) ≠
      (0x8D40621D2251504EC31820BE5302 : BitVec 112).extractLsb' 0 24 := by decide +kernel

/-- A frame with a matching CRC for every type code, the ends of the three kinds included. -/
theorem witness_DecReportsByTypeCode :
    (frameRows.all fun r =>
      crc24 (r.1.extractLsb' 24 88) == r.1.extractLsb' 0 24) = true ∧
    (frameRows.map fun r => (r.1.extractLsb' 75 5).toNat) = List.range 32 := by decide +kernel

theorem witness_DecIsTheFrameRow : frameText (ascii "8D40621D2251504EC31820BE5303") := by
  rw [frameText_iff]
  decide +kernel

theorem witness_IdentRowsReport :
    crcPasses 0x8D40621D2251504EC31820BE5303 = true ∧
    crcPasses 0x8D40621D22D1504EC31820BE5303 = false := by decide +kernel

theorem witness_PositionRowsReportAndAppend :
    crcPasses 0x8D40621D58C382D690C8AC2863A7 = true ∧
    crcPasses 0x8DA12345A5378F35617EA5494C6C = true ∧
    crcPasses 0x8DA12345A5378F35617EA5494C6D = false := by decide +kernel

theorem witness_OtherRowsReportThePrefix :
    crcPasses 0 = true ∧ crcPasses 0x00FFFFFFFF69A69A69A69ADCF227 = true ∧ crcPasses 1 = false := by
  decide +kernel

theorem witness_HistFindReturnsTheNewestPartner :
    histFind crowded.hist 0x40621D 1 = some r0 ∧ histFind held.hist 0x40621D 0 = none := by
  decide +kernel

theorem witness_ZoneCountProperties :
    |(87 : Rat)| = 87 ∧ |(-87 : Rat)| = 87 ∧ 87 < |(870001 / 10000 : Rat)| ∧
    87 + Numerics.exact.slack (1 / 10 ^ 9) ≤ |(870001 / 10000 : Rat)| ∧
    87 + Numerics.rounded.slack (1 / 10 ^ 9) ≤ |(870001 / 10000 : Rat)| ∧
    Numerics.exact.slack equatorBand ≤ |(0 : Rat)| ∧
    Numerics.rounded.slack equatorBand ≤ |(1 / 10000 : Rat)| ∧ |(9 / 100000 : Rat)| < equatorBand := by
  norm_num [abs_of_pos, equatorBand]

/-- At each end of a zone of the table, the first, one inside and the last. -/
theorem witness_ZoneCountFollowsTheTable :
    (Numerics.rounded.slack equatorBand ≤ |(104704712990 / 10 ^ 10 : Rat)| ∧
      |(104704712990 / 10 ^ 10 : Rat)| ≤ 104704713000 / 10 ^ 10 - 1 / 10 ^ 9) ∧
    (transitions[0]? = some (59, 104704713000) ∧ transitions[1]? = some (58, 148281743687) ∧
      (104704713000 : Rat) / 10 ^ 10 + 1 / 10 ^ 9 ≤ |(104704713010 / 10 ^ 10 : Rat)| ∧
      |(104704713010 / 10 ^ 10 : Rat)| ≤ (148281743687 : Rat) / 10 ^ 10 - 1 / 10 ^ 9) ∧
    (transitions[55]? = some (4, 857554162094) ∧ transitions[56]? = some (3, 865353699751)) ∧
    ((865353699751 : Rat) / 10 ^ 10 + 1 / 10 ^ 9 ≤ |(869999999990 / 10 ^ 10 : Rat)| ∧
      |(869999999990 / 10 ^ 10 : Rat)| ≤ 87 - Numerics.rounded.slack (1 / 10 ^ 9)) := by
  refine ⟨⟨?_, ?_⟩, ⟨rfl, rfl, ?_, ?_⟩, ⟨rfl, rfl⟩, ?_, ?_⟩ <;>
    rw [abs_of_pos (by norm_num)] <;> norm_num [equatorBand]

theorem witness_CprEncFollowsTheFormulas : ∀ q, Port.nan ≠ .finite (α := Rat) q := nofun

/-- A position south of the equator, in the reference and in a build that rounds. -/
theorem witness_ResolvedPositionRanges : ∀ s ∈ [ready, rounding], ∃ t,
    exec (.cprPair 44868 75615 0 57228 130657 0) s = .next t ∧
    t.response = some (.ok (.resolved (some (-556173 / 16384, 168553395 / 802816 - 360)))) := by
  have h : ∀ s ∈ [ready, rounding], ans (.cprPair 44868 75615 0 57228 130657 0) s =
      some (.ok (.resolved (some (-556173 / 16384, 168553395 / 802816 - 360)))) := by decide +kernel
  exact fun s hs => of_ans (h s hs)

/-- The two reports of one position resolve: at 52.2572 north with either report selected, and at both
poles. -/
theorem witness_PairRecoversTheLatitude :
    ready.num = .exact ∧
    (exec (.cprEnc (.finite (522572 / 10000)) (.finite (391937 / 100000)) 0) ready =
        .next (ready.after (.ok (.cpr 93000 51372))) ∧
      exec (.cprEnc (.finite (522572 / 10000)) (.finite (391937 / 100000)) 1) ready =
        .next (ready.after (.ok (.cpr 73974 49945))) ∧
      exec (.cprPair 93000 51372 0 73974 49945 0) ready =
        .next (ready.after (.ok (.resolved (some (428091 / 8192, 64215 / 16384))))) ∧
      exec (.cprPair 93000 51372 0 73974 49945 1) ready =
        .next (ready.after (.ok (.resolved (some (25257375 / 483328, 2247525 / 606208)))))) ∧
    (exec (.cprEnc (.finite (-90)) (.finite 0) 0) ready = .next (ready.after (.ok (.cpr 0 0))) ∧
      exec (.cprEnc (.finite (-90)) (.finite 0) 1) ready =
        .next (ready.after (.ok (.cpr 32768 0))) ∧
      exec (.cprPair 0 0 0 32768 0 1) ready =
        .next (ready.after (.ok (.resolved (some (-90, 0)))))) ∧
    (exec (.cprEnc (.finite 90) (.finite 0) 0) ready = .next (ready.after (.ok (.cpr 0 0))) ∧
      exec (.cprEnc (.finite 90) (.finite 0) 1) ready =
        .next (ready.after (.ok (.cpr 98304 0))) ∧
      exec (.cprPair 0 0 0 98304 0 0) ready =
        .next (ready.after (.ok (.resolved (some (90, 0)))))) := by
  refine ⟨rfl, ⟨?_, ?_, ?_, ?_⟩, ⟨?_, ?_, ?_⟩, ⟨?_, ?_, ?_⟩⟩ <;> exact of_next? (by decide +kernel)

theorem witness_PairRecoversTheLongitude :
    ready.num = .exact ∧
    calculateNL ready.num [] (522572 / 10000 + 1) + 1 = calculateNL ready.num [] (522572 / 10000) ∧
    calculateNL ready.num [] (428091 / 8192) = calculateNL ready.num [] (522572 / 10000) ∧
    (0 : BitVec 1) ≤ 0 ∧
    exec (.cprPair 93000 51372 0 73974 49945 0) ready =
      .next (ready.after (.ok (.resolved (some (428091 / 8192, 64215 / 16384))))) :=
  ⟨rfl, by decide +kernel, by decide +kernel, by decide, of_next? (by decide +kernel)⟩

theorem witness_CprResolvePairsTheNewestPartner :
    histFind held.hist 0x40621D 0 = none ∧ histFind crowded.hist 0x40621D 1 = some r0 ∧
    histFind crowded.hist 0x40621D 0 = some ⟨0x40621D, 1, 9, 9, 0, 0, none⟩ := by decide +kernel

theorem witness_ModulatedSamplesAreSines :
    (ready.fc = some 1090000000 ∧ (0 : Rat) < 1090000000 ∧ ready.sps = some .s48) ∧
    (List.replicate 112 true).length ≤ Config.nbitsMax ∧
    ([true, false][1]? = some false ∧ 47 < Sps.s48.count ∧ 95 < Sps.s96.count) ∧
    State.reset.fc = none ∧ ({ ready with sps := none } : State).sps = none ∧
    Config.nbitsMax < (List.replicate (Config.nbitsMax + 1) true).length :=
  ⟨⟨rfl, by norm_num, rfl⟩, by simp [Config.nbitsMax], by decide, rfl, rfl, by simp⟩

theorem witness_WaveformSums : (0 : Rat) < 1 ∧ [true] ≠ [] := ⟨by norm_num, by decide⟩

/-- A window of zeros is settled in any build: its correlation is 0 and so is its energy. -/
theorem settled_zeros (m : Numerics) : settled m .s48 (List.replicate 48 (.ofRat 0)) 0 := by
  have h : ∀ k, sampleVal (List.replicate 48 (ExactReal.ofRat 0)) k = 0 := by
    intro k
    rcases Nat.lt_or_ge k 48 with hk | hk <;>
      simp [-List.reduceReplicate, sampleVal, hk]
  right
  simp [-List.reduceReplicate, correlationReal, h]

/-- Two carrier frequencies, and a window settled in the reference and in a build that rounds. -/
theorem witness_CarrierFrequencyCancels :
    ((0 : Rat) < 1 / 1000 ∧ (0 : Rat) < 1090000000) ∧
    (ready.num = .exact ∧ ready.sps = some .s48 ∧
      (List.replicate 48 (ExactReal.ofRat 0)).length % Sps.s48.count = 0 ∧
      (List.replicate 48 (ExactReal.ofRat 0)).length / Sps.s48.count ≤ Config.nbitsMax) ∧
    settled ready.num .s48 (symbol 1 48 true) 0 ∧
    settled rounding.num .s48 (List.replicate 48 (.ofRat 0)) 0 :=
  ⟨by norm_num, ⟨rfl, rfl, rfl, Nat.le_trans (show 1 ≤ 112 by decide) (Nat.le_add_left 112 Config.nbitsExtra)⟩, .inl rfl,
    settled_zeros _⟩

theorem witness_DemodulatedBitsAreCorrelationSigns :
    (ready.fc = some 1090000000 ∧ ready.sps = some .s48 ∧ ready.num = .exact ∧
      rounding.num = .rounded ∧
      (List.replicate 48 (ExactReal.ofRat 0)).length % Sps.s48.count = 0 ∧
      (List.replicate 48 (ExactReal.ofRat 0)).length / Sps.s48.count = 1) ∧
    settled ready.num .s48 (symbol 1 48 true) 0 ∧
    settled rounding.num .s48 (List.replicate 48 (.ofRat 0)) 0 :=
  ⟨by decide +kernel, .inl rfl, settled_zeros _⟩

/-- A sent 1 over a channel that adds nothing, and over one that cancels it. -/
theorem witness_BitsSurviveBoundedNoise :
    (∀ s ∈ [ready, rounding],
      exec (.mod [true]) s = .next (s.after (.ok (.signal (symbol 1090000000 48 true)))) ∧
      exec (.demod ((symbol 1090000000 48 true).map .finite)) s = .next (s.after (.ok (.bits [true]))) ∧
      exec (.demod ((List.replicate 48 (.ofRat 0)).map .finite)) s =
        .next (s.after (.ok (.bits [false])))) ∧
    (symbol 1090000000 48 true).length = (List.replicate 48 (ExactReal.ofRat 0)).length ∧
    settled rounding.num .s48 (List.replicate 48 (.ofRat 0)) 0 := by
  have h : ∀ s ∈ [ready, rounding],
      next? (exec (.mod [true]) s) = some (s.after (.ok (.signal (symbol 1090000000 48 true)))) ∧
      next? (exec (.demod ((symbol 1090000000 48 true).map .finite)) s) =
        some (s.after (.ok (.bits [true]))) ∧
      next? (exec (.demod ((List.replicate 48 (.ofRat 0)).map .finite)) s) =
        some (s.after (.ok (.bits [false]))) := by decide +kernel
  refine ⟨fun s hs => ⟨of_next? (h s hs).1, of_next? (h s hs).2.1, of_next? (h s hs).2.2⟩,
    by decide +kernel, settled_zeros _⟩

/-- A fading magnitude whose square is not 0 is not 0. -/
theorem fading_ne {fam : Fading} {draw : Nat → Surd3} {n k : Nat}
    (h : fadeIsZero fam (draw (n + 2 * k)) (draw (n + 2 * k + 1)) = false) :
    fadingReal fam draw n k ≠ 0 := by
  rw [ne_eq, ← fadeIsZero_iff, h]
  decide

/-- Fading magnitudes that are not 0, in either family. -/
theorem witness_ChannelOutputIsTheFormula :
    [ExactReal.ofRat 1, .ofRat (-1)] ≠ [] ∧ (seeded quiet).snrDb = some 0 ∧
    (seeded quiet).fading = some .rayleigh ∧ (seeded quiet).rng = some ⟨1, 0⟩ ∧
    ∀ fam ∈ [Fading.rayleigh, .rician], ∀ k, k < 2 → fadingReal fam (drawAt quiet 1) 0 k ≠ 0 := by
  have h : ∀ fam ∈ [Fading.rayleigh, .rician], ∀ k, k < 2 →
      fadeIsZero fam (drawAt quiet 1 (0 + 2 * k)) (drawAt quiet 1 (0 + 2 * k + 1)) = false := by
    decide +kernel
  exact ⟨by decide +kernel, rfl, rfl, rfl, fun fam hf k hk => fading_ne (h fam hf k hk)⟩

theorem quiet_fading {i : Nat} (h : i < 10752) : drawAt quiet 1 i = .ofRat 1 := by
  simp [drawAt, quiet, NoiseRun.covers, h]

theorem quiet_noise {k : Nat} (h : k < 5376) : drawAt quiet 1 (10752 + k) = .ofRat 0 := by
  have h1 : ¬ 10752 + k < 10752 := by omega
  have h2 : 10752 + k < 16128 := by omega
  simp [drawAt, quiet, NoiseRun.covers, h2]

/-- Over a frame at 48 samples a symbol, no fading magnitude of the quiet noise source is 0. -/
theorem quiet_fadings : ∀ k, k < 112 * Sps.s48.count → fadingReal .rayleigh (drawAt quiet 1) 0 k ≠ 0 := by
  intro k hk
  have hk' : k < 5376 := hk
  refine fading_ne ?_
  rw [quiet_fading (by omega), quiet_fading (by omega)]
  decide +kernel

/-- V-CHAN-4, V-CHAN-5 and V-XMIT-6: a magnitude of 0 at the first sample and at the last; and none. -/
theorem witness_ZeroFadingIsDivZero :
    fadingReal .rician (drawAt (tape [-1, 0]) 1) 0 0 = 0 ∧
    fadingReal .rayleigh (drawAt (tape [1, 1, 0, 0]) 1) 0 1 = 0 ∧ 1 < [1, 1].length ∧
    frameText (ascii "8D40621D2251504EC31820BE5303") ∧ 0 < 112 * Sps.s48.count ∧
    (∀ k, k < 112 * Sps.s48.count → fadingReal .rayleigh (drawAt quiet 1) 0 k ≠ 0) ∧
    (∃ t, exec (.chan (signal [1, -1])) (seeded quiet) = .next t) ∧
    (∃ t, exec (.xmit (ascii "8D40621D2251504EC31820BE5303")) (seeded quiet) = .next t) := by
  rw [frameText_iff]
  exact ⟨(fadeIsZero_iff ..).mp (by decide +kernel), (fadeIsZero_iff ..).mp (by decide +kernel),
    by decide, by decide +kernel, by decide, quiet_fadings,
    (exec_ends _ _).imp fun _ h => h.1, (exec_ends _ _).imp fun _ h => h.1⟩

theorem witness_ChannelOfEmptySignal : (seeded []).snrDb = some 0 ∧
    (seeded []).fading = some .rayleigh ∧ (seeded []).rng = some ⟨1, 0⟩ := by decide +kernel

/-- A symbol received without noise is settled in any build. -/
theorem settledLink_symbol (m : Numerics) :
    settledLink m .s48 (symbol 1 48 true) (symbol 1 48 true) 0 := by
  have he : ∑ k ∈ Finset.range 48, sampleVal (symbol 1 48 true) (0 * 48 + k) ^ 2 = 24 := by
    have h := symbol_energy (fc := 1) one_ne_zero .s48 true
    rw [sum_squares] at h
    simp only [zero_mul, zero_add, Sps.count, symbol_length] at h ⊢
    rw [h]; norm_num
  have hc : correlationReal .s48 (symbol 1 48 true) 0 = 24 := by
    rw [← he]
    refine Finset.sum_congr rfl fun k hk => ?_
    have hk' : k < 48 := Finset.mem_range.mp hk
    have hv : sampleVal (symbol 1 48 true) (0 * 48 + k) = (ref1 1 48 k).val := by
      simp [sampleVal, symbol_getElem? 1 48 true hk']
    have h1 := val_ref1 (fc := 1) one_ne_zero .s48 k
    simp only [Sps.count] at h1 ⊢
    rw [hv, h1]; ring
  right
  rw [hc]
  simp only [sub_self, ne_eq, OfNat.ofNat_ne_zero, not_false_eq_true, zero_pow, add_zero, Sps.count]
  rw [he]
  norm_num [tieBand]

theorem witness_XmitComposesTheLink :
    frameText (ascii "8D40621D2251504EC31820BE5303") ∧ ready.sps = some .s48 ∧
    (∀ k, k < 112 * Sps.s48.count → fadingReal .rayleigh (drawAt quiet 1) 0 k ≠ 0) ∧
    settledLink ready.num .s48 (symbol 1 48 true) (symbol 1 48 true) 0 ∧
    settledLink rounding.num .s48 (symbol 1 48 true) (symbol 1 48 true) 0 := by
  rw [frameText_iff]
  exact ⟨by decide +kernel, rfl, quiet_fadings, settledLink_symbol _, settledLink_symbol _⟩

/-- And every noise draw is 0 (V-XMIT-1). -/
theorem witness_NoiselessXmitReproducesTheFrame :
    (0 : Rat) < 1090000000 ∧ ready.fc = some 1090000000 ∧
    (∀ k, k < 112 * Sps.s48.count → fadingReal .rayleigh (drawAt quiet 1) 0 k ≠ 0) ∧
    (∀ k, k < 112 * Sps.s48.count →
      drawAt quiet 1 (0 + 2 * (112 * Sps.s48.count) + k) = .ofRat 0) := by
  refine ⟨by norm_num, rfl, quiet_fadings, fun k hk => ?_⟩
  have hk' : k < 5376 := hk
  rw [show 0 + 2 * (112 * Sps.s48.count) + k = 10752 + k by rw [show Sps.s48.count = 48 from rfl]]
  exact quiet_noise hk'

end Sys2Proof.Tests
end

section
/-! The state after reset (10_state R38). -/

namespace Sys2Proof.Machine

/-- Settles O13: `State.reset` gives each field of the table of 10_state R38 as that table's value, so
the nine equations, in the order DF, CA, FC, SNR_DB, FADING, SPS, HIST, CORRUPT_CNT, RNG, hold by
computing the field. -/
theorem resetStateIsEmpty : Obligations.ResetStateIsEmpty :=
  ⟨rfl, rfl, rfl, rfl, rfl, rfl, rfl, rfl, rfl⟩

end Sys2Proof.Machine
end

section
/-! A code outside the operation table (30_encoding R79, 60_exceptions R235). -/

namespace Sys2Proof.Machine

/-- The codes the table of 30_encoding R78 gives to no operation. -/
def UnusedCode (n : Nat) : Prop :=
  n = 0 ∨ (0x08 ≤ n ∧ n ≤ 0x0F) ∨ (0x14 ≤ n ∧ n ≤ 0x1F) ∨ (0x22 ≤ n ∧ n ≤ 0x2F) ∨
    (0x35 ≤ n ∧ n ≤ 0x3F) ∨ (0x44 ≤ n ∧ n ≤ 0x4F) ∨ (0x54 ≤ n ∧ n ≤ 0x5F) ∨ 0x60 ≤ n

/-- The decoder rejects an unused code before it looks at the operands: every arm of the table fixes a
code outside the ranges of `UnusedCode`, so only its last arm is left. -/
theorem decodeOp_of_unusedCode {code : BitVec 8} (args : List Operand) (h : UnusedCode code.toNat) :
    decodeOp code args = .error .illegalOp := by
  unfold UnusedCode at h
  unfold decodeOp
  split
  any_goals omega
  rfl

/-- A request that decodes to no instruction is answered as its rejection says. -/
theorem step_of_decode_error {s : State} {r : Request} {e : Reject} (hr : s.requests.head? = some r)
    (hd : decode r = .error e) : step s = rejected e s := by
  simp only [step, fetch, hr, hd]

/-- The rejection of an unknown code only answers: ILLEGAL_OP leaves the corruption counter too. -/
theorem rejected_illegalOp (s : State) :
    rejected .illegalOp s = .next (s.after (.raised .illegalOp)) :=
  congrArg Host.Outcome.next (s.raise_eq .illegalOp (by decide))

/-- Settles O4: an unused code is rejected by the decoder whatever the operands, and the step answers
the rejection with ILLEGAL_OP, whose code is 5. -/
theorem unknownCodeIsIllegal : Obligations.UnknownCodeIsIllegal := by
  intro s code args hcode hreq
  have hd : decode (.op code args) = .error .illegalOp := decodeOp_of_unusedCode args hcode
  exact ⟨(step_of_decode_error hreq hd).trans (rejected_illegalOp s), rfl⟩

end Sys2Proof.Machine
end

section
/-! HEX2BIT and BIT2HEX (40_bitcodec R90, R91). -/

namespace Sys2Proof.Machine

/-! ### The bits of a digit string -/

theorem wireBits_getElem?_testBit {w : Nat} (v : BitVec w) {j : Nat} (hj : j < w) :
    (wireBits v)[j]? = some (v.toNat.testBit (w - 1 - j)) := by
  rw [wireBits_getElem? v j hj, BitVec.getMsbD_eq_getLsbD, decide_eq_true hj, Bool.true_and,
    BitVec.testBit_toNat]

/-- What an accepted string was made of: the bits of its first digit stand before those of the rest. -/
theorem hexDigits_cons_ok {c : Byte} {cs : Chars} {v : Bits} (h : hexDigits (c :: cs) = .ok v) :
    ∃ d u, hexValue c = some d ∧ hexDigits cs = .ok u ∧ v = wireBits d ++ u := by
  simp only [hexDigits] at h
  split at h
  · cases h
  · rename_i d hd
    cases hcs : hexDigits cs with
    | error e => rw [hcs] at h; cases h
    | ok u => rw [hcs] at h; cases h; exact ⟨d, u, hd, rfl, rfl⟩

/-- Character `k` and the bits `4k` to `4k+3` stand for one value, most significant bit first. -/
theorem hexDigits_getElem? {str : Chars} {v : Bits} (h : hexDigits str = .ok v) {k : Nat} {c : Byte}
    (hk : str[k]? = some c) :
    ∃ d, hexValue c = some d ∧ ∀ j, j < 4 → v[4 * k + j]? = some (d.toNat.testBit (3 - j)) := by
  induction str generalizing v k with
  | nil => simp at hk
  | cons c' cs ih =>
    obtain ⟨d, u, hd, hu, rfl⟩ := hexDigits_cons_ok h
    cases k with
    | zero =>
      obtain rfl : c' = c := by simpa using hk
      refine ⟨d, hd, fun j hj => ?_⟩
      rw [List.getElem?_append_left (by simpa using hj), Nat.mul_zero, Nat.zero_add]
      exact wireBits_getElem?_testBit d hj
    | succ k =>
      obtain ⟨d', hd', hbits⟩ := ih hu (by simpa using hk)
      refine ⟨d', hd', fun j hj => ?_⟩
      rw [List.getElem?_append_right (by simp; omega), wireBits_length,
        show 4 * (k + 1) + j - 4 = 4 * k + j by omega]
      exact hbits j hj

/-! ### HEX2BIT -/

theorem hexToBits_of_digits {str : Chars} (hl : str.length ≤ 28) (hd : ∀ c ∈ str, hexDigit c) :
    ∃ v, hexToBits str = .ok v ∧ hexDigits str = .ok v := by
  obtain ⟨v, hv⟩ := hexDigits_of_all hd
  exact ⟨v, by rw [hexToBits, if_neg (by omega), hv], hv⟩

theorem hexToBits_malformed {str : Chars} (h : 28 < str.length ∨ ∃ c ∈ str, ¬ hexDigit c) :
    hexToBits str = .error .malformedInput := by
  unfold hexToBits
  split
  · rfl
  · exact hexDigits_of_not (h.resolve_left ‹_›)

theorem exec_hex2bit_of_ok {str : Chars} {v : Bits} (h : hexToBits str = .ok v) (s : State) :
    exec (.hex2bit str) s = .next (s.after (.ok (.bits v))) := by
  rw [exec_hex2bit, h]; rfl

theorem exec_hex2bit_malformed {str : Chars} (h : 28 < str.length ∨ ∃ c ∈ str, ¬ hexDigit c)
    (s : State) : exec (.hex2bit str) s = .next (s.after (.raised .malformedInput)) := by
  rw [exec_hex2bit, hexToBits_malformed h]; rfl

/-- Settles O22: an accepted string's bits are known digit by digit (`hexDigits_getElem?`), and the value
of a digit is its code less 48 or 55 (`hexValue_toNat`); every other string is refused. -/
theorem hexStringGivesItsBits : Obligations.HexStringGivesItsBits := by
  refine ⟨fun _ => rfl, fun s str hl hd => ?_, fun s str h => exec_hex2bit_malformed h s⟩
  obtain ⟨v, hv, hdigits⟩ := hexToBits_of_digits hl hd
  refine ⟨v, exec_hex2bit_of_ok hv s, (hexDigits_ok hdigits).1, fun k j c hk hj => ?_⟩
  obtain ⟨d, hvalue, hbits⟩ := hexDigits_getElem? hdigits hk
  rw [← hexValue_toNat hvalue]
  exact hbits j hj

/-! ### BIT2HEX -/

theorem exec_bit2hex_of_width {v : Bits} (h4 : v.length % 4 = 0) (hl : v.length ≤ 112) (s : State) :
    exec (.bit2hex v) s = .next (s.after (.ok (.hex (hexChars v)))) := by
  rw [exec_bit2hex, bitsToHex, if_neg (by omega)]; rfl

theorem exec_bit2hex_outOfRange {v : Bits} (h : v.length % 4 ≠ 0 ∨ 112 < v.length) (s : State) :
    exec (.bit2hex v) s = .next (s.after (.raised .operandRange)) := by
  rw [exec_bit2hex, bitsToHex, if_pos h]; rfl

/-- Settles O23: reading the digits of a vector gives the vector back (`hexDigits_hexChars`), so its bits
are the values of those digits, and a digit with a value is the upper-case one (`hexChar_of_hexValue`). -/
theorem bitsGiveTheirHexString : Obligations.BitsGiveTheirHexString := by
  refine ⟨fun _ => rfl, fun s v h4 hl => ?_, fun s v h => exec_bit2hex_outOfRange h s⟩
  have hwidth : v.length = 4 * (v.length / 4) := by omega
  have hlength := hexChars_length _ v hwidth
  refine ⟨hexChars v, exec_bit2hex_of_width h4 hl s, hlength, fun k hk => ?_⟩
  have hchar : (hexChars v)[k]? = some ((hexChars v)[k]'(by omega)) := List.getElem?_eq_getElem _
  obtain ⟨d, hvalue, hbits⟩ := hexDigits_getElem? (hexDigits_hexChars _ v hwidth) hchar
  refine ⟨d.toNat, _, d.isLt, hchar, ?_, hbits⟩
  rw [← hexChar_of_hexValue hvalue]
  exact hexChar_toNat d

end Sys2Proof.Machine
end

section
/-! CRC.GEN and CRC.CHK (41_crc24 R102, R103, R106). -/

namespace Sys2Proof.Machine

/-! ### The division loop computes a polynomial remainder -/

/-- A bit vector whose bits from `n` on are all 0 has the polynomial of its low `n` bits. -/
theorem bitPoly_extractLsb' {w n : Nat} (v : BitVec w) (h : ∀ k, n ≤ k → v.getLsbD k = false) :
    bitPoly (v.extractLsb' 0 n) = bitPoly v := by
  ext k
  rw [bitPoly_coeff, bitPoly_coeff, BitVec.getLsbD_extractLsb', Nat.zero_add]
  by_cases hk : k < n
  · rw [decide_eq_true hk, Bool.true_and]
  · rw [h k (not_lt.mp hk), Bool.and_false]

/-- Any 24 bits have a smaller degree than the generator, whose coefficient of `x^24` is 1. -/
theorem bitPoly_degree_lt_generator (c : BitVec 24) :
    (bitPoly c).degree < (bitPoly generator).degree := by
  have hlead : (bitPoly generator).coeff 24 ≠ 0 := by rw [bitPoly_coeff]; simp [generator]
  exact (bitPoly_degree_lt c).trans_le (Polynomial.le_degree_of_ne_zero hlead)

/-- The division of any buffer leaves, in its last 24 bits, the remainder of the buffer's polynomial by
the generator: the steps keep the class modulo the generator, and what they leave is of smaller degree. -/
theorem bitPoly_crcFold_remainder (b : BitVec 112) :
    bitPoly (((List.range 88).foldl crcStep b).extractLsb' 0 24) = bitPoly b %ₘ bitPoly generator := by
  obtain ⟨q, hq⟩ := crcFold_modEq (List.range 88) b fun i hi => List.mem_range.mp hi
  have hlow := bitPoly_extractLsb' _ (crcFold_clears b 88 le_rfl)
  have hsum : bitPoly (((List.range 88).foldl crcStep b).extractLsb' 0 24) +
      bitPoly generator * -q = bitPoly b := by rw [hlow, hq]; ring
  exact (Polynomial.div_modByMonic_unique (-q) _ bitPoly_generator_monic
    ⟨hsum, bitPoly_degree_lt_generator _⟩).2.symm

/-- The CRC is the remainder of the data times `x^24` (41_crc24 R106). -/
theorem bitPoly_crc24 (d : BitVec 88) :
    bitPoly (crc24 d) = (bitPoly d * Polynomial.X ^ 24) %ₘ bitPoly generator := by
  rw [crc24, bitPoly_crcFold_remainder, bitPoly_append_zero]

/-! ### The two operations -/

/-- Settles O26: CRC.GEN answers `crc24`, and the division loop computes the remainder
(`bitPoly_crc24`); 0x1FFF409 is the model's generator. -/
theorem crcIsThePolynomialRemainder : Obligations.CrcIsThePolynomialRemainder := by
  refine ⟨fun _ => rfl, fun s d => ⟨crc24 d, ?_, bitPoly_crc24 d⟩⟩
  rw [exec_crcGen, answer_ok]

/-- Settles O28: CRC.CHK answers without raising, and its PASS and CALC are those of the data slice
`F[111:24]` and the CRC slice `F[23:0]` of the frame. -/
theorem crcChkComparesTheCrc : Obligations.CrcChkComparesTheCrc := by
  refine ⟨fun _ => rfl, fun s f => ?_⟩
  rw [exec_crcChk, answer_ok, crcPasses, frameData, frameCrc]

end Sys2Proof.Machine
end

section
/-! DEC: the string, the CRC, then the type code alone (42_frame_codec R131 to R140). -/

namespace Sys2Proof.Machine

/-! ### A string that is no frame's text -/

theorem exec_dec_malformed {str : Chars} (h : ¬ frameText str) (s : State) :
    exec (.dec str) s = .next (s.after (.raised .malformedInput)) := by
  rw [exec_dec, decodeString, frameString_malformed h, commit_error, s.raise_eq _ (by decide)]

/-- XMIT tests its string before it reads a register (60_exceptions R241). -/
theorem exec_xmit_malformed {str : Chars} (h : ¬ frameText str) (s : State) :
    exec (.xmit str) s = .next (s.after (.raised .malformedInput)) := by
  rw [exec_xmit, frameString_malformed h, commit_error, s.raise_eq _ (by decide)]

/-- Settles O21: DEC and XMIT test the string first, and a string that is no frame's text fails that test
(`frameString_malformed`); HEX2BIT refuses as in O22. -/
theorem malformedStringsAreRefused : Obligations.MalformedStringsAreRefused :=
  ⟨fun s _ h => exec_dec_malformed h s, fun s _ h => exec_xmit_malformed h s,
    fun s _ h => exec_hex2bit_malformed h s⟩

/-! ### Receiving a frame -/

/-- The CRC test compares the slices `F[111:24]` and `F[23:0]` of the frame (41_crc24 R103). -/
theorem crcPasses_iff (f : BitVec 112) :
    crcPasses f = true ↔ crc24 (f.extractLsb' 24 88) = f.extractLsb' 0 24 :=
  beq_iff_eq

/-- A frame whose CRC does not match is counted, and nothing of it is returned. -/
theorem commit_receiveFrame_corrupt {f : BitVec 112} (h : crcPasses f = false) (k : PayloadKind)
    (s : State) : commit s (receiveFrame k f s) =
      .next (({ s with corruptCnt := s.corruptCnt + 1 } : State).after (.raised .checksumFailure)) := by
  rw [receiveFrame_corrupt k s h, commit_error, s.raise_checksum]

section
variable {f : BitVec 112} (h : crcPasses f = true) (s : State)
include h

theorem commit_receiveFrame_ident :
    commit s (receiveFrame .ident f s) = .next (s.after (.ok (identReport f))) := by
  rw [receiveFrame_valid .ident s h, acceptFrame, commit_ok]

/-- A position is resolved against the History as it was; its record is then appended. -/
theorem commit_receiveFrame_position (src : AltSrc) :
    commit s (receiveFrame (.position src) f s) =
      .next (({ s with hist := s.hist ++ [frameRecord s.num s.hist f] } : State).after
        (.ok (positionReport s.num src s.hist f))) := by
  rw [receiveFrame_valid (.position src) s h, acceptFrame, commit_ok, memAppend]

theorem commit_receiveFrame_other :
    commit s (receiveFrame .other f s) = .next (s.after (.ok (.other (framePrefix f)))) := by
  rw [receiveFrame_valid .other s h, acceptFrame, commit_ok]

end

/-! ### The type-code map (30_encoding R72) -/

theorem payloadKind_ident {tc : BitVec 5} (h : 1 ≤ tc.toNat ∧ tc.toNat ≤ 4) :
    payloadKind tc = .ident :=
  if_pos h

theorem payloadKind_position {tc : BitVec 5}
    (h : (9 ≤ tc.toNat ∧ tc.toNat ≤ 18) ∨ (20 ≤ tc.toNat ∧ tc.toNat ≤ 22)) :
    payloadKind tc = .position (if tc.toNat ≤ 18 then .barometric else .gnss) := by
  rw [payloadKind, if_neg (by omega)]
  rcases h with hbaro | hgnss
  · rw [if_pos hbaro, if_pos hbaro.2]
  · rw [if_neg (by omega), if_pos hgnss, if_neg (by omega)]

theorem payloadKind_other {tc : BitVec 5}
    (h : tc.toNat = 0 ∨ (5 ≤ tc.toNat ∧ tc.toNat ≤ 8) ∨ tc.toNat = 19 ∨ 23 ≤ tc.toNat) :
    payloadKind tc = .other := by
  rw [payloadKind, if_neg (by omega), if_neg (by omega), if_neg (by omega)]

/-! ### DEC of a frame's text -/

/-- DEC of the text of a frame receives that frame, in the format its type code selects. -/
theorem exec_dec_frameHex {f : BitVec 112} {k : PayloadKind} (hk : payloadKind (frameTypeCode f) = k)
    (s : State) : exec (.dec (frameHex f)) s = commit s (receiveFrame k f s) := by
  rw [exec_dec, decodeString_frameHex, hk]

/-- Settles O36: the frame is received in the format of its type code, and the failed CRC test ends
every format the same way. -/
theorem decCountsChecksumFailures : Obligations.DecCountsChecksumFailures := by
  intro s f hcrc
  have hcorrupt : crcPasses f = false :=
    Bool.eq_false_iff.mpr fun hpass => hcrc ((crcPasses_iff f).mp hpass)
  exact (exec_dec_frameHex rfl s).trans (commit_receiveFrame_corrupt hcorrupt _ s)

/-- Settles O37: the CRC test passes, the type code selects the format (`payloadKind_ident`, `_position`,
`_other`), and the frame is received in it (`commit_receiveFrame_ident`, `_position`, `_other`). The
altitude and the position of a position report are the terms ALT.DEC and CPR.RESOLVE answer with. -/
theorem decReportsByTypeCode : Obligations.DecReportsByTypeCode := by
  intro s f hcrc p tc
  have hvalid : crcPasses f = true := (crcPasses_iff f).mpr hcrc
  refine ⟨fun hident => ?_, fun hposition => ?_, fun hother => ?_⟩
  · exact (exec_dec_frameHex (payloadKind_ident hident) s).trans (commit_receiveFrame_ident hvalid s)
  · refine ⟨framePos s.num s.hist f, altQ (frameAlt f), altN (frameAlt f), altFeet (frameAlt f),
      altMetres (frameAlt f), exec_altDec _ s, exec_cprResolve _ _ _ _ _ s, ?_⟩
    exact (exec_dec_frameHex (payloadKind_position hposition) s).trans
      (commit_receiveFrame_position hvalid s _)
  · exact (exec_dec_frameHex (payloadKind_other hother) s).trans (commit_receiveFrame_other hvalid s)

end Sys2Proof.Machine
end

section
/-! CPR.RESOLVE: the latest report with its newest partner (43_cpr R170). -/

namespace Sys2Proof.Machine

/-! ### The resolver by what the History holds -/

section
variable {h : List Record} {addr : BitVec 24} (num : Numerics) (yz xz : BitVec 17) (t : BitVec 1)

theorem resolveIn_of_no_partner {fp : BitVec 1} (hfind : histFind h addr fp = none) :
    resolveIn num h addr fp yz xz t = none := by
  rw [resolveIn, hfind]

/-- The latest report is the even one: its partner is paired as the odd one. -/
theorem resolveIn_even {r : Record} (hfind : histFind h addr 0 = some r) :
    resolveIn num h addr 0 yz xz t = resolvePair num yz xz t r.yz r.xz r.t := by
  simp only [resolveIn, hfind, if_true]

/-- The latest report is the odd one: its partner is paired as the even one. -/
theorem resolveIn_odd {r : Record} (hfind : histFind h addr 1 = some r) :
    resolveIn num h addr 1 yz xz t = resolvePair num r.yz r.xz r.t yz xz t := by
  have hodd : (1 : BitVec 1) ≠ 0 := by decide
  simp only [resolveIn, hfind, if_neg hodd]

end

/-! ### The operation -/

/-- Settles O50: CPR.PAIR answers with `resolvePair` and CPR.RESOLVE with `resolveIn`, which is no
position without a partner, and otherwise `resolvePair` of the two reports, the even one first. -/
theorem cprResolvePairsTheNewestPartner : Obligations.CprResolvePairsTheNewestPartner := by
  refine ⟨fun _ _ _ _ _ => rfl, fun s addr fp yz xz t hfind => ?_,
    fun s addr yz xz t r hfind => ?_, fun s addr yz xz t r hfind => ?_⟩
  · rw [exec_cprResolve, resolveIn_of_no_partner _ _ _ _ hfind, answer_ok]
  · refine ⟨resolvePair s.num yz xz t r.yz r.xz r.t, ?_, ?_⟩
    · rw [exec_cprPair, answer_ok]
    · rw [exec_cprResolve, resolveIn_even _ _ _ _ hfind, answer_ok]
  · refine ⟨resolvePair s.num r.yz r.xz r.t yz xz t, ?_, ?_⟩
    · rw [exec_cprPair, answer_ok]
    · rw [exec_cprResolve, resolveIn_odd _ _ _ _ hfind, answer_ok]

end Sys2Proof.Machine
end

section
/-! MOD: FC and SPS, then the length, then the samples (44_phy_channel R182). -/

namespace Sys2Proof.Machine

/-! ### The operation by its operands -/

theorem exec_mod_of_le {s : State} {fc : Rat} {sps : Sps} {v : Bits} (hfc : s.fc = some fc)
    (hsps : s.sps = some sps) (hl : v.length ≤ Config.nbitsMax) :
    exec (.mod v) s = .next (s.after (.ok (.signal (modulate fc sps.count v)))) := by
  simp only [exec_mod, hfc, hsps, whenSet_some, if_neg hl.not_gt, answer_ok]

theorem exec_mod_outOfRange {s : State} {v : Bits} (hfc : s.fc ≠ none) (hsps : s.sps ≠ none)
    (hl : Config.nbitsMax < v.length) :
    exec (.mod v) s = .next (s.after (.raised .operandRange)) := by
  obtain ⟨fc, hfc⟩ := Option.ne_none_iff_exists'.mp hfc
  obtain ⟨sps, hsps⟩ := Option.ne_none_iff_exists'.mp hsps
  simp only [exec_mod, hfc, hsps, whenSet_some, if_pos hl, answer_error]
  rw [s.raise_eq _ (by decide)]

theorem exec_mod_unset {s : State} (h : s.fc = none ∨ s.sps = none) (v : Bits) :
    exec (.mod v) s = .next (s.after (.raised .configUnset)) := by
  rw [← s.raise_eq _ (by decide), ← answer_error, exec_mod]
  rcases h with hfc | hsps
  · rw [hfc, whenSet_none]
  · cases hfc : s.fc with
    | none => rw [whenSet_none]
    | some fc => rw [hsps, whenSet_some, whenSet_none]

/-! ### The samples as real numbers -/

/-- The phase of a symbol's samples is shifted by π for the bit 0 (44_phy_channel R180, R182). -/
theorem sampleVal_modulate {fc : Rat} (hfc : fc ≠ 0) (sps : Sps) {v : Bits} {j k : Nat} {b : Bool}
    (hj : v[j]? = some b) (hk : k < sps.count) :
    sampleVal (modulate fc sps.count v) (j * sps.count + k) =
      Real.sin (2 * Real.pi * 3 * k / sps.count + if b then 0 else Real.pi) := by
  rw [sampleVal, modulate_getElem? fc hj hk]
  cases b with
  | true => simpa using val_ref1 hfc sps k
  | false => simpa using val_ref0 hfc sps k

/-- Settles O51: MOD answers with `modulate`, whose sample `j*SPS + k` is the reference of bit `j` at
`k`, a sine at any FC that is not 0. -/
theorem modulatedSamplesAreSines : Obligations.ModulatedSamplesAreSines :=
  ⟨fun _ => rfl,
    fun _ fc sps v hfc hpos hsps hl => ⟨modulate fc sps.count v, exec_mod_of_le hfc hsps hl,
      modulate_length fc sps.count v, fun _ _ _ hj hk => sampleVal_modulate hpos.ne' sps hj hk⟩,
    fun _ v h => exec_mod_unset h v,
    fun _ _ hfc hsps hl => exec_mod_outOfRange hfc hsps hl⟩

end Sys2Proof.Machine
end

section
/-! The system operations RESET, CFG.WR, CFG.RD, CNT.RD, HIST.LEN and HIST.RD (45_system_ops R210 to
R213, R215 to R217). -/

namespace Sys2Proof.Machine

/-! ### Only RESET takes a record or lowers the counter -/

/-- A register is not part of the History or of the counter. -/
theorem cfgWrite_keeps_records {s t : State} {reg : BitVec 4} {v : Port Rat}
    (h : s.cfgWrite reg v = .ok t) : t.hist = s.hist ∧ t.corruptCnt = s.corruptCnt := by
  rcases cfgWrite_ok h with ⟨n, -, -, -, rfl⟩ | ⟨n, -, -, -, rfl⟩ | ⟨q, -, -, -, rfl⟩ |
    ⟨q, -, -, rfl⟩ | ⟨n, -, -, -, rfl⟩ | ⟨n, -, -, rfl⟩
  all_goals exact ⟨rfl, rfl⟩

/-- Every way of ending but RESET's leaves the History and the counter, adds 1 to the counter or appends
a record. -/
theorem exec_keeps_records {i : Instr} {s t : State} (hi : i ≠ .reset) (h : exec i s = .next t) :
    s.hist <+: t.hist ∧ s.corruptCnt ≤ t.corruptCnt := by
  rcases exec_next h with ⟨e, -, rfl⟩ | ⟨-, r, rfl⟩ | ⟨hreset, -⟩ | ⟨reg, v, s', -, hw, rfl⟩ |
    ⟨n, -, rfl⟩ | ⟨g, n, r, -, -, rfl⟩ | ⟨f, r, -, -, rfl⟩
  · rw [State.raise_hist, State.raise_corruptCnt]
    exact ⟨List.prefix_rfl, by split <;> omega⟩
  · exact ⟨List.prefix_rfl, le_rfl⟩
  · exact absurd hreset hi
  · obtain ⟨hhist, hcount⟩ := cfgWrite_keeps_records hw
    rw [State.after_hist, State.after_corruptCnt, hhist, hcount]
    exact ⟨List.prefix_rfl, le_rfl⟩
  · exact ⟨List.prefix_rfl, le_rfl⟩
  · exact ⟨List.prefix_rfl, le_rfl⟩
  · exact ⟨List.prefix_append _ _, le_rfl⟩

/-- Settles O14: RESET commits `State.clear`, the reset state but for the model's own fields; every other operation leaves a History that starts with the old one, and no lower counter
(`exec_keeps_records`). -/
theorem resetClearsAllState : Obligations.ResetClearsAllState := by
  refine ⟨rfl, fun s => ?_, fun i s t hi h => ?_⟩
  · rw [exec_reset, commit_ok, State.clear, State.after]
  · obtain ⟨hprefix, hcount⟩ := exec_keeps_records hi h
    exact ⟨hprefix.length_le, hcount⟩

/-! ### CFG.WR -/

theorem exec_cfgWr_of_ok {s t : State} {reg : BitVec 4} {v : Port Rat}
    (h : s.cfgWrite reg v = .ok t) :
    exec (.cfgWr reg v) s = .next (t.after (.ok .nothing)) := by
  rw [exec_cfgWr, h]; rfl

theorem exec_cfgWr_of_error {s : State} {reg : BitVec 4} {v : Port Rat} {e : Exc}
    (h : s.cfgWrite reg v = .error e) :
    exec (.cfgWr reg v) s = .next (s.after (.raised .operandRange)) := by
  rw [exec_cfgWr, h, cfgWrite_error h]; rfl

section
variable (s : State)

theorem cfgWrite_df {n : Nat} (hn : n ≤ 31) :
    s.cfgWrite 0 (.finite n) = .ok { s with df := some (BitVec.ofNat 5 n) } := by
  change (legalNat 31 _).map _ = _
  rw [legalNat_nat, if_pos hn]; rfl

theorem cfgWrite_ca {n : Nat} (hn : n ≤ 7) :
    s.cfgWrite 1 (.finite n) = .ok { s with ca := some (BitVec.ofNat 3 n) } := by
  change (legalNat 7 _).map _ = _
  rw [legalNat_nat, if_pos hn]; rfl

theorem cfgWrite_fc {q : Rat} (hq : 0 < q) :
    s.cfgWrite 2 (.finite q) = .ok { s with fc := some q } :=
  if_pos hq

theorem cfgWrite_snrDb (q : Rat) : s.cfgWrite 3 (.finite q) = .ok { s with snrDb := some q } := rfl

/-- Registers 4 and 5 take the codes of their two values. -/
theorem cfgWrite_fading (fam : Fading) :
    s.cfgWrite 4 (.finite (fam.code.toNat : Rat)) = .ok { s with fading := some fam } := by
  change (legalNat 1 _).map _ = _
  cases fam <;> rfl

theorem cfgWrite_sps (sps : Sps) :
    s.cfgWrite 5 (.finite (sps.count : Rat)) = .ok { s with sps := some sps } := by
  cases sps <;> rfl

end

/-- What CFG.WR accepts is legal: each register takes the values `cfgWrite_ok` lists. -/
theorem legalValue_of_cfgWrite_ok {s t : State} {reg : BitVec 4} {v : Port Rat}
    (h : s.cfgWrite reg v = .ok t) : legalValue reg v := by
  rcases cfgWrite_ok h with ⟨n, rfl, rfl, hn, -⟩ | ⟨n, rfl, rfl, hn, -⟩ | ⟨q, rfl, rfl, hq, -⟩ |
    ⟨q, rfl, rfl, -⟩ | ⟨n, rfl, rfl, hn, -⟩ | ⟨sps, rfl, rfl, -⟩
  · exact .inl ⟨rfl, n, hn, rfl⟩
  · exact .inr (.inl ⟨rfl, n, hn, rfl⟩)
  · exact .inr (.inr (.inl ⟨rfl, hq⟩))
  · exact .inr (.inr (.inr (.inl rfl)))
  · refine .inr (.inr (.inr (.inr (.inl ⟨rfl, ?_⟩))))
    exact_mod_cast Nat.le_one_iff_eq_zero_or_eq_one.mp hn
  · refine .inr (.inr (.inr (.inr (.inr ⟨rfl, ?_⟩))))
    cases sps with
    | s48 => exact .inl rfl
    | s96 => exact .inr rfl

theorem exec_cfgWr_illegal {reg : BitVec 4} {v : Port Rat} (h : ¬ legalValue reg v) (s : State) :
    exec (.cfgWr reg v) s = .next (s.after (.raised .operandRange)) := by
  cases hw : s.cfgWrite reg v with
  | ok t => exact absurd (legalValue_of_cfgWrite_ok hw) h
  | error e => exact exec_cfgWr_of_error hw

/-- Settles O15: each legal value is written by its register's equation (`cfgWrite_df` to
`cfgWrite_sps`), and what is accepted is legal (`legalValue_of_cfgWrite_ok`). -/
theorem cfgWrWritesLegalValuesOnly : Obligations.CfgWrWritesLegalValuesOnly :=
  ⟨fun _ _ => rfl,
    fun s _ hn => exec_cfgWr_of_ok (cfgWrite_df s hn),
    fun s _ hn => exec_cfgWr_of_ok (cfgWrite_ca s hn),
    fun s _ hq => exec_cfgWr_of_ok (cfgWrite_fc s hq),
    fun s q => exec_cfgWr_of_ok (cfgWrite_snrDb s q),
    fun s => exec_cfgWr_of_ok (cfgWrite_fading s .rayleigh),
    fun s => exec_cfgWr_of_ok (cfgWrite_fading s .rician),
    fun s => exec_cfgWr_of_ok (cfgWrite_sps s .s48),
    fun s => exec_cfgWr_of_ok (cfgWrite_sps s .s96),
    fun _ _ s h => exec_cfgWr_illegal h s⟩

/-! ### CFG.RD -/

section
variable (s : State)

/-- Ending an operation leaves the registers. -/
@[simp] theorem cfgRead_after (r : Response) (reg : BitVec 4) :
    (s.after r).cfgRead reg = s.cfgRead reg := rfl

theorem cfgRead_df : s.cfgRead 0 = (whenSet s.df).map fun v => (v.toNat : Rat) := rfl

theorem cfgRead_ca : s.cfgRead 1 = (whenSet s.ca).map fun v => (v.toNat : Rat) := rfl

theorem cfgRead_fc : s.cfgRead 2 = (whenSet s.fc).map id :=
  (congrFun Except.map_id (whenSet s.fc)).symm

theorem cfgRead_snrDb : s.cfgRead 3 = (whenSet s.snrDb).map id :=
  (congrFun Except.map_id (whenSet s.snrDb)).symm

theorem cfgRead_fading :
    s.cfgRead 4 = (whenSet s.fading).map fun fam => (fam.code.toNat : Rat) := rfl

theorem cfgRead_sps : s.cfgRead 5 = (whenSet s.sps).map fun sps => (sps.count : Rat) := rfl

theorem cfgRead_outOfRange {reg : BitVec 4} (h : 5 < reg.toNat) :
    s.cfgRead reg = .error .operandRange := by
  unfold State.cfgRead
  split
  any_goals omega
  rfl

end

theorem exec_cfgRd_of_ok {s : State} {reg : BitVec 4} {q : Rat} (h : s.cfgRead reg = .ok q) :
    exec (.cfgRd reg) s = .next (s.after (.ok (.value q))) := by
  rw [exec_cfgRd, h]; rfl

theorem exec_cfgRd_outOfRange (s : State) {reg : BitVec 4} (h : 5 < reg.toNat) :
    exec (.cfgRd reg) s = .next (s.after (.raised .operandRange)) := by
  rw [exec_cfgRd, cfgRead_outOfRange s h]; rfl

/-- CFG.RD of a register that holds `x`, whose values are read as `value` says. -/
theorem exec_cfgRd_register {α : Type} {s : State} {reg : BitVec 4} {x : Option α}
    {value : α → Rat} (h : s.cfgRead reg = (whenSet x).map value) : exec (.cfgRd reg) s =
      .next (s.after (x.elim (.raised .configUnset) fun a => .ok (.value (value a)))) := by
  rw [exec_cfgRd, h]
  cases x <;> rfl

/-- What CFG.WR has written is what CFG.RD reads. -/
theorem cfgRead_of_cfgWrite {s t : State} {reg : BitVec 4} {q : Rat}
    (h : s.cfgWrite reg (.finite q) = .ok t) : t.cfgRead reg = .ok q := by
  rcases cfgWrite_ok h with ⟨n, rfl, hq, hn, rfl⟩ | ⟨n, rfl, hq, hn, rfl⟩ | ⟨_, rfl, hq, -, rfl⟩ |
    ⟨_, rfl, hq, rfl⟩ | ⟨n, rfl, hq, hn, rfl⟩ | ⟨sps, rfl, hq, rfl⟩
  all_goals cases hq
  · exact congrArg (fun k : Nat => Except.ok (k : Rat)) (Nat.mod_eq_of_lt (by omega))
  · exact congrArg (fun k : Nat => Except.ok (k : Rat)) (Nat.mod_eq_of_lt (by omega))
  · rfl
  · rfl
  · obtain rfl | rfl := Nat.le_one_iff_eq_zero_or_eq_one.mp hn
    · rfl
    · rfl
  · rfl

/-- CFG.WR ended with OK only where it wrote. -/
theorem cfgWrite_of_exec_ok {s t : State} {reg : BitVec 4} {v : Port Rat}
    (h : exec (.cfgWr reg v) s = .next t) (hok : t.response = some (.ok .nothing)) :
    ∃ s', s.cfgWrite reg v = .ok s' ∧ t = s'.after (.ok .nothing) := by
  cases hw : s.cfgWrite reg v with
  | ok s' => exact ⟨s', rfl, by simpa [exec_cfgWr_of_ok hw] using h.symm⟩
  | error e =>
    rw [exec_cfgWr_of_error hw] at h
    cases h
    simp at hok

/-- Settles O16: each register is read as its field says (`exec_cfgRd_register`), and the register
CFG.WR has written reads as the value written (`cfgRead_of_cfgWrite`). -/
theorem cfgRdReturnsTheRegister : Obligations.CfgRdReturnsTheRegister := by
  refine ⟨fun _ => rfl, fun _ s h => exec_cfgRd_outOfRange s h, fun s => ?_, fun s => ?_,
    fun s => ?_, fun s => ?_, fun s => ?_, fun s => ?_, fun reg q s t hw hok => ?_⟩
  · rw [exec_cfgRd_register (cfgRead_df s)]
    cases s.df <;> rfl
  · rw [exec_cfgRd_register (cfgRead_ca s)]
    cases s.ca <;> rfl
  · rw [exec_cfgRd_register (cfgRead_fc s)]
    cases s.fc <;> rfl
  · rw [exec_cfgRd_register (cfgRead_snrDb s)]
    cases s.snrDb <;> rfl
  · rw [exec_cfgRd_register (cfgRead_fading s)]
    rcases s.fading with _ | _ | _ <;> rfl
  · rw [exec_cfgRd_register (cfgRead_sps s)]
    rcases s.sps with _ | _ | _ <;> rfl
  · obtain ⟨s', hs', rfl⟩ := cfgWrite_of_exec_ok hw hok
    exact exec_cfgRd_of_ok ((cfgRead_after _ _ _).trans (cfgRead_of_cfgWrite hs'))

/-! ### CNT.RD, HIST.LEN and HIST.RD -/

theorem exec_histRd_of_some {s : State} {k : Nat} {r : Record} (h : s.hist[k]? = some r) :
    exec (.histRd k) s = .next (s.after (.ok (.record r))) := by
  rw [exec_histRd, memRead, h]; rfl

theorem exec_histRd_outOfRange {s : State} {k : Nat} (h : s.hist.length ≤ k) :
    exec (.histRd k) s = .next (s.after (.raised .operandRange)) := by
  rw [exec_histRd, memRead, List.getElem?_eq_none h]; rfl

/-- Settles O18: the reads answer from the counter and the History alone; a record once there is in
every later History, which starts with the earlier one (`exec_keeps_records`). -/
theorem counterAndHistoryReads : Obligations.CounterAndHistoryReads := by
  refine ⟨⟨rfl, rfl, fun _ => rfl⟩, fun s => ?_, fun s => ?_, fun _ _ _ h => exec_histRd_of_some h,
    fun _ _ h => exec_histRd_outOfRange h, fun i s t k r hi h hr => ?_⟩
  · rw [exec_cntRd, answer_ok]
  · rw [exec_histLen, answer_ok]
  · obtain ⟨hk, rfl⟩ := List.getElem?_eq_some_iff.mp hr
    exact exec_histRd_of_some (List.prefix_iff_getElem?.mp (exec_keeps_records hi h).1 k hk)

end Sys2Proof.Machine
end

section
/-! SEED: after it, CHAN and XMIT draw alike whatever went before (45_system_ops R214). -/

namespace Sys2Proof.Machine

/-! ### States that CHAN and XMIT cannot tell apart -/

/-- CHAN and XMIT find the same registers, arithmetic and noise source, at the same position. -/
def InStep (s s' : State) : Prop := sameChannel s s' ∧ s.rng = s'.rng

theorem InStep.after {s s' : State} (h : InStep s s') (r r' : Response) :
    InStep (s.after r) (s'.after r') := h

theorem InStep.raise {s s' : State} (h : InStep s s') (e : Exc) :
    InStep (s.raise e) (s'.raise e) := by
  simpa [InStep, sameChannel] using h

theorem InStep.drawn {s s' : State} (h : InStep s s') (g : Rng) (n : Nat) :
    InStep (s.drawn g n) (s'.drawn g n) := ⟨h.1, rfl⟩

/-! ### One operation -/

/-- Two outcomes of an operation that give the same answer and leave states in step. -/
inductive SameOutcome : Except Exc (State × Result) → Except Exc (State × Result) → Prop where
  | ok {t t' : State} (r : Result) (h : InStep t t') : SameOutcome (.ok (t, r)) (.ok (t', r))
  | error (e : Exc) : SameOutcome (.error e) (.error e)

/-- Two operations that end, with the same answer and in step. -/
def EndInStep (o o' : Host.Outcome State Fault Refusal) : Prop :=
  ∃ t t', o = .next t ∧ o' = .next t' ∧ t.response = t'.response ∧ InStep t t'

theorem commit_inStep {s s' : State} {x x' : Except Exc (State × Result)} (hs : InStep s s')
    (hx : SameOutcome x x') : EndInStep (commit s x) (commit s' x') := by
  cases hx with
  | ok r h => exact ⟨_, _, rfl, rfl, rfl, h.after _ _⟩
  | error e => exact ⟨_, _, rfl, rfl, by simp, hs.raise e⟩

/-- Both operations draw where the channel has an outcome, and fail as it fails. -/
theorem sameOutcome_drawn {α : Type} {s s' : State} (h : InStep s s') (x : Except Exc α)
    (g : Rng) (n : Nat) (result : α → Result) :
    SameOutcome (x.map fun a => (s.drawn g n, result a))
      (x.map fun a => (s'.drawn g n, result a)) := by
  cases x with
  | error e => exact .error e
  | ok a => exact .ok _ (h.drawn g n)

theorem chanWith_sameOutcome {s s' : State} (h : InStep s s') (snr : Rat) (fam : Fading) (g : Rng)
    (x : List ExactReal) : SameOutcome (chanWith s snr fam g x) (chanWith s' snr fam g x) := by
  obtain ⟨⟨-, -, -, -, -, hnoise⟩, -⟩ := id h
  rw [chanWith, chanWith, hnoise]
  exact sameOutcome_drawn h _ _ _ _

theorem xmitWith_sameOutcome {s s' : State} (h : InStep s s') (fc : Rat) (sps : Sps) (snr : Rat)
    (fam : Fading) (g : Rng) (v : Bits) :
    SameOutcome (xmitWith s fc sps snr fam g v) (xmitWith s' fc sps snr fam g v) := by
  obtain ⟨⟨-, -, -, -, hnum, hnoise⟩, -⟩ := id h
  rw [xmitWith, xmitWith, hnum, hnoise]
  exact sameOutcome_drawn h _ _ _ _

section
variable {s s' : State} (h : InStep s s')
include h

theorem exec_chan_inStep (signal : List (Port ExactReal)) :
    EndInStep (exec (.chan signal) s) (exec (.chan signal) s') := by
  obtain ⟨⟨-, -, hsnr, hfading, -, -⟩, hrng⟩ := id h
  rw [exec_chan, exec_chan, ← hsnr, ← hfading, ← hrng]
  refine commit_inStep h ?_
  rcases whenSet s.snrDb with e | snr
  · exact .error e
  rcases whenSet s.fading with e | fam
  · exact .error e
  rcases whenSet s.rng with e | g
  · exact .error e
  rcases samples signal with e | x
  · exact .error e
  exact chanWith_sameOutcome h snr fam g x

theorem exec_xmit_inStep (str : Chars) :
    EndInStep (exec (.xmit str) s) (exec (.xmit str) s') := by
  obtain ⟨⟨hfc, hsps, hsnr, hfading, -, -⟩, hrng⟩ := id h
  rw [exec_xmit, exec_xmit, ← hfc, ← hsps, ← hsnr, ← hfading, ← hrng]
  refine commit_inStep h ?_
  rcases frameString str with e | v
  · exact .error e
  rcases whenSet s.fc with e | fc
  · exact .error e
  rcases whenSet s.sps with e | sps
  · exact .error e
  rcases whenSet s.snrDb with e | snr
  · exact .error e
  rcases whenSet s.fading with e | fam
  · exact .error e
  rcases whenSet s.rng with e | g
  · exact .error e
  exact xmitWith_sameOutcome h fc sps snr fam g v

theorem exec_draws_inStep {i : Instr} (hi : draws i = true) : EndInStep (exec i s) (exec i s') := by
  cases i with
  | chan signal => exact exec_chan_inStep h signal
  | xmit str => exact exec_xmit_inStep h str
  | _ => cases hi

end

/-! ### A list of operations -/

theorem runAll_cons_of_next {i : Instr} {s t u : State} {ops : List Instr}
    {answers : List (Option Response)} (h : exec i s = .next t)
    (hrun : runAll ops t = some (u, answers)) :
    runAll (i :: ops) s = some (u, t.response :: answers) := by
  rw [runAll, h]
  simp only [hrun, Option.map_some]

/-- States in step run through a list of CHAN and XMIT with the same answers, and end in step. -/
theorem runAll_inStep {ops : List Instr} (hops : ∀ i ∈ ops, draws i = true) {s s' : State}
    (h : InStep s s') : ∃ t t' answers, runAll ops s = some (t, answers) ∧
      runAll ops s' = some (t', answers) ∧ InStep t t' := by
  induction ops generalizing s s' with
  | nil => exact ⟨s, s', [], rfl, rfl, h⟩
  | cons i ops ih =>
    rw [List.forall_mem_cons] at hops
    obtain ⟨hi, hrest⟩ := hops
    obtain ⟨u, u', hu, hu', hanswer, hstep⟩ := exec_draws_inStep h hi
    obtain ⟨t, t', answers, ht, ht', hend⟩ := ih hrest hstep
    refine ⟨t, t', u.response :: answers, runAll_cons_of_next hu ht, ?_, hend⟩
    rw [hanswer]
    exact runAll_cons_of_next hu' ht'

theorem exec_seed_next (n : Nat) (s : State) : exec (.seed n) s =
    .next (({ s with rng := some ⟨n, 0⟩ } : State).after (.ok .nothing)) := by
  rw [exec_seed, commit_ok]

/-- Settles O17: SEED puts states with the same channel in step, and CHAN and XMIT keep them in step
(`runAll_inStep`). -/
theorem seedRestartsTheDraws : Obligations.SeedRestartsTheDraws := by
  refine ⟨fun _ => rfl, exec_seed_next, fun n ops s s' hops hsame => ?_⟩
  have hseeded : InStep (({ s with rng := some ⟨n, 0⟩ } : State).after (.ok .nothing))
      (({ s' with rng := some ⟨n, 0⟩ } : State).after (.ok .nothing)) := ⟨hsame, rfl⟩
  obtain ⟨t, t', answers, ht, ht', hend⟩ := runAll_inStep hops hseeded
  exact ⟨t, t', some (.ok .nothing) :: answers, runAll_cons_of_next (exec_seed_next n s) ht,
    runAll_cons_of_next (exec_seed_next n s') ht', hend.2⟩

end Sys2Proof.Machine
end

section
/-! CONFIG_UNSET: an operation tests the registers it reads, and RNG, before its other operands, XMIT's
string alone excepted (60_exceptions R237, R241). -/

namespace Sys2Proof.Machine

/-! ### The tests, in order -/

theorem answer_configUnset (s : State) :
    answer s (.error .configUnset) = .next (s.after (.raised .configUnset)) := rfl

theorem commit_configUnset (s : State) :
    commit s (.error .configUnset) = .next (s.after (.raised .configUnset)) := rfl

/-- Of the tests an operation makes in turn, one fails: this one, or this one passes and a later one. -/
theorem whenSet_first {α : Type} {x : Option α} {later : Prop} (h : x = none ∨ later) :
    whenSet x = .error .configUnset ∨ (∃ a, whenSet x = .ok a) ∧ later := by
  cases x with
  | none => exact .inl whenSet_none
  | some a => exact .inr ⟨⟨a, whenSet_some a⟩, h.resolve_left (Option.some_ne_none a)⟩

theorem whenSet_pair {α β : Type} {x : Option α} {y : Option β} (h : x = none ∨ y = none) :
    whenSet x = .error .configUnset ∨
      (∃ a, whenSet x = .ok a) ∧ whenSet y = .error .configUnset :=
  (whenSet_first h).imp_right fun ⟨hx, hy⟩ => ⟨hx, hy ▸ whenSet_none⟩

/-! ### Each reader -/

section
variable {s : State}

/-- CFG.RD of a register that holds nothing. -/
theorem exec_cfgRd_unset {α : Type} {reg : BitVec 4} {x : Option α} {value : α → Rat}
    (hread : s.cfgRead reg = (whenSet x).map value) (hx : x = none) :
    exec (.cfgRd reg) s = .next (s.after (.raised .configUnset)) := by
  rw [exec_cfgRd_register hread, hx, Option.elim_none]

/-- A frame is built with DF and CA only. -/
theorem build_unset (h : s.df = none ∨ s.ca = none) (address : BitVec 24) (me : BitVec 56) :
    build s address me = .error .configUnset := by
  rw [build]
  rcases whenSet_pair h with hdf | ⟨⟨df, hdf⟩, hca⟩
  · rw [hdf]
  · rw [hdf, hca]

theorem exec_encId_unset (h : s.df = none ∨ s.ca = none) (address : BitVec 24) (category : BitVec 3)
    (callsign : Chars) (typeCode : BitVec 5) :
    exec (.encId address category callsign typeCode) s =
      .next (s.after (.raised .configUnset)) := by
  rw [exec_encId, build_unset h, answer_configUnset]

theorem exec_encPos_unset (h : s.df = none ∨ s.ca = none) (address : BitVec 24)
    (surveillance : BitVec 2) (singleAntenna : BitVec 1) (altitudeMeters lat lon : Port Rat)
    (timeFlag : BitVec 1) (typeCode : BitVec 5) (cprParity : BitVec 1) :
    exec (.encPos address surveillance singleAntenna altitudeMeters lat lon timeFlag typeCode
      cprParity) s = .next (s.after (.raised .configUnset)) := by
  rw [exec_encPos, ← answer_configUnset]
  rcases whenSet_pair h with hdf | ⟨⟨df, hdf⟩, hca⟩
  · rw [hdf]
  · rw [hdf, hca]

theorem exec_demod_unset (h : s.fc = none ∨ s.sps = none) (signal : List (Port ExactReal)) :
    exec (.demod signal) s = .next (s.after (.raised .configUnset)) := by
  rw [exec_demod, ← answer_configUnset]
  rcases whenSet_pair h with hfc | ⟨⟨fc, hfc⟩, hsps⟩
  · rw [hfc]
  · rw [hfc, hsps]

theorem exec_chan_unset (h : s.snrDb = none ∨ s.fading = none ∨ s.rng = none)
    (signal : List (Port ExactReal)) :
    exec (.chan signal) s = .next (s.after (.raised .configUnset)) := by
  rw [exec_chan, ← commit_configUnset]
  rcases whenSet_first h with hsnr | ⟨⟨snr, hsnr⟩, h⟩
  · rw [hsnr]
  rcases whenSet_pair h with hfading | ⟨⟨fam, hfading⟩, hrng⟩
  · rw [hsnr, hfading]
  · rw [hsnr, hfading, hrng]

/-- XMIT of a frame's text; any other string it has refused before (`exec_xmit_malformed`). -/
theorem exec_xmit_unset {str : Chars} (htext : frameText str)
    (h : s.fc = none ∨ s.sps = none ∨ s.snrDb = none ∨ s.fading = none ∨ s.rng = none) :
    exec (.xmit str) s = .next (s.after (.raised .configUnset)) := by
  obtain ⟨v, hv⟩ := (frameString_ok_iff str).mpr htext
  rw [exec_xmit, hv, ← commit_configUnset]
  rcases whenSet_first h with hfc | ⟨⟨fc, hfc⟩, h⟩
  · rw [hfc]
  rcases whenSet_first h with hsps | ⟨⟨sps, hsps⟩, h⟩
  · rw [hfc, hsps]
  rcases whenSet_first h with hsnr | ⟨⟨snr, hsnr⟩, h⟩
  · rw [hfc, hsps, hsnr]
  rcases whenSet_pair h with hfading | ⟨⟨fam, hfading⟩, hrng⟩
  · rw [hfc, hsps, hsnr, hfading]
  · rw [hfc, hsps, hsnr, hfading, hrng]

end

/-- Settles O19: CFG.RD reads one register (`exec_cfgRd_unset`); every other reader tests its registers,
and RNG, in turn (`whenSet_first`), and the first unset one ends it before a further operand counts. -/
theorem unsetRegistersAreRefused : Obligations.UnsetRegistersAreRefused := by
  refine ⟨fun s reg hunset => ?_, fun s _ _ _ _ h => exec_encId_unset h _ _ _ _,
    fun s _ _ _ _ _ _ _ _ _ h => exec_encPos_unset h _ _ _ _ _ _ _ _ _,
    fun s v h => exec_mod_unset h v, fun s x h => exec_demod_unset h x,
    fun s x h => exec_chan_unset h x, fun s _ htext h => exec_xmit_unset htext h⟩
  rcases hunset with ⟨rfl, hdf⟩ | ⟨rfl, hca⟩ | ⟨rfl, hfc⟩ | ⟨rfl, hsnr⟩ | ⟨rfl, hfading⟩ |
    ⟨rfl, hsps⟩
  · exact exec_cfgRd_unset (cfgRead_df s) hdf
  · exact exec_cfgRd_unset (cfgRead_ca s) hca
  · exact exec_cfgRd_unset (cfgRead_fc s) hfc
  · exact exec_cfgRd_unset (cfgRead_snrDb s) hsnr
  · exact exec_cfgRd_unset (cfgRead_fading s) hfading
  · exact exec_cfgRd_unset (cfgRead_sps s) hsps

end Sys2Proof.Machine
end

section
/-! Requests and instructions: decode and encode undo each other (30_encoding R76, R78, R81). -/

namespace Sys2Proof

/-! ### Instruction to request and back -/

/-- Every well-formed instruction is what its request decodes to: an operation by its code, a frame row
by the type code of the frame it holds. -/
theorem decode_encode {i : Instr} (h : i.wellFormed = true) : decode (encode i) = .ok i := by
  cases i
  case encId => exact if_pos (of_decide_eq_true h)
  case reset | cfgWr | cfgRd | seed | cntRd | histLen | histRd | hex2bit | bit2hex | char2six |
      six2char | crcGen | crcChk | altEnc | altDec | encPos | dec | cprNl | cprEnc | cprPair |
      cprResolve | mod | chan | demod | xmit => rfl
  all_goals
    rename_i f
    have htc := eq_of_beq (show (frameTypeCode f == _) = true from h)
    change Except.ok (decodeFrame f) = _
    rw [decodeFrame, htc]
    rfl

/-! ### Request to instruction and back -/

/-- A frame decodes to a row that holds it, the row of its own type code. -/
theorem decodeFrame_row (f : BitVec 112) :
    (decodeFrame f).rowTypeCode = some (frameTypeCode f, f) ∧ encode (decodeFrame f) = .frame f := by
  have hrow : ∀ {tc : BitVec 5}, (frameTypeCode f).toNat = tc.toNat →
      some (tc, f) = some (frameTypeCode f, f) := fun h => by rw [BitVec.eq_of_toNat_eq h]
  unfold decodeFrame
  split
  case h_32 => -- none of 0 to 30
    have hlt := (frameTypeCode f).isLt
    exact ⟨hrow (tc := 31) (show _ = 31 by grind), rfl⟩
  all_goals exact ⟨hrow ‹_›, rfl⟩

/-- An operation request decodes to an operation that is asked for by that request, with a callsign
the port carries. -/
theorem decodeOp_ok {code : BitVec 8} {args : List Operand} {i : Instr}
    (h : decodeOp code args = .ok i) :
    i.rowTypeCode = none ∧ i.callsignFits = true ∧ encode i = .op code args := by
  have hcode : ∀ {c : BitVec 8}, code.toNat = c.toNat → Request.op c args = .op code args :=
    fun h => by rw [BitVec.eq_of_toNat_eq h]
  unfold decodeOp at h
  split at h
  case h_16 => -- ENC.ID, whose callsign is tested too
    split at h
    · split at h
      · cases h
        exact ⟨rfl, decide_eq_true ‹_›, hcode ‹_›⟩
      · cases h
    · cases h
  case h_27 => cases h -- an unknown code
  all_goals
    split at h
    · cases h
      exact ⟨rfl, rfl, hcode ‹_›⟩
    · cases h

theorem wellFormed_of_operation {i : Instr} (hrow : i.rowTypeCode = none)
    (hfits : i.callsignFits = true) : i.wellFormed = true := by
  rw [Instr.wellFormed, hrow, hfits]

theorem wellFormed_of_row {i : Instr} {f : BitVec 112}
    (hrow : i.rowTypeCode = some (frameTypeCode f, f)) : i.wellFormed = true := by
  rw [Instr.wellFormed, hrow]
  exact beq_self_eq_true _

theorem encode_of_decode_ok {r : Request} {i : Instr} (h : decode r = .ok i) :
    i.wellFormed = true ∧ encode i = r := by
  cases r with
  | op code args =>
    obtain ⟨hrow, hfits, hencode⟩ := decodeOp_ok h
    exact ⟨wellFormed_of_operation hrow hfits, hencode⟩
  | frame f =>
    obtain ⟨hrow, hencode⟩ := decodeFrame_row f
    obtain rfl : decodeFrame f = i := Except.ok.inj h
    exact ⟨wellFormed_of_row hrow, hencode⟩

/-- Settles O3: one direction by the instruction (`decode_encode`), the other by the request, an
operation's (`decodeOp_ok`) or a frame (`decodeFrame_row`). -/
theorem decodeAndEncodeAgree : Obligations.DecodeAndEncodeAgree :=
  ⟨fun _ h => decode_encode h, fun _ _ h => encode_of_decode_ok h⟩

end Sys2Proof
end

section
/-! What every step and every operation keeps, from the ways an operation can end (`Ends`;
30_encoding R78, 60_exceptions R230, R238, R242). -/

namespace Sys2Proof.Machine

/-! ### A step by its request -/

theorem step_of_decode_ok {s : State} {r : Request} {i : Instr} (hr : s.requests.head? = some r)
    (hd : decode r = .ok i) : step s = exec i s := by
  simp only [step, fetch, hr, hd]

theorem step_idle {s : State} (h : s.requests.head? = none) : step s = .next s := by
  simp only [step, fetch, h]

/-- A callsign the port does not carry is answered: DF and CA are tested first (log 13). -/
theorem rejected_callsignTooLong (s : State) : rejected .callsignTooLong s =
    .next (s.after (.raised (if s.df = none ∨ s.ca = none then .configUnset else .operandRange))) := by
  rw [rejected]
  cases s.df <;> cases s.ca <;> simp [State.raise_eq]

/-- All a step can do: hold the state, run an operation, or end a request that is no instruction. -/
theorem step_next {s t : State} (h : step s = .next t) :
    t = s ∨ (∃ i, exec i s = .next t) ∨ ∃ e, t = s.after (.raised e) := by
  cases hr : s.requests.head? with
  | none =>
    rw [step_idle hr] at h
    exact .inl (Host.Outcome.next.inj h).symm
  | some r =>
    cases hd : decode r with
    | ok i => exact .inr (.inl ⟨i, step_of_decode_ok hr hd ▸ h⟩)
    | error e =>
      rw [step_of_decode_error hr hd] at h
      cases e with
      | illegalOp =>
        rw [rejected_illegalOp] at h
        exact .inr (.inr ⟨_, (Host.Outcome.next.inj h).symm⟩)
      | operandTypes => cases h
      | callsignTooLong =>
        rw [rejected_callsignTooLong] at h
        exact .inr (.inr ⟨_, (Host.Outcome.next.inj h).symm⟩)

/-- Settles O1: a step decodes the oldest request and runs or rejects it (`step_of_decode_ok`,
`step_of_decode_error`); without one it is `step_idle`. -/
theorem stepRunsTheDecodedInstruction : Obligations.StepRunsTheDecodedInstruction :=
  ⟨fun _ _ _ hr hd => step_of_decode_ok hr hd,
    fun _ h => step_idle (List.head?_eq_none_iff.mpr h),
    fun _ _ hr hd => step_of_decode_error hr hd⟩

/-- Settles O2: each table word is decoded by computing it. -/
theorem tableWordsDecode : Obligations.TableWordsDecode :=
  ⟨rfl, rfl, rfl, rfl, rfl, rfl⟩

/-- Settles O6: every instruction answers (`exec_ends`), and so do the rejections of an unknown code and
of a long callsign; a frame is never rejected. -/
theorem stepStopsOnlyOnUntypedOperands : Obligations.StepStopsOnlyOnUntypedOperands := by
  intro s
  cases hr : s.requests.head? with
  | none => exact .inl ⟨s, step_idle hr⟩
  | some r =>
    cases hd : decode r with
    | ok i =>
      obtain ⟨t, ht, -⟩ := exec_ends i s
      exact .inl ⟨t, (step_of_decode_ok hr hd).trans ht⟩
    | error e =>
      have hstep := step_of_decode_error hr hd
      cases e with
      | illegalOp => exact .inl ⟨_, hstep.trans (rejected_illegalOp s)⟩
      | callsignTooLong => exact .inl ⟨_, hstep.trans (rejected_callsignTooLong s)⟩
      | operandTypes =>
        cases r with
        | frame f => cases hd
        | op code args => exact .inr ⟨hstep, code, args, rfl, hd⟩

/-! ### The answer of an operation -/

/-- CFG.WR writes a register: the rest of the state, but for the records, is as it was. -/
theorem cfgWrite_keeps_rest {s t : State} {reg : BitVec 4} {v : Port Rat}
    (h : s.cfgWrite reg v = .ok t) :
    t.rng = s.rng ∧ t.num = s.num ∧ t.noise = s.noise ∧ t.requests = s.requests := by
  rcases cfgWrite_ok h with ⟨n, -, -, -, rfl⟩ | ⟨n, -, -, -, rfl⟩ | ⟨q, -, -, -, rfl⟩ |
    ⟨q, -, -, rfl⟩ | ⟨n, -, -, -, rfl⟩ | ⟨n, -, -, rfl⟩
  all_goals exact ⟨rfl, rfl, rfl, rfl⟩

/-- An operation takes its request off the port, and raises a status of its row or returns a result. -/
theorem Ends.answer {i : Instr} {s t : State} (h : Ends i s t) : t.requests = s.requests.tail ∧
    ((∃ r, t.response = some (.ok r)) ∨ ∃ e, e ∈ mayRaise i ∧ t = s.raise e) := by
  rcases h with ⟨e, he, rfl⟩ | ⟨-, r, rfl⟩ | ⟨-, rfl⟩ | ⟨reg, v, s', -, hw, rfl⟩ |
    ⟨n, -, rfl⟩ | ⟨g, n, r, -, -, rfl⟩ | ⟨f, r, -, -, rfl⟩
  · exact ⟨s.raise_requests e, .inr ⟨e, he, rfl⟩⟩
  · exact ⟨rfl, .inl ⟨r, rfl⟩⟩
  · exact ⟨rfl, .inl ⟨_, rfl⟩⟩
  · obtain ⟨-, -, -, hrequests⟩ := cfgWrite_keeps_rest hw
    exact ⟨congrArg List.tail hrequests, .inl ⟨_, rfl⟩⟩
  · exact ⟨rfl, .inl ⟨_, rfl⟩⟩
  · exact ⟨rfl, .inl ⟨r, rfl⟩⟩
  · exact ⟨rfl, .inl ⟨r, rfl⟩⟩

/-- An operation that answers an exception is one that raised it. -/
theorem exec_raised {i : Instr} {s t : State} {e : Exc} (h : exec i s = .next t)
    (he : t.response = some (.raised e)) : e ∈ mayRaise i ∧ t = s.raise e := by
  obtain ⟨-, ⟨r, hr⟩ | ⟨e', hmay, rfl⟩⟩ := (exec_next h).answer
  · rw [hr] at he
    cases he
  · obtain rfl : e' = e := by simpa using he
    exact ⟨hmay, rfl⟩

theorem Exc.code_le (e : Exc) : e.code.toNat ≤ 6 := by
  cases e <;> decide

/-- Settles O5: every operation answers (`Ends.answer`), an exception's code is at most 6, and the codes
of STATUS, KIND, ALT_SRC, RESOLVED and PASS are read off by cases. -/
theorem everyOperationEndsWithAStatus : Obligations.EveryOperationEndsWithAStatus := by
  refine ⟨fun i s => ?_, fun _ => rfl, fun e => by cases e <;> rfl, fun _ _ => rfl,
    fun p r => ⟨rfl, ?_, ?_⟩, fun _ => rfl, fun pos => ?_, fun _ _ => rfl⟩
  · obtain ⟨t, ht, hends⟩ := exec_ends i s
    obtain ⟨hrequests, ⟨r, hr⟩ | ⟨e, -, rfl⟩⟩ := hends.answer
    · exact ⟨t, .ok r, ht, hrequests, hr, Nat.zero_le 6⟩
    · exact ⟨_, .raised e, ht, hrequests, s.raise_response e, e.code_le⟩
  · change some r.altSrc.code = _
    cases r.altSrc <;> rfl
  · change some (if r.pos.isSome then (1 : BitVec 1) else 0) = _
    cases r.pos <;> rfl
  · cases pos <;> rfl

/-- Settles O7: an exception is raised from the old state (`exec_raised`), and raising counts
CHECKSUM_FAILURE alone. -/
theorem failedOperationChangesNothing : Obligations.FailedOperationChangesNothing := by
  intro i s t e h he
  obtain ⟨-, rfl⟩ := exec_raised h he
  exact ⟨fun hne => s.raise_eq e hne, fun hcs => hcs ▸ s.raise_checksum⟩

/-- Settles O8: an operation raises a status of its row only (`exec_raised`). -/
theorem statusesAreThoseOfTheTable : Obligations.StatusesAreThoseOfTheTable :=
  fun _ _ _ _ h he => (exec_raised h he).1

/-! ### The state an operation writes -/

/-- Only a received frame can end with CHECKSUM_FAILURE (60_exceptions R242). -/
theorem receivesFrame_of_mayRaise_checksum {i : Instr} (h : Exc.checksumFailure ∈ mayRaise i) :
    receivesFrame i = true := by
  cases i
  case reset | cfgWr | cfgRd | seed | cntRd | histLen | histRd | hex2bit | bit2hex | char2six |
      six2char | crcGen | crcChk | altEnc | altDec | encId | encPos | cprNl | cprEnc | cprPair |
      cprResolve | mod | chan | demod | xmit => simp [mayRaise] at h
  all_goals rfl

/-- Settles O9: each way of ending names the state it writes (`Ends`). -/
theorem onlyNamedStateIsWritten : Obligations.OnlyNamedStateIsWritten := by
  intro i s t h
  rcases exec_next h with ⟨e, he, rfl⟩ | ⟨-, r, rfl⟩ | ⟨rfl, rfl⟩ | ⟨reg, v, s', rfl, hw, rfl⟩ |
    ⟨n, rfl, rfl⟩ | ⟨g, n, r, hrng, -, rfl⟩ | ⟨f, r, hf, -, rfl⟩
  · refine ⟨s.raise_num e, s.raise_noise e, fun _ => by simp, fun _ => s.raise_rng e,
      fun hf _ => ⟨s.raise_hist e, ?_⟩⟩
    rw [s.raise_corruptCnt, if_neg]
    rintro rfl
    exact Bool.false_ne_true (hf.symm.trans (receivesFrame_of_mayRaise_checksum he))
  · simp
  · simp [writesConfig, writesRng]
  · obtain ⟨hrng, hnum, hnoise, -⟩ := cfgWrite_keeps_rest hw
    have hrecords := cfgWrite_keeps_records hw
    exact ⟨hnum, hnoise, fun hc => Bool.noConfusion hc, fun _ => hrng, fun _ _ => hrecords⟩
  · simp [writesRng]
  · simp [hrng]
  · simp [hf]

/-- Settles O10: a History grows only by a received frame's record, and whatever it grows by stands
after the old records (`exec_keeps_records`). -/
theorem historyIsAppendOnly : Obligations.HistoryIsAppendOnly := by
  intro i s t hi h
  refine ⟨?_, fun k hk => ?_⟩
  · rcases exec_next h with ⟨e, he, rfl⟩ | ⟨-, r, rfl⟩ | ⟨hreset, -⟩ | ⟨reg, v, s', -, hw, rfl⟩ |
      ⟨n, -, rfl⟩ | ⟨g, n, r, -, -, rfl⟩ | ⟨f, r, hf, -, rfl⟩
    · exact .inl (s.raise_hist e)
    · exact .inl rfl
    · exact absurd hreset hi
    · exact .inl (cfgWrite_keeps_records hw).1
    · exact .inl rfl
    · exact .inl rfl
    · exact .inr ⟨hf, _, rfl⟩
  · obtain ⟨added, hadded⟩ := (exec_keeps_records hi h).1
    rw [memRead, memRead, ← hadded, List.getElem?_append_left hk]

/-! ### The invariant -/

/-- The invariant speaks of FC, the arithmetic and the History alone. -/
theorem State.Inv.of_eq {s t : State} (h : s.Inv) (hfc : t.fc = s.fc) (hnum : t.num = s.num)
    (hhist : t.hist = s.hist) : t.Inv := by
  obtain ⟨hlegal, hwf⟩ := h
  exact ⟨fun fc h => hlegal fc (hfc ▸ h), by rw [hnum, hhist]; exact hwf⟩

/-- What CFG.WR leaves in FC is what was there, or a value above 0. -/
theorem cfgWrite_configLegal {s t : State} {reg : BitVec 4} {v : Port Rat}
    (h : s.cfgWrite reg v = .ok t) (hs : s.configLegal) : t.configLegal := by
  rcases cfgWrite_ok h with ⟨n, -, -, -, rfl⟩ | ⟨n, -, -, -, rfl⟩ | ⟨q, -, -, hq, rfl⟩ |
    ⟨q, -, -, rfl⟩ | ⟨n, -, -, -, rfl⟩ | ⟨n, -, -, rfl⟩
  case inr.inr.inl => exact fun fc hfc => Option.some.inj hfc ▸ hq
  all_goals exact hs

theorem exec_keeps_inv {i : Instr} {s t : State} (h : s.Inv) (hexec : exec i s = .next t) :
    t.Inv := by
  obtain ⟨hlegal, hwf⟩ := id h
  rcases exec_next hexec with ⟨e, -, rfl⟩ | ⟨-, r, rfl⟩ | ⟨-, rfl⟩ | ⟨reg, v, s', -, hw, rfl⟩ |
    ⟨n, -, rfl⟩ | ⟨g, n, r, -, -, rfl⟩ | ⟨f, r, -, -, rfl⟩
  · exact h.of_eq (s.raise_fc e) (s.raise_num e) (s.raise_hist e)
  · exact h
  · exact ⟨fun _ hfc => (Option.some_ne_none _ hfc.symm).elim, Memory.wf_nil s.num⟩
  · obtain ⟨-, hnum, -, -⟩ := cfgWrite_keeps_rest hw
    have hwf' : Memory.wf s'.num s'.hist = true := by
      rw [hnum, (cfgWrite_keeps_records hw).1]
      exact hwf
    have hlegal' : s'.configLegal := cfgWrite_configLegal hw hlegal
    exact ⟨hlegal', hwf'⟩
  · exact h
  · exact h
  · exact ⟨hlegal, Memory.wf_memAppend hwf (frameRecord_from s.num s.hist f)⟩

/-- Settles O11: an operation keeps the invariant (`exec_keeps_inv`), and a step that runs none leaves
all it speaks of. -/
theorem stepKeepsTheInvariant : Obligations.StepKeepsTheInvariant := by
  intro s t hs hstep
  rcases step_next hstep with rfl | ⟨i, hi⟩ | ⟨e, rfl⟩
  · exact hs
  · exact exec_keeps_inv hs hi
  · exact hs

/-- Settles O12: after reset FC is unset and the History empty. -/
theorem resetMeetsTheInvariant : Obligations.ResetMeetsTheInvariant :=
  ⟨fun _ hfc => (Option.some_ne_none _ hfc.symm).elim, reset_wf⟩

end Sys2Proof.Machine
end

section
/-! The four BitCodec operations undo each other (40_bitcodec R90 to R94). -/

namespace Sys2Proof.Machine

/-! ### Hex strings -/

theorem bitsToHex_of_width {v : Bits} (h4 : v.length % 4 = 0) (hl : v.length ≤ 112) :
    bitsToHex v = .ok (hexChars v) := by
  rw [bitsToHex, if_neg (by omega)]

theorem hexToBits_hexChars {v : Bits} (h4 : v.length % 4 = 0) (hl : v.length ≤ 112) :
    hexToBits (hexChars v) = .ok v := by
  have hwidth : v.length = 4 * (v.length / 4) := by omega
  rw [hexToBits, hexChars_length _ v hwidth, if_neg (by omega)]
  exact hexDigits_hexChars _ v hwidth

/-- A string HEX2BIT accepts has at most 28 characters, and its digits give its bits. -/
theorem hexToBits_ok {str : Chars} {v : Bits} (h : hexToBits str = .ok v) :
    str.length ≤ 28 ∧ hexDigits str = .ok v := by
  unfold hexToBits at h
  split at h
  · cases h
  · exact ⟨not_lt.mp ‹_›, h⟩

theorem bitsToHex_of_hexToBits {str : Chars} {v : Bits} (h : hexToBits str = .ok v) :
    bitsToHex v = .ok str := by
  obtain ⟨hl, hdigits⟩ := hexToBits_ok h
  obtain ⟨hlength, hchars, -⟩ := hexDigits_ok hdigits
  rw [bitsToHex_of_width (by omega) (by omega), hchars]

/-! ### Characters -/

/-- The codes of the characters: letters, space and digits (30_encoding R68). -/
def CharacterCode (n : Nat) : Prop := (1 ≤ n ∧ n ≤ 26) ∨ n = 32 ∨ (48 ≤ n ∧ n ≤ 57)

theorem sixToChar_charToSix_toNat (c : Byte) : (sixToChar (charToSix c)).toNat =
    if (65 ≤ c.toNat ∧ c.toNat ≤ 90) ∨ (48 ≤ c.toNat ∧ c.toNat ≤ 57) then c.toNat else 32 := by
  rw [sixToChar_toNat, charToSix_toNat]
  split_ifs <;> omega

theorem charToSix_sixToChar_toNat (x : BitVec 6) : (charToSix (sixToChar x)).toNat =
    if (1 ≤ x.toNat ∧ x.toNat ≤ 26) ∨ (48 ≤ x.toNat ∧ x.toNat ≤ 57) then x.toNat else 32 := by
  rw [charToSix_toNat, sixToChar_toNat]
  split_ifs <;> omega

theorem sixToChar_charToSix_of_alphabet {c : Byte} (h : alphabetChar c) :
    sixToChar (charToSix c) = c := by
  apply BitVec.eq_of_toNat_eq
  unfold alphabetChar at h
  rw [sixToChar_charToSix_toNat]
  split_ifs <;> omega

theorem sixToChar_charToSix_of_not_alphabet {c : Byte} (h : ¬ alphabetChar c) :
    sixToChar (charToSix c) = 32 := by
  apply BitVec.eq_of_toNat_eq
  unfold alphabetChar at h
  rw [sixToChar_charToSix_toNat, if_neg (by omega)]
  rfl

theorem charToSix_sixToChar_of_code {x : BitVec 6} (h : CharacterCode x.toNat) :
    charToSix (sixToChar x) = x := by
  apply BitVec.eq_of_toNat_eq
  unfold CharacterCode at h
  rw [charToSix_sixToChar_toNat]
  split_ifs <;> omega

theorem charToSix_sixToChar_of_not_code {x : BitVec 6} (h : ¬ CharacterCode x.toNat) :
    charToSix (sixToChar x) = 32 := by
  apply BitVec.eq_of_toNat_eq
  unfold CharacterCode at h
  rw [charToSix_sixToChar_toNat, if_neg (by omega)]
  rfl

/-- Settles O24: the hex round trips from the lemmas on digit strings (`hexDigits_hexChars`,
`hexDigits_ok`), the character round trips by the ranges of the map as numbers. -/
theorem bitCodecRoundTrips : Obligations.BitCodecRoundTrips :=
  ⟨fun v h4 hl => ⟨hexChars v, bitsToHex_of_width h4 hl, hexToBits_hexChars h4 hl⟩,
    fun _ _ h => bitsToHex_of_hexToBits h,
    fun _ => ⟨sixToChar_charToSix_of_alphabet, sixToChar_charToSix_of_not_alphabet⟩,
    fun _ => ⟨charToSix_sixToChar_of_code, charToSix_sixToChar_of_not_code⟩⟩

/-- Settles O25: CHAR2SIX and SIX2CHAR answer with the map, whose values as numbers are
`charToSix_toNat` and `sixToChar_toNat`. -/
theorem characterMap : Obligations.CharacterMap := by
  refine ⟨fun _ => rfl, fun _ => rfl, fun s c => ⟨charToSix c, ?_, charToSix_toNat c⟩,
    fun s x => ⟨sixToChar x, ?_, sixToChar_toNat x⟩⟩
  · rw [exec_char2six, answer_ok]
  · rw [exec_six2char, answer_ok]

end Sys2Proof.Machine
end

section
/-! The CRC is additive, its check is a division, and it detects every single flipped bit (41_crc24
R108 to R110). -/

namespace Sys2Proof.Machine

/-- What dividing a whole buffer by the generator leaves, 24 bits. -/
def crcRemainder (b : BitVec 112) : BitVec 24 := ((List.range 88).foldl crcStep b).extractLsb' 0 24

theorem crcRemainder_xor (a b : BitVec 112) :
    crcRemainder (a ^^^ b) = crcRemainder a ^^^ crcRemainder b := by
  rw [crcRemainder, crcFold_xor, BitVec.extractLsb'_xor]
  rfl

/-- The CRC is what dividing the data with 24 zeros behind it leaves (41_crc24 R101). -/
theorem crc24_eq_crcRemainder (d : BitVec 88) : crc24 d = crcRemainder (d ++ (0 : BitVec 24)) := rfl

theorem crc24_xor (a b : BitVec 88) : crc24 (a ^^^ b) = crc24 a ^^^ crc24 b := by
  simp only [crc24_eq_crcRemainder]
  rw [← crcRemainder_xor, BitVec.xor_append, BitVec.xor_self]
  rfl

/-- Settles O27: the division loop is additive (`crcFold_xor`), and zeros leave it with zeros. -/
theorem crcIsLinear : Obligations.CrcIsLinear := by
  refine ⟨crc24_xor, ?_⟩
  have hself := crc24_xor 0 0
  rw [BitVec.xor_self, BitVec.xor_self] at hself
  exact hself

/-! ### The check as a division -/

/-- A frame is its data with zeros behind it and its CRC with zeros before it, added. -/
theorem frame_eq_xor (f : BitVec 112) :
    f = (frameData f ++ (0 : BitVec 24)) ^^^ ((0 : BitVec 88) ++ frameCrc f) := by
  rw [BitVec.xor_append, frameData, frameCrc]
  simp only [BitVec.ofNat_eq_ofNat, BitVec.xor_zero, BitVec.zero_xor]
  rw [BitVec.extractLsb'_append_extractLsb'_eq_extractLsb' (by rfl)]
  exact BitVec.extractLsb'_eq_self.symm

/-- The division does not touch bits below its last trigger position. -/
theorem crcRemainder_low (c : BitVec 24) : crcRemainder ((0 : BitVec 88) ++ c) = c := by
  rw [crcRemainder, crcFold_of_clear]
  · rw [BitVec.extractLsb'_append_eq_of_add_le (by omega)]
    exact BitVec.extractLsb'_eq_self
  · intro i hi
    rw [List.mem_range] at hi
    rw [BitVec.getLsbD_append, if_neg (by omega)]
    exact BitVec.getLsbD_zero

/-- Dividing a whole frame leaves the computed CRC plus the received one (41_crc24 R110). -/
theorem crcRemainder_frame (f : BitVec 112) : crcRemainder f = crc24 (frameData f) ^^^ frameCrc f := by
  conv_lhs => rw [frame_eq_xor f]
  rw [crcRemainder_xor, crcRemainder_low, ← crc24_eq_crcRemainder]

theorem crcPasses_iff_crcRemainder (f : BitVec 112) : crcPasses f = true ↔ crcRemainder f = 0 := by
  rw [crcRemainder_frame, crcPasses, beq_iff_eq]
  exact BitVec.xor_eq_zero_iff.symm

/-- Settles O30: CRC.CHK answers PASS by comparing the CRCs, whose sum is what the division of the frame
leaves (`crcRemainder_frame`). -/
theorem checkerIsADivision : Obligations.CheckerIsADivision := by
  intro s f
  refine ⟨crcPasses f, crc24 (frameData f), ?_, crcPasses_iff_crcRemainder f, crcRemainder_frame f⟩
  rw [exec_crcChk, answer_ok]

/-! ### One flipped bit -/

theorem bitPoly_zero (w : Nat) : bitPoly (0 : BitVec w) = 0 := by
  simp [bitPoly]

theorem bitPoly_twoPow {w i : Nat} (h : i < w) :
    bitPoly (BitVec.twoPow w i) = Polynomial.X ^ i := by
  ext k
  rw [bitPoly_coeff, BitVec.getLsbD_twoPow, Polynomial.coeff_X_pow, decide_eq_true h,
    Bool.true_and]
  simp only [decide_eq_true_eq, @eq_comm _ i k]

/-- The generator ends in a 1, so it shares no factor with a power of `x`. -/
theorem generator_not_dvd_X_pow (i : Nat) : ¬ bitPoly generator ∣ Polynomial.X ^ i := by
  intro hdvd
  have hX : ¬ (Polynomial.X : Polynomial (ZMod 2)) ∣ bitPoly generator := by
    rw [Polynomial.X_dvd_iff, bitPoly_coeff]
    simp [generator]
  have hcoprime : IsCoprime (Polynomial.X ^ i) (bitPoly generator) :=
    ((Polynomial.irreducible_X.coprime_iff_not_dvd).mpr hX).pow_left
  have hone := bitPoly_generator_monic.eq_one_of_isUnit (hcoprime.isUnit_of_dvd' hdvd dvd_rfl)
  have hlead := bitPoly_coeff generator 24
  rw [hone, Polynomial.coeff_one] at hlead
  simp [generator] at hlead

/-- A single 1 in the buffer leaves a remainder (41_crc24 R109). -/
theorem crcRemainder_twoPow_ne_zero {i : Nat} (h : i < 112) :
    crcRemainder (BitVec.twoPow 112 i) ≠ 0 := by
  intro hzero
  have hrem := bitPoly_crcFold_remainder (BitVec.twoPow 112 i)
  change bitPoly (crcRemainder _) = _ at hrem
  rw [hzero, bitPoly_twoPow h, bitPoly_zero] at hrem
  exact generator_not_dvd_X_pow i
    ((Polynomial.modByMonic_eq_zero_iff_dvd bitPoly_generator_monic).mp hrem.symm)

/-- A bit of the data as a bit of the buffer the CRC is computed in. -/
theorem twoPow_append_zero (i : Nat) :
    (BitVec.twoPow 88 i ++ (0 : BitVec 24) : BitVec 112) = BitVec.twoPow 112 (24 + i) := by
  apply BitVec.eq_of_getLsbD_eq
  intro k hk
  rw [BitVec.getLsbD_append]
  simp only [BitVec.getLsbD_twoPow]
  grind

/-- Settles O29: a flipped bit adds the remainder of a single 1, which is not 0
(`crcRemainder_twoPow_ne_zero`), to the remainder of the buffer. -/
theorem singleBitErrorsAreDetected : Obligations.SingleBitErrorsAreDetected := by
  refine ⟨fun d i hi heq => ?_, fun s f i hi hpass => ?_⟩
  · have hzero : crc24 (BitVec.twoPow 88 i) = 0 := by
      rw [crc24_xor] at heq
      exact (BitVec.xor_right_inj _).mp (heq.trans BitVec.xor_zero.symm)
    rw [crc24_eq_crcRemainder, twoPow_append_zero] at hzero
    exact crcRemainder_twoPow_ne_zero (i := 24 + i) (by omega) hzero
  · have hfails : crcPasses (f ^^^ BitVec.twoPow 112 i) = false := by
      rw [Bool.eq_false_iff, Ne, crcPasses_iff_crcRemainder, crcRemainder_xor,
        (crcPasses_iff_crcRemainder f).mp hpass, zero_xor]
      exact crcRemainder_twoPow_ne_zero hi
    refine ⟨crc24 (frameData (f ^^^ BitVec.twoPow 112 i)), ?_⟩
    rw [exec_crcChk, hfails, answer_ok]

end Sys2Proof.Machine
end

section
/-! The History search returns the newest partner (20_memory R45). -/

namespace Sys2Proof.Machine

/-- A record of the address with the other parity, what `hist_find` looks for. -/
def IsPartner (addr : BitVec 24) (fp : BitVec 1) (r : Record) : Prop := r.addr = addr ∧ r.f ≠ fp

/-- Record `r`, at place `i`, is the last partner of a History. -/
def IsNewestAt (h : List Record) (addr : BitVec 24) (fp : BitVec 1) (r : Record) (i : Nat) : Prop :=
  h[i]? = some r ∧ IsPartner addr fp r ∧
    ∀ (j : Nat) (r' : Record), i < j → h[j]? = some r' → ¬ IsPartner addr fp r'

section
variable {h : List Record} {q r : Record} {addr : BitVec 24} {fp : BitVec 1}

/-- A partner appended is the newest. -/
theorem isNewestAt_append_partner (hq : IsPartner addr fp q) :
    (∃ i, IsNewestAt (h ++ [q]) addr fp r i) ↔ q = r := by
  constructor
  · rintro ⟨i, hi, -, hlater⟩
    have hlast : (h ++ [q])[h.length]? = some q := List.getElem?_concat_length
    rcases lt_trichotomy i h.length with hlt | rfl | hgt
    · exact absurd hq (hlater _ _ hlt hlast)
    · exact Option.some.inj (hlast.symm.trans hi)
    · rw [List.getElem?_eq_none (by simpa using hgt)] at hi
      cases hi
  · rintro rfl
    refine ⟨h.length, List.getElem?_concat_length, hq, fun j r' hj hr' => ?_⟩
    rw [List.getElem?_eq_none (by simpa using hj)] at hr'
    cases hr'

/-- A record appended that is no partner does not count. -/
theorem isNewestAt_append_other (hq : ¬ IsPartner addr fp q) :
    (∃ i, IsNewestAt (h ++ [q]) addr fp r i) ↔ ∃ i, IsNewestAt h addr fp r i := by
  refine exists_congr fun i => ?_
  have hsame : ∀ (j : Nat) (r' : Record), IsPartner addr fp r' →
      ((h ++ [q])[j]? = some r' ↔ h[j]? = some r') := by
    intro j r' hr'
    have hne : q ≠ r' := fun heq => hq (heq ▸ hr')
    grind
  refine ⟨fun ⟨hi, hr, hlater⟩ => ⟨(hsame i r hr).mp hi, hr, fun j r' hj hr' hp => ?_⟩,
    fun ⟨hi, hr, hlater⟩ => ⟨(hsame i r hr).mpr hi, hr, fun j r' hj hr' hp => ?_⟩⟩
  · exact hlater j r' hj ((hsame j r' hp).mpr hr') hp
  · exact hlater j r' hj ((hsame j r' hp).mp hr') hp

end

theorem histFind_eq_some_iff (h : List Record) (addr : BitVec 24) (fp : BitVec 1) (r : Record) :
    histFind h addr fp = some r ↔ ∃ i, IsNewestAt h addr fp r i := by
  induction h using List.reverseRecOn with
  | nil => simp [IsNewestAt]
  | append_singleton h q ih =>
    rw [histFind_append]
    by_cases hq : IsPartner addr fp q
    · rw [isNewestAt_append_partner hq, if_pos (show q.addr = addr ∧ q.f ≠ fp from hq),
        Option.some.injEq]
    · rw [isNewestAt_append_other hq, if_neg (show ¬ (q.addr = addr ∧ q.f ≠ fp) from hq), ih]

theorem histFind_eq_none_iff (h : List Record) (addr : BitVec 24) (fp : BitVec 1) :
    histFind h addr fp = none ↔ ∀ r ∈ h, ¬ IsPartner addr fp r := by
  simp [histFind, IsPartner]

/-- Settles O42: by induction on the History from its newest record, which the search looks at first
(`histFind_append`); a record of the same parity is passed over. -/
theorem histFindReturnsTheNewestPartner : Obligations.HistFindReturnsTheNewestPartner := by
  refine ⟨fun h addr fp r => ?_, histFind_eq_none_iff, fun h r => ?_⟩
  · simpa only [IsNewestAt, IsPartner, and_assoc] using histFind_eq_some_iff h addr fp r
  · rw [histFind_append, if_neg (fun hr => hr.2 rfl)]

end Sys2Proof.Machine
end

section
/-! The altitude field: ALT.ENC and ALT.DEC (42_frame_codec R115 to R120). -/

namespace Sys2Proof.Machine

/-! ### ALT.ENC by its operand -/

/-- An operation that leaves the state has one answer. -/
theorem answer_unique {s : State} {r r' : Response}
    (h : (.next (s.after r) : Host.Outcome State Fault Refusal) = .next (s.after r')) : r = r' := by
  have hresponse := congrArg State.response (Host.Outcome.next.inj h)
  simpa using hresponse

theorem exec_altEnc_finite (m : Rat) (s : State) :
    exec (.altEnc (.finite m)) s = answer s ((altEncode s.num m).map .altField) := rfl

theorem exec_altEnc_of_ok {s : State} {m : Rat} {a : BitVec 12} (h : altEncode s.num m = .ok a) :
    exec (.altEnc (.finite m)) s = .next (s.after (.ok (.altField a))) := by
  rw [exec_altEnc_finite, h]
  rfl

theorem exec_altEnc_of_error {s : State} {m : Rat} {e : Exc} (h : altEncode s.num m = .error e) :
    exec (.altEnc (.finite m)) s = .next (s.after (.raised .operandRange)) := by
  rw [exec_altEnc_finite, h, altEncode_error h]
  rfl

/-- ALT.ENC answers a field only where the altitude was encoded. -/
theorem altEncode_of_exec_ok {s : State} {m : Rat} {a : BitVec 12}
    (h : exec (.altEnc (.finite m)) s = .next (s.after (.ok (.altField a)))) :
    altEncode s.num m = .ok a := by
  cases hm : altEncode s.num m with
  | ok a' =>
    rw [exec_altEnc_of_ok hm] at h
    cases answer_unique h
    rfl
  | error e =>
    rw [exec_altEnc_of_error hm] at h
    cases answer_unique h

/-- What is no altitude in range is refused, as a number or as a port. -/
theorem altOutOfRange_cases {num : Numerics} {m : Port Rat} (h : altOutOfRange num m) :
    (∃ q, m = .finite q ∧ altEncode num q = .error .operandRange) ∨
      finiteValue m = .error .operandRange := by
  rcases finiteValue_cases m with ⟨q, rfl, -⟩ | ⟨-, hm⟩
  · exact .inl ⟨q, rfl, altEncode_range (h q rfl)⟩
  · exact .inr hm

theorem exec_altEnc_outOfRange {s : State} {m : Port Rat} (h : altOutOfRange s.num m) :
    exec (.altEnc m) s = .next (s.after (.raised .operandRange)) := by
  rcases altOutOfRange_cases h with ⟨q, rfl, hq⟩ | hm
  · exact exec_altEnc_of_error hq
  · rw [exec_altEnc, hm]
    rfl

/-- ALT.ENC of an altitude in range answers the field of its Q bit and its magnitude. -/
theorem exec_altEnc_inRange {s : State} {m : Rat} (h : altInRange s.num m) :
    ∃ (a : BitVec 12) (n : BitVec 11),
      exec (.altEnc (.finite m)) s = .next (s.after (.ok (.altField a))) ∧
      a.extractLsb' 4 1 = altQOf s.num (feet m) ∧
      a.extractLsb' 5 7 = n.extractLsb' 4 7 ∧ a.extractLsb' 0 4 = n.extractLsb' 0 4 ∧
      (n.toNat : Int) = altMagnitude s.num (feet m) := by
  obtain ⟨n, hencode, hn⟩ := altEncode_accepts h
  obtain ⟨hhigh, hlow, hq⟩ := altField_slices (altQOf s.num (feet m)) n
  exact ⟨_, n, exec_altEnc_of_ok hencode, hq, hhigh, hlow, hn⟩

/-! ### The reference -/

theorem altQOf_exact (ft : Rat) : altQOf .exact ft = if 50000 ≤ ft then 0 else 1 := by
  rw [altQOf, Numerics.atLeast_exact]
  simp only [decide_eq_true_eq]

theorem altMagnitude_exact (ft : Rat) :
    altMagnitude .exact ft = ⌊(ft + 1000) / (if 50000 ≤ ft then 100 else 25)⌋ := by
  have hfloor := Numerics.isFloor_exact.mp (altMagnitude_isFloor .exact ft)
  rw [hfloor, altQOf_exact]
  by_cases h : 50000 ≤ ft
  · simp only [if_pos h]; rfl
  · simp only [if_neg h]; rfl

theorem altInRange_exact {m : Rat} (hlo : -1000 ≤ m * 1250 / 381) (hhi : m * 1250 / 381 < 203800) :
    altInRange .exact m := by
  simpa [altInRange, Numerics.altSlack] using ⟨hlo, hhi⟩

/-! ### ALT.DEC -/

theorem exec_altDec_next (a : BitVec 12) (s : State) : exec (.altDec a) s =
    .next (s.after (.ok (.altitude (altQ a) (altN a) (altFeet a) (altMetres a)))) := by
  rw [exec_altDec, answer_ok]

theorem altFeet_eq (a : BitVec 12) : altFeet a =
    ((altN a).toNat : Int) * (if a.extractLsb' 4 1 = 1 then 25 else 100) - 1000 := by
  rw [altFeet, altStep, altQ]
  split <;> rfl

/-- Settles O31: what ALT.ENC stores is known by its fields (`exec_altEnc_inRange`), the Q bit and the
magnitude being a comparison and a floor of the arithmetic of the build (`altQOf_reaches`,
`altMagnitude_isFloor`), the exact ones in the reference. -/
theorem altitudeFieldIsEncodedAndDecoded : Obligations.AltitudeFieldIsEncodedAndDecoded := by
  refine ⟨fun _ => rfl, fun _ => rfl, fun s m h => ?_, fun s m hnum hlo hhi => ?_,
    fun s m h => exec_altEnc_outOfRange h,
    fun s a => ⟨altN a, altFeet a, exec_altDec_next a s, altN_toNat a, altFeet_eq a⟩⟩
  · obtain ⟨a, n, hexec, hq, hhigh, hlow, hn⟩ := exec_altEnc_inRange h
    refine ⟨a, n, hexec, ?_, hhigh, hlow, ?_⟩
    · rw [hq]
      exact altQOf_reaches s.num (feet m)
    · rw [hq, hn]
      exact altMagnitude_isFloor s.num (feet m)
  · have h : altInRange s.num m := hnum ▸ altInRange_exact hlo hhi
    obtain ⟨a, n, hexec, hq, hhigh, hlow, hn⟩ := exec_altEnc_inRange h
    rw [hnum] at hq hn
    exact ⟨a, n, hexec, hq.trans (altQOf_exact _), hhigh, hlow, hn.trans (altMagnitude_exact _)⟩

/-- A field ALT.ENC stored has the Q bit of the altitude, and decodes to at most the altitude and less
than one step below it, up to rounding distance. -/
theorem altEncode_roundTrip {num : Numerics} {m : Rat} {a : BitVec 12}
    (h : altEncode num m = .ok a) :
    num.Reaches (m * 1250 / 381) 50000 (roundingDistance (m * 1250 / 381)) (altQ a = 0) ∧
      (altFeet a : Rat) ≤ m * 1250 / 381 + num.altSlack m ∧
      m * 1250 / 381 - (if altQ a = 0 then 100 else 25) - num.altSlack m < (altFeet a : Rat) := by
  obtain ⟨n, rfl, hn⟩ := altEncode_ok h
  rw [altQ_altField]
  exact ⟨altQOf_reaches num (feet m), altFeet_altField num m n hn⟩

/-- Settles O32: ALT.ENC answered the field the altitude was encoded in, which ALT.DEC reads
(`altEncode_roundTrip`). -/
theorem altitudeRoundTrip : Obligations.AltitudeRoundTrip := fun s _ a h =>
  ⟨altQ a, altN a, altFeet a, altMetres a, exec_altDec_next a s,
    altEncode_roundTrip (altEncode_of_exec_ok h)⟩

end Sys2Proof.Machine
end

section
/-! The frame rows, and DEC as the row of the frame a string holds (30_encoding R72, R81; log 4). -/

namespace Sys2Proof.Machine

/-- A frame row receives its frame in the format of its type code. -/
theorem exec_row {i : Instr} {tc : BitVec 5} {f : BitVec 112} (h : i.rowTypeCode = some (tc, f))
    (s : State) : exec i s = commit s (receiveFrame (payloadKind tc) f s) := by
  cases i
  all_goals cases h
  all_goals rfl

theorem exec_decodeFrame (f : BitVec 112) (s : State) :
    exec (decodeFrame f) s = commit s (receiveFrame (payloadKind (frameTypeCode f)) f s) :=
  exec_row (decodeFrame_row f).1 s

/-- Settles O38: a frame's text is the hex string of one frame (`frameHex_of_frameString`), and both DEC
of it and the frame's row receive that frame in the format of its type code. -/
theorem decIsTheFrameRow : Obligations.DecIsTheFrameRow := by
  intro str htext
  obtain ⟨v, hv⟩ := (frameString_ok_iff str).mpr htext
  obtain ⟨-, rfl⟩ := frameHex_of_frameString hv
  exact ⟨ofWire 112 v, rfl, fun s => (exec_dec_frameHex rfl s).trans (exec_decodeFrame _ s).symm⟩

/-! ### The rows by format -/

/-- Settles O39: each of the four rows receives the frame as an identification. -/
theorem identRowsReport : Obligations.IdentRowsReport := by
  intro s f i hi
  have hexec : exec i s = commit s (receiveFrame .ident f s) := by
    simp only [List.mem_cons, List.not_mem_nil, or_false] at hi
    rcases hi with rfl | rfl | rfl | rfl <;> rfl
  exact ⟨fun h => hexec.trans (commit_receiveFrame_ident h s),
    fun h => hexec.trans (commit_receiveFrame_corrupt h _ s)⟩

/-- Settles O40: each of the rows receives the frame as a position with the altitude source of its
group; the altitude and the position are the terms ALT.DEC and CPR.RESOLVE answer with. -/
theorem positionRowsReportAndAppend : Obligations.PositionRowsReportAndAppend := by
  intro s f src i hi
  have hexec : exec i s = commit s (receiveFrame (.position src) f s) := by
    cases src with
    | barometric =>
      simp only [List.mem_cons, List.not_mem_nil, or_false] at hi
      rcases hi with rfl | rfl | rfl | rfl | rfl | rfl | rfl | rfl | rfl | rfl <;> rfl
    | gnss =>
      simp only [List.mem_cons, List.not_mem_nil, or_false] at hi
      rcases hi with rfl | rfl | rfl <;> rfl
  refine ⟨fun h => ?_, fun h => hexec.trans (commit_receiveFrame_corrupt h _ s)⟩
  exact ⟨framePos s.num s.hist f, _, _, _, _, exec_altDec_next _ s, exec_cprResolve _ _ _ _ _ s,
    hexec.trans (commit_receiveFrame_position h s src)⟩

/-- Settles O41: each of the rows receives the frame as an unknown one. -/
theorem otherRowsReportThePrefix : Obligations.OtherRowsReportThePrefix := by
  intro s f i hi
  have hexec : exec i s = commit s (receiveFrame .other f s) := by
    simp only [List.mem_cons, List.not_mem_nil, or_false] at hi
    rcases hi with rfl | rfl | rfl | rfl | rfl | rfl | rfl | rfl | rfl | rfl | rfl | rfl | rfl |
      rfl | rfl <;> rfl
  exact ⟨fun h => hexec.trans (commit_receiveFrame_other h s),
    fun h => hexec.trans (commit_receiveFrame_corrupt h _ s)⟩

end Sys2Proof.Machine
end

section
/-! ENC.ID and ENC.POS: the frame of the operands, and what DEC recovers of it (42_frame_codec R121 to
R125, R143). -/

namespace Sys2Proof.Machine

/-! ### Operands that are not finite -/

theorem finiteValue_of_nonfinite {α : Type} {p : Port α} (h : ∀ a, p ≠ .finite a) :
    finiteValue p = .error .operandRange := by
  rcases finiteValue_cases p with ⟨a, ha, -⟩ | ⟨-, hp⟩
  · exact absurd ha (h a)
  · exact hp

theorem cprEncodePorts_finite (num : Numerics) (lat lon : Rat) (p : BitVec 1) :
    cprEncodePorts num (.finite lat) (.finite lon) p = .ok (cprEncode num lat lon p) := rfl

theorem cprEncodePorts_of_nonfinite {lat lon : Port Rat}
    (h : (∀ q, lat ≠ .finite q) ∨ (∀ q, lon ≠ .finite q)) (num : Numerics) (p : BitVec 1) :
    cprEncodePorts num lat lon p = .error .operandRange := by
  rw [cprEncodePorts]
  rcases h with hlat | hlon
  · rw [finiteValue_of_nonfinite hlat]
  · rw [finiteValue_of_nonfinite hlon]
    rcases finiteValue_cases lat with ⟨x, -, hx⟩ | ⟨-, hx⟩ <;> rw [hx]

/-! ### The frame of either encoder -/

section
variable {s : State} {df : BitVec 5} {ca : BitVec 3} (hdf : s.df = some df) (hca : s.ca = some ca)
include hdf hca

theorem build_set (address : BitVec 24) (me : BitVec 56) : build s address me =
    .ok (.frame (assemble df ca address me) (frameHex (assemble df ca address me))) := by
  rw [build, hdf, hca, whenSet_some, whenSet_some]

theorem exec_encId_set (address : BitVec 24) (category : BitVec 3) (callsign : Chars)
    (typeCode : BitVec 5) :
    let f := assemble df ca address (identMe typeCode category (callsignBits callsign))
    exec (.encId address category callsign typeCode) s =
      .next (s.after (.ok (.frame f (frameHex f)))) := by
  rw [exec_encId, build_set hdf hca, answer_ok]

section
variable (address : BitVec 24) {ss : BitVec 2} {saf : BitVec 1} {m lat lon : Port Rat}
  {t : BitVec 1} {typeCode : BitVec 5} {p : BitVec 1}

theorem exec_encPos_of_ok {me : BitVec 56}
    (hme : positionMeOf s.num ss saf m lat lon t typeCode p = .ok me) :
    exec (.encPos address ss saf m lat lon t typeCode p) s = .next (s.after (.ok
      (.frame (assemble df ca address me) (frameHex (assemble df ca address me))))) := by
  rw [exec_encPos, hme, hdf, hca, whenSet_some, whenSet_some]
  exact congrArg (answer s) (build_set hdf hca address me)

theorem exec_encPos_of_error
    (hme : positionMeOf s.num ss saf m lat lon t typeCode p = .error .operandRange) :
    exec (.encPos address ss saf m lat lon t typeCode p) s =
      .next (s.after (.raised .operandRange)) := by
  rw [exec_encPos, hme, hdf, hca, whenSet_some, whenSet_some]
  rfl

end

end

theorem hexToBits_frameHex (f : BitVec 112) : hexToBits (frameHex f) = .ok (wireBits f) :=
  hexToBits_hexChars (by simp) (by simp)

/-- The parts of a built frame that do not depend on its format. -/
theorem assemble_spec (df : BitVec 5) (ca : BitVec 3) (address : BitVec 24) (me : BitVec 56) :
    let f := assemble df ca address me
    f.extractLsb' 107 5 = df ∧ f.extractLsb' 104 3 = ca ∧ f.extractLsb' 80 24 = address ∧
      f.extractLsb' 0 24 = crc24 (f.extractLsb' 24 88) ∧
      (frameHex f).length = 28 ∧ hexToBits (frameHex f) = .ok (wireBits f) :=
  ⟨assemble_df df ca address me, assemble_ca df ca address me, assemble_addr df ca address me,
    assemble_crc df ca address me, (frameText_frameHex _).1, hexToBits_frameHex _⟩

section
variable (df : BitVec 5) (ca : BitVec 3) (address : BitVec 24)

/-! ### The identification frame -/

theorem assemble_identMe (tc : BitVec 5) (cat : BitVec 3) (callsign : Chars) :
    let f := assemble df ca address (identMe tc cat (callsignBits callsign))
    f.extractLsb' 75 5 = tc ∧ f.extractLsb' 72 3 = cat ∧
      ∀ i, i < 8 → f.extractLsb' (66 - 6 * i) 6 = callsignCode callsign i := by
  obtain ⟨htc, hcat, hcallsign⟩ := identMe_slices tc cat (callsignBits callsign)
  refine ⟨(assemble_me df ca address _ 51 5 (by omega)).trans htc,
    (assemble_me df ca address _ 48 3 (by omega)).trans hcat, fun i hi => ?_⟩
  rw [← callsignBits_slice callsign i hi, ← hcallsign, extract_extract _ _ _ _ _ (by omega), hcallsign,
    show 66 - 6 * i = 24 + (42 - 6 * i) by omega, assemble_me df ca address _ _ 6 (by omega),
    Nat.zero_add]

/-! ### The position frame -/

theorem assemble_positionMe (tc : BitVec 5) (ss : BitVec 2) (saf : BitVec 1) (a : BitVec 12)
    (t p : BitVec 1) (yz xz : BitVec 17) :
    let f := assemble df ca address (positionMe tc ss saf a t p yz xz)
    f.extractLsb' 75 5 = tc ∧ f.extractLsb' 73 2 = ss ∧ f.extractLsb' 72 1 = saf ∧
      f.extractLsb' 60 12 = a ∧ f.extractLsb' 59 1 = t ∧ f.extractLsb' 58 1 = p ∧
      f.extractLsb' 41 17 = yz ∧ f.extractLsb' 24 17 = xz := by
  obtain ⟨htc, hss, hsaf, ha, ht, hp, hyz, hxz⟩ := positionMe_slices tc ss saf a t p yz xz
  have hslice := assemble_me df ca address (positionMe tc ss saf a t p yz xz)
  exact ⟨(hslice 51 5 (by omega)).trans htc, (hslice 49 2 (by omega)).trans hss,
    (hslice 48 1 (by omega)).trans hsaf, (hslice 36 12 (by omega)).trans ha,
    (hslice 35 1 (by omega)).trans ht, (hslice 34 1 (by omega)).trans hp,
    (hslice 17 17 (by omega)).trans hyz, (hslice 0 17 (by omega)).trans hxz⟩

end

/-! ### ENC.ID -/

theorem decode_encId_tooLong {callsign : Chars} (h : Config.csMax < callsign.length)
    (address : BitVec 24) (category : BitVec 3) (typeCode : BitVec 5) :
    decode (.op 0x32 [.bits 24 address, .bits 3 category, .chars callsign, .bits 5 typeCode]) =
      .error .callsignTooLong :=
  if_neg (not_le.mpr h)

/-- Settles O33: the frame is assembled of its parts (`assemble_spec`, `assemble_identMe`); DF and CA are
tested first, by ENC.ID and by the rejection of a callsign the port does not carry. -/
theorem encIdBuildsTheFrame : Obligations.EncIdBuildsTheFrame := by
  refine ⟨fun _ _ _ _ hfits => if_pos hfits, fun s _ _ _ _ hlong hr => ?_,
    fun s df ca address category callsign typeCode hdf hca => ?_,
    fun s _ _ _ _ h => exec_encId_unset h _ _ _ _⟩
  · exact (step_of_decode_error hr (decode_encId_tooLong hlong _ _ _)).trans
      (rejected_callsignTooLong s)
  · obtain ⟨htc, hcat, hchars⟩ := assemble_identMe df ca address typeCode category callsign
    obtain ⟨hdf', hca', haddr, hcrc, hlength, hbits⟩ := assemble_spec df ca address
      (identMe typeCode category (callsignBits callsign))
    exact ⟨_, _, exec_encId_set hdf hca address category callsign typeCode, hdf', hca', haddr, htc,
      hcat, hchars, hcrc, hlength, hbits⟩

/-! ### ENC.POS -/

theorem positionMeOf_of_ok {num : Numerics} {m : Rat} {a : BitVec 12} (ha : altEncode num m = .ok a)
    (ss : BitVec 2) (saf : BitVec 1) (lat lon : Rat) (t : BitVec 1) (tc : BitVec 5) (p : BitVec 1) :
    positionMeOf num ss saf (.finite m) (.finite lat) (.finite lon) t tc p = .ok (positionMe tc ss
      saf a t p (cprEncode num lat lon p).1 (cprEncode num lat lon p).2) := by
  rw [positionMeOf, finiteValue_finite, cprEncodePorts_finite]
  exact congrArg (Except.map _) ha

theorem positionMeOf_outOfRange {num : Numerics} {m lat lon : Port Rat}
    (h : altOutOfRange num m ∨ (∀ q, lat ≠ .finite q) ∨ (∀ q, lon ≠ .finite q)) (ss : BitVec 2)
    (saf t : BitVec 1) (tc : BitVec 5) (p : BitVec 1) :
    positionMeOf num ss saf m lat lon t tc p = .error .operandRange := by
  rw [positionMeOf]
  rcases h with hm | hcpr
  · rcases altOutOfRange_cases hm with ⟨q, rfl, hq⟩ | hm
    · rw [finiteValue_finite]
      cases hz : cprEncodePorts num lat lon p with
      | ok z => exact congrArg (Except.map _) hq
      | error e => rw [cprEncodePorts_error hz]
    · rw [hm]
  · rw [cprEncodePorts_of_nonfinite hcpr]
    rcases finiteValue_cases m with ⟨q, -, hq⟩ | ⟨-, hq⟩ <;> rw [hq]

theorem exec_cprEnc_finite (lat lon : Rat) (p : BitVec 1) (s : State) :
    exec (.cprEnc (.finite lat) (.finite lon) p) s = .next (s.after (.ok
      (.cpr (cprEncode s.num lat lon p).1 (cprEncode s.num lat lon p).2))) := rfl

theorem exec_encPos_outOfRange {s : State} {address : BitVec 24} {ss : BitVec 2} {saf : BitVec 1}
    {m lat lon : Port Rat} {t : BitVec 1} {tc : BitVec 5} {p : BitVec 1} (hdf : s.df ≠ none)
    (hca : s.ca ≠ none)
    (h : altOutOfRange s.num m ∨ (∀ q, lat ≠ .finite q) ∨ (∀ q, lon ≠ .finite q)) :
    exec (.encPos address ss saf m lat lon t tc p) s =
      .next (s.after (.raised .operandRange)) := by
  obtain ⟨df, hdf⟩ := Option.ne_none_iff_exists'.mp hdf
  obtain ⟨ca, hca⟩ := Option.ne_none_iff_exists'.mp hca
  exact exec_encPos_of_error hdf hca address (positionMeOf_outOfRange h ss saf t tc p)

/-- Settles O34: with an altitude in range the ME is that of the operands (`positionMeOf_of_ok`) and the
frame is assembled of its parts (`assemble_spec`, `assemble_positionMe`); DF and CA are tested first. -/
theorem encPosBuildsTheFrame : Obligations.EncPosBuildsTheFrame := by
  refine ⟨fun _ _ _ _ _ _ _ _ _ => rfl,
    fun s df ca address ss saf m lat lon t typeCode p hdf hca hm => ?_,
    fun s _ _ _ _ _ _ _ _ _ h => exec_encPos_unset h _ _ _ _ _ _ _ _ _,
    fun _ _ _ _ _ _ _ _ _ _ hdf hca h => exec_encPos_outOfRange hdf hca h⟩
  obtain ⟨n, ha, -⟩ := altEncode_accepts hm
  obtain ⟨htc, hss, hsaf, halt, ht, hp, hyz, hxz⟩ := assemble_positionMe df ca address typeCode ss
    saf (altField (altQOf s.num (feet m)) n) t p (cprEncode s.num lat lon p).1
    (cprEncode s.num lat lon p).2
  obtain ⟨hdf', hca', haddr, hcrc, hlength, hbits⟩ := assemble_spec df ca address _
  exact ⟨_, _, _, _, _,
    exec_encPos_of_ok hdf hca address (positionMeOf_of_ok ha ss saf lat lon t typeCode p),
    exec_altEnc_of_ok ha, exec_cprEnc_finite lat lon p s, hdf', hca', haddr, htc, hss, hsaf, halt,
    ht, hp, hyz, hxz, hcrc, hlength, hbits⟩

/-! ### Decoding what was encoded -/

/-- The eight characters of an identification frame are those of the callsign, and spaces. -/
theorem map_callsignCode {callsign : Chars} (hl : callsign.length ≤ 8)
    (h : ∀ c ∈ callsign, alphabetChar c) :
    ((List.range 8).map fun i => sixToChar (callsignCode callsign i)) =
      callsign ++ List.replicate (8 - callsign.length) 32 := by
  apply List.ext_getElem
  · simp
    omega
  intro i hi _
  rw [List.getElem_map, List.getElem_range, callsignCode]
  by_cases hc : i < callsign.length
  · rw [List.getElem_append_left hc, List.getElem?_eq_getElem hc]
    exact sixToChar_charToSix_of_alphabet (h _ (List.getElem_mem hc))
  · rw [List.getElem_append_right (not_lt.mp hc), List.getElem_replicate,
      List.getElem?_eq_none (not_lt.mp hc)]
    rfl

theorem framePrefix_assemble {df : BitVec 5} {ca : BitVec 3} {address : BitVec 24} {me : BitVec 56}
    {tc : BitVec 5} (htc : frameTypeCode (assemble df ca address me) = tc) :
    framePrefix (assemble df ca address me) = ⟨df, ca, address, tc⟩ := by
  rw [framePrefix, assemble_df, assemble_ca, assemble_addr, htc]

theorem identReport_assemble (df : BitVec 5) (ca : BitVec 3) (address : BitVec 24) (tc : BitVec 5)
    (cat : BitVec 3) {callsign : Chars} (hl : callsign.length ≤ 8)
    (h : ∀ c ∈ callsign, alphabetChar c) :
    identReport (assemble df ca address (identMe tc cat (callsignBits callsign))) =
      .ident ⟨df, ca, address, tc⟩
        ⟨cat, callsign ++ List.replicate (8 - callsign.length) 32⟩ := by
  obtain ⟨htc, hcat, hchars⟩ := assemble_identMe df ca address tc cat callsign
  have hcallsign : frameCallsign (assemble df ca address (identMe tc cat (callsignBits callsign))) =
      callsign ++ List.replicate (8 - callsign.length) 32 :=
    (List.map_congr_left fun i hi => congrArg sixToChar (hchars i (List.mem_range.mp hi))).trans
      (map_callsignCode hl h)
  rw [identReport, framePrefix_assemble htc, hcallsign]
  exact congrArg (fun c => Result.ident _ ⟨c, _⟩) hcat

/-- DEC of a built frame's text accepts it in the format of its type code: its CRC is right. -/
theorem exec_dec_assemble {df : BitVec 5} {ca : BitVec 3} {address : BitVec 24} {me : BitVec 56}
    {tc : BitVec 5} (htc : frameTypeCode (assemble df ca address me) = tc) (s : State) :
    exec (.dec (frameHex (assemble df ca address me))) s =
      commit s (.ok (acceptFrame (payloadKind tc) (assemble df ca address me) s)) := by
  rw [exec_dec_frameHex rfl, receiveFrame_valid _ s (assemble_passes df ca address me), htc]

/-- Settles O35: the encoded frame passes the CRC, DEC accepts it in the format of its type code
(`exec_dec_assemble`), and its slices are the operands (`identReport_assemble`, `assemble_positionMe`);
the altitude it holds decodes to within a step (`altEncode_roundTrip`). -/
theorem encodedFramesDecode : Obligations.EncodedFramesDecode := by
  refine ⟨fun s df ca address category callsign typeCode hdf hca hlo hhi hl hchars => ?_,
    fun s df ca address ss saf m lat lon t typeCode p hdf hca hkind hm => ?_⟩
  · obtain ⟨htc, -, -⟩ := assemble_identMe df ca address typeCode category callsign
    refine ⟨_, _, exec_encId_set hdf hca address category callsign typeCode, ?_⟩
    rw [exec_dec_assemble htc, payloadKind_ident ⟨hlo, hhi⟩, acceptFrame, commit_ok,
      identReport_assemble df ca address typeCode category hl hchars]
  · obtain ⟨n, ha, -⟩ := altEncode_accepts hm
    have hme := positionMeOf_of_ok ha ss saf lat lon t typeCode p
    set a := altField (altQOf s.num (feet m)) n
    set z := cprEncode s.num lat lon p
    obtain ⟨htc, hss, hsaf, halt, ht, hp, hyz, hxz⟩ :=
      assemble_positionMe df ca address typeCode ss saf a t p z.1 z.2
    set f := assemble df ca address (positionMe typeCode ss saf a t p z.1 z.2)
    have hdec := exec_dec_assemble htc s
    rw [payloadKind_position hkind, acceptFrame, commit_ok] at hdec
    have hcpr : exec (.cprEnc (.finite lat) (.finite lon) p) s =
        .next (s.after (.ok (.cpr (frameYz f) (frameXz f)))) := by
      rw [exec_cprEnc_finite, frameYz, frameXz, hyz, hxz]
    obtain ⟨hq, hle, hlt⟩ := altEncode_roundTrip (ha.trans (congrArg Except.ok halt.symm))
    exact ⟨f, _, _, _, exec_encPos_of_ok hdf hca address hme, hdec,
      congrArg (fun q => some (Response.ok (.position q _))) (framePrefix_assemble htc), hss, hsaf,
      ht, hp, hcpr, hq, hle, hlt⟩

end Sys2Proof.Machine
end

section
/-! CHAN, DEMOD and XMIT by their operands, once the registers they read are set (44_phy_channel R186,
R193, R196; 60_exceptions R241). -/

namespace Sys2Proof.Machine

theorem samples_of_nonfinite {signal : List (Port ExactReal)}
    (h : ∃ p ∈ signal, ∀ q, p ≠ .finite q) : samples signal = .error .operandRange := by
  rcases samples_cases signal with ⟨x, rfl, -⟩ | ⟨-, he⟩
  · obtain ⟨p, hp, hne⟩ := h
    obtain ⟨q, -, rfl⟩ := List.mem_map.mp hp
    exact absurd rfl (hne q)
  · exact he

/-! ### DEMOD -/

section
variable {s : State} {fc : Rat} {sps : Sps} (hfc : s.fc = some fc) (hsps : s.sps = some sps)
include hfc hsps

theorem exec_demod_of_fits {r : List ExactReal} (hmod : r.length % sps.count = 0)
    (hlen : r.length / sps.count ≤ Config.nbitsMax) : exec (.demod (r.map .finite)) s =
      .next (s.after (.ok (.bits (demodulate s.num fc sps.count r [r] [r])))) := by
  have hfits : ¬ (r.length % sps.count ≠ 0 ∨ Config.nbitsMax < r.length / sps.count) := by omega
  simp only [exec_demod, hfc, hsps, whenSet_some, samples_finite, if_neg hfits, answer_ok]

theorem exec_demod_nonfinite {signal : List (Port ExactReal)}
    (h : ∃ p ∈ signal, ∀ q, p ≠ .finite q) :
    exec (.demod signal) s = .next (s.after (.raised .operandRange)) := by
  rw [exec_demod, hfc, hsps, samples_of_nonfinite h]
  rfl

theorem exec_demod_length {r : List ExactReal}
    (h : r.length % sps.count ≠ 0 ∨ Config.nbitsMax < r.length / sps.count) :
    exec (.demod (r.map .finite)) s = .next (s.after (.raised .operandRange)) := by
  simp only [exec_demod, hfc, hsps, whenSet_some, samples_finite, if_pos h, answer_error]
  rfl

/-- A sample that is not finite, or a length that is no whole number of windows or too great. -/
theorem exec_demod_outOfRange {signal : List (Port ExactReal)}
    (h : (∃ p ∈ signal, ∀ q, p ≠ .finite q) ∨ signal.length % sps.count ≠ 0 ∨
      Config.nbitsMax < signal.length / sps.count) :
    exec (.demod signal) s = .next (s.after (.raised .operandRange)) := by
  rcases samples_cases signal with ⟨r, rfl, -⟩ | ⟨hbad, -⟩
  · rcases h with hbad | hlen
    · exact exec_demod_nonfinite hfc hsps hbad
    · rw [List.length_map] at hlen
      exact exec_demod_length hfc hsps hlen
  · exact exec_demod_nonfinite hfc hsps hbad

end

/-! ### CHAN -/

section
variable {s : State} {snr : Rat} {fam : Fading} {rng : Rng} (hsnr : s.snrDb = some snr)
  (hfading : s.fading = some fam) (hrng : s.rng = some rng)
include hsnr hfading hrng

theorem exec_chan_set (x : List ExactReal) :
    exec (.chan (x.map .finite)) s = commit s (chanWith s snr fam rng x) := by
  rw [exec_chan, hsnr, hfading, hrng, samples_finite]
  rfl

theorem exec_chan_nonfinite {signal : List (Port ExactReal)}
    (h : ∃ p ∈ signal, ∀ q, p ≠ .finite q) :
    exec (.chan signal) s = .next (s.after (.raised .operandRange)) := by
  rw [exec_chan, hsnr, hfading, hrng, samples_of_nonfinite h]
  rfl

/-- CHAN of a signal whose fading magnitudes are not 0 adds the noise and draws three times its
length. -/
theorem exec_chan_of_noise {x w : List ExactReal}
    (h : channelNoise (drawAt s.noise rng.seed) rng.n snr fam x = .ok w) :
    exec (.chan (x.map .finite)) s =
      .next ((s.drawn rng (3 * x.length)).after (.ok (.signal (received x w)))) := by
  rw [exec_chan_set hsnr hfading hrng, chanWith, channel, h]
  rfl

theorem exec_chan_divZero {x : List ExactReal}
    (h : channelNoise (drawAt s.noise rng.seed) rng.n snr fam x = .error .divZero) :
    exec (.chan (x.map .finite)) s = .next (s.after (.raised .divZero)) := by
  rw [exec_chan_set hsnr hfading hrng, chanWith, channel, h]
  rfl

end

/-- Settles O58: the channel adds nothing to the empty signal, and drawing nothing leaves RNG. -/
theorem channelOfEmptySignal : Obligations.ChannelOfEmptySignal := by
  intro s snr fam rng hsnr hfading hrng
  have hdrawn : s.drawn rng 0 = s := by rw [State.drawn, Nat.add_zero, ← hrng]
  have hchan := exec_chan_of_noise hsnr hfading hrng (x := []) (w := []) rfl
  rwa [List.length_nil, Nat.mul_zero, hdrawn] at hchan

/-! ### XMIT -/

section
variable {s : State} {fc : Rat} {sps : Sps} {snr : Rat} {fam : Fading} {rng : Rng}
  (hfc : s.fc = some fc) (hsps : s.sps = some sps) (hsnr : s.snrDb = some snr)
  (hfading : s.fading = some fam) (hrng : s.rng = some rng)
include hfc hsps hsnr hfading hrng

theorem exec_xmit_set {str : Chars} {v : Bits} (hv : frameString str = .ok v) :
    exec (.xmit str) s = commit s (xmitWith s fc sps snr fam rng v) := by
  rw [exec_xmit, hv, hfc, hsps, hsnr, hfading, hrng]
  rfl

/-- XMIT of a frame whose fading magnitudes are not 0 demodulates the modulated frame with the noise
added, and draws three times its length. -/
theorem exec_xmit_of_noise {str : Chars} {v : Bits} {x w : List ExactReal}
    (hv : frameString str = .ok v) (hx : modulate fc sps.count v = x)
    (h : channelNoise (drawAt s.noise rng.seed) rng.n snr fam x = .ok w) :
    exec (.xmit str) s = .next ((s.drawn rng (3 * x.length)).after (.ok (.hex (hexChars
      (demodulate s.num fc sps.count (received x w) [x, w]
        (linkSources (drawAt s.noise rng.seed) rng.n snr fam x)))))) := by
  rw [exec_xmit_set hfc hsps hsnr hfading hrng hv, xmitWith, hx, h]
  rfl

theorem exec_xmit_divZero {str : Chars} {v : Bits} (hv : frameString str = .ok v)
    (h : channelNoise (drawAt s.noise rng.seed) rng.n snr fam (modulate fc sps.count v) =
      .error .divZero) : exec (.xmit str) s = .next (s.after (.raised .divZero)) := by
  rw [exec_xmit_set hfc hsps hsnr hfading hrng hv, xmitWith, h]
  rfl

end

end Sys2Proof.Machine
end

section
/-! OPERAND_RANGE: an operand outside its domain ends the operation and changes no state (60_exceptions
R236). -/

namespace Sys2Proof.Machine

/-- No value is legal for a register that is not there. -/
theorem legalValue_reg_le {reg : BitVec 4} {v : Port Rat} (h : legalValue reg v) :
    reg.toNat ≤ 5 := by
  cases v with
  | finite q =>
    rcases h with ⟨rfl, -⟩ | ⟨rfl, -⟩ | ⟨rfl, -⟩ | rfl | ⟨rfl, -⟩ | ⟨rfl, -⟩
    all_goals decide
  | _ => exact h.elim

theorem exec_cprNl_nonfinite {lat : Port Rat} (h : ∀ q, lat ≠ .finite q) (s : State) :
    exec (.cprNl lat) s = .next (s.after (.raised .operandRange)) := by
  rw [exec_cprNl, finiteValue_of_nonfinite h]
  rfl

theorem exec_cprEnc_nonfinite {lat lon : Port Rat}
    (h : (∀ q, lat ≠ .finite q) ∨ (∀ q, lon ≠ .finite q)) (p : BitVec 1) (s : State) :
    exec (.cprEnc lat lon p) s = .next (s.after (.raised .operandRange)) := by
  rw [exec_cprEnc, cprEncodePorts_of_nonfinite h]
  rfl

/-- Settles O20: the refusals of the operations, one by one. -/
theorem outOfRangeOperandsAreRefused : Obligations.OutOfRangeOperandsAreRefused := by
  refine ⟨fun s reg v h => ?_, fun s _ h => exec_cfgRd_outOfRange s h,
    fun _ _ h => exec_histRd_outOfRange h, fun s _ h => exec_bit2hex_outOfRange h s,
    fun _ _ h => exec_altEnc_outOfRange h,
    fun _ _ _ _ _ _ _ _ _ _ hdf hca h => exec_encPos_outOfRange hdf hca h,
    fun s _ h => exec_cprNl_nonfinite h s, fun s _ _ p h => exec_cprEnc_nonfinite h p s,
    fun _ _ hfc hsps h => exec_mod_outOfRange hfc hsps h, fun s x hsnr hfading hrng h => ?_,
    fun s x sps hfc hsps h => ?_⟩
  · refine exec_cfgWr_illegal (fun hlegal => ?_) s
    exact h.elim (fun hreg => absurd (legalValue_reg_le hlegal) (not_le.mpr hreg))
      fun hillegal => hillegal hlegal
  · obtain ⟨snr, hsnr⟩ := Option.ne_none_iff_exists'.mp hsnr
    obtain ⟨fam, hfading⟩ := Option.ne_none_iff_exists'.mp hfading
    obtain ⟨rng, hrng⟩ := Option.ne_none_iff_exists'.mp hrng
    exact exec_chan_nonfinite hsnr hfading hrng h
  · obtain ⟨fc, hfc⟩ := Option.ne_none_iff_exists'.mp hfc
    exact exec_demod_outOfRange hfc hsps h

end Sys2Proof.Machine
end

section
/-! CPR.NL: the zone count and its table (43_cpr R150 to R153). -/

namespace Sys2Proof.Machine

theorem exec_cprNl_finite (lat : Rat) (s : State) : exec (.cprNl (.finite lat)) s =
    .next (s.after (.ok (.nl (calculateNL s.num [] lat)))) := rfl

/-! ### The table -/

/-- The transitions grow down the table. -/
theorem transitions_sorted : transitions.Pairwise fun e e' => e.2 ≤ e'.2 := by decide

theorem transitions_range : ∀ e ∈ transitions, 104704713000 ≤ e.2 ∧ e.2 ≤ 865353699751 := by decide

theorem transitions_counts : transitions.map Prod.fst = (List.range 57).map fun k => 59 - k := by
  decide

theorem transitions_count {k n t : Nat} (h : transitions[k]? = some (n, t)) : n = 59 - k := by
  have hfst : (transitions.map Prod.fst)[k]? = some n := by rw [List.getElem?_map, h]; rfl
  rw [transitions_counts, List.getElem?_map, Option.map_eq_some_iff] at hfst
  obtain ⟨j, hj, rfl⟩ := hfst
  rw [List.getElem?_eq_some_iff] at hj
  obtain ⟨_, rfl⟩ := hj
  rw [List.getElem_range]

section
variable {last : Nat} {o : List Rat} {x : Rat}

/-- Up to the first transition the count is 59. -/
theorem zoneCount_first (h : x ≤ 104704713000 / 10 ^ 10 - 1 / 10 ^ 9) :
    zoneCount last o transitions x = 59 :=
  zoneCount_within (t := 104704713000) (by exact_mod_cast h)

/-- Between two neighbouring transitions the count is that of the second. -/
theorem zoneCount_between {k n n' t u : Nat} (hu : transitions[k]? = some (n', u))
    (ht : transitions[k + 1]? = some (n, t)) (hlo : (u : Rat) / 10 ^ 10 + 1 / 10 ^ 9 ≤ x)
    (hhi : x ≤ (t : Rat) / 10 ^ 10 - 1 / 10 ^ 9) : zoneCount last o transitions x = n := by
  obtain ⟨hk, hu⟩ := List.getElem?_eq_some_iff.mp hu
  obtain ⟨hk', ht⟩ := List.getElem?_eq_some_iff.mp ht
  have hbelow : ∀ e ∈ transitions.take (k + 1), (e.2 : Rat) / 10 ^ 10 + 1 / 10 ^ 9 ≤ x := by
    intro e he
    obtain ⟨j, hj, rfl⟩ := List.getElem_of_mem he
    rw [List.length_take] at hj
    have hle : (transitions.take (k + 1))[j].2 ≤ u := by
      rw [List.getElem_take]
      rcases Nat.lt_or_ge j k with hlt | hge
      · have := List.pairwise_iff_getElem.mp transitions_sorted j k (by omega) hk hlt
        rwa [hu] at this
      · obtain rfl : j = k := by omega
        rw [hu]
    have hle' : ((transitions.take (k + 1))[j].2 : Rat) ≤ u := by exact_mod_cast hle
    linarith
  have hsplit : transitions = transitions.take (k + 1) ++ (n, t) :: transitions.drop (k + 2) := by
    rw [← ht, ← List.drop_eq_getElem_cons hk', List.take_append_drop]
  rw [hsplit, zoneCount_skip hbelow, zoneCount_within hhi]

/-- Past the last transition the table is used up. -/
theorem zoneCount_last (h : 865353699751 / 10 ^ 10 + 1 / 10 ^ 9 ≤ x) :
    zoneCount last o transitions x = last := by
  have hall : ∀ e ∈ transitions, (e.2 : Rat) / 10 ^ 10 + 1 / 10 ^ 9 ≤ x := by
    intro e he
    have hle : (e.2 : Rat) ≤ 865353699751 := by exact_mod_cast (transitions_range e he).2
    linarith
  rw [← List.append_nil transitions, zoneCount_skip hall, zoneCount]

end

/-! ### The count of a latitude -/

theorem equatorBand_eq : equatorBand = 1 / 10 ^ 4 := rfl

theorem slack_equatorBand_le (num : Numerics) {x : Rat} (h : 1 ≤ x) : num.slack equatorBand ≤ x := by
  cases num
  · rw [Numerics.slack_exact]; linarith
  · rw [Numerics.slack_rounded, equatorBand_eq]; linarith

section
variable {num : Numerics} {l : List Rat} {lat : Rat}

/-- Near the first transition or below it, the count is 59, or 60 where it is rounded up. -/
theorem calculateNL_near (h : |lat| ≤ 104704713000 / 10 ^ 10 - 1 / 10 ^ 9) :
    calculateNL num l lat = 59 ∨ calculateNL num l lat = 60 := by
  rw [calculateNL, ratAbs_eq, zoneCount_first h, ite_self]
  split
  · exact .inr rfl
  · exact .inl rfl

theorem calculateNL_le (h : num.slack equatorBand ≤ |lat|) : calculateNL num l lat ≤ 59 := by
  rcases calculateNL_cases num l lat with ⟨hup, -⟩ | ⟨-, hle⟩
  · rw [equatorRoundsUp_far h] at hup
    cases hup
  · exact hle

theorem calculateNL_of_pos (h : 1 ≤ |lat|) : calculateNL num l lat =
    zoneCount (polarCount num (num.origin l) |lat|) (num.origin l) transitions |lat| := by
  rw [calculateNL_far (slack_equatorBand_le num h), if_neg]
  rintro rfl
  norm_num at h

/-- Past the last transition the count is 2 or 1, as 87 degrees says. -/
theorem calculateNL_polar (h : 865353699751 / 10 ^ 10 + 1 / 10 ^ 9 ≤ |lat|) :
    calculateNL num l lat = polarCount num (num.origin l) |lat| := by
  rw [calculateNL_of_pos (by linarith), zoneCount_last h]

end

/-- Settles O43: the count is even (`calculateNL_neg`) and in its bounds (`calculateNL_cases`); near 0 it
is 59 or rounded up (`calculateNL_near`), and past the table 87 degrees decides (`calculateNL_polar`). -/
theorem zoneCountProperties : Obligations.ZoneCountProperties := by
  refine ⟨fun _ => rfl, fun s lat => ⟨calculateNL s.num [] lat, exec_cprNl_finite lat s, ?_,
    (calculateNL_bounds _ _ _).1, (calculateNL_bounds _ _ _).2, calculateNL_le, ?_, ?_, ?_, ?_, ?_⟩⟩
  · rw [exec_cprNl_finite, calculateNL_neg]
  · rintro hnum rfl
    rw [hnum, calculateNL_far (by simp), if_pos rfl]
  · intro hnear
    rw [equatorBand_eq] at hnear
    exact calculateNL_near (by linarith)
  · intro hnum h87
    rw [calculateNL_polar (by linarith), hnum]
    exact polarCount_below (by rw [Numerics.slack_exact, h87, sub_zero])
  · intro h87
    have hpolar := polarCount_bounds s.num (s.num.origin []) |lat|
    rw [calculateNL_polar (by linarith)]
    omega
  · intro h87 hslack
    rw [calculateNL_polar (by linarith)]
    exact polarCount_above hslack h87

/-- Settles O44: the table is searched from its first entry (`zoneCount_first`, `zoneCount_between`,
`calculateNL_polar`), and its entries stand for 59 down to 3 (`transitions_count`). -/
theorem zoneCountFollowsTheTable : Obligations.ZoneCountFollowsTheTable := by
  refine ⟨fun s lat hlo hhi => ?_, fun s lat k n t u hu ht hlo hhi => ?_, fun s lat hlo hhi => ?_,
    fun _ _ _ h => transitions_count h, rfl⟩
  · rw [exec_cprNl_finite, calculateNL_far hlo, zoneCount_first hhi, ite_self]
  · have hmem := (transitions_range _ (List.mem_of_getElem? hu)).1
    have hu' : (104704713000 : Rat) ≤ u := by exact_mod_cast hmem
    rw [exec_cprNl_finite, calculateNL_of_pos (by linarith), zoneCount_between hu ht hlo hhi]
  · rw [exec_cprNl_finite, calculateNL_polar hlo, polarCount_below hhi]

end Sys2Proof.Machine
end

section
/-! CPR.ENC and CPR.PAIR by their formulas (43_cpr R154 to R157, R161 to R167). -/

namespace Sys2Proof.Machine

/-- Settles O45: each integer is the low 17 bits of a floor of the arithmetic of the build
(`cprInteger_isFloor`), at the zone sizes of the encoder. -/
theorem cprEncFollowsTheFormulas : Obligations.CprEncFollowsTheFormulas := by
  refine ⟨fun _ _ _ => rfl, fun s lat lon p => ?_, fun s _ _ p h => exec_cprEnc_nonfinite h p s⟩
  obtain ⟨yzRaw, hyz, hyzMod⟩ :=
    cprInteger_isFloor s.num .cprLat [lat, p.toNat] lat (dLat p)
  obtain ⟨xzRaw, hxz, hxzMod⟩ :=
    cprInteger_isFloor s.num .cprLon [lon, lonZones s.num lat p] (if lon < 0 then lon + 360 else lon)
      (dLonEnc s.num lat p)
  exact ⟨_, _, yzRaw, xzRaw, exec_cprEnc_finite lat lon p s, hyz, hxz, hyzMod, hxzMod⟩

/-! ### CPR.PAIR -/

theorem exec_cprPair_next (yzE xzE : BitVec 17) (tE : BitVec 1) (yzO xzO : BitVec 17) (tO : BitVec 1)
    (s : State) : exec (.cprPair yzE xzE tE yzO xzO tO) s =
      .next (s.after (.ok (.resolved (resolvePair s.num yzE xzE tE yzO xzO tO)))) := rfl

section
variable (num : Numerics) (yzE xzE yzO xzO : BitVec 17)

/-- The zone count of the even report's latitude. -/
def pairNlEven : Nat := calculateNL num (latOperands num 60 yzE yzO yzE) (latEven num yzE yzO)

/-- The zone count of the odd report's latitude. -/
def pairNlOdd : Nat := calculateNL num (latOperands num 59 yzE yzO yzO) (latOdd num yzE yzO)

/-- The number of longitude zones of the even report (43_cpr R166). -/
def pairZonesEven : Nat := max (pairNlEven num yzE yzO) 1

/-- The number of longitude zones of the odd report (43_cpr R166). -/
def pairZonesOdd : Nat :=
  max (calculateNL num (latOperands num 59 yzE yzO yzO ++ [1]) (latOdd num yzE yzO - 1)) 1

/-- The longitude of `n` zones at index `m`, 360 subtracted from 180 up (43_cpr R167). -/
def pairLon (n : Nat) (m : Int) (xz : BitVec 17) : Rat :=
  normalize num .longitude [n, m, rawFraction xz] 180 (lonInZone n m xz)

/-- CPR.PAIR by the zone counts of the two latitudes and the selected report. -/
theorem resolvePair_eq (tE tO : BitVec 1) : resolvePair num yzE xzE tE yzO xzO tO =
    if pairNlEven num yzE yzO ≠ pairNlOdd num yzE yzO then none
    else if tO ≤ tE then some (latEven num yzE yzO, pairLon num (pairZonesEven num yzE yzO)
      (lonIndex num (pairNlEven num yzE yzO) xzE xzO) xzE)
    else some (latOdd num yzE yzO, pairLon num (pairZonesOdd num yzE yzO)
      (lonIndex num (pairNlOdd num yzE yzO) xzE xzO) xzO) := rfl

end

/-- All a resolved position can be: the even report's or the odd report's. -/
theorem resolvePair_some {num : Numerics} {yzE xzE yzO xzO : BitVec 17} {tE tO : BitVec 1}
    {lat lon : Rat} (h : resolvePair num yzE xzE tE yzO xzO tO = some (lat, lon)) :
    (tO ≤ tE ∧ lat = latEven num yzE yzO ∧ lon = pairLon num (pairZonesEven num yzE yzO)
      (lonIndex num (pairNlEven num yzE yzO) xzE xzO) xzE) ∨
    (¬ tO ≤ tE ∧ lat = latOdd num yzE yzO ∧ lon = pairLon num (pairZonesOdd num yzE yzO)
      (lonIndex num (pairNlOdd num yzE yzO) xzE xzO) xzO) := by
  rw [resolvePair_eq] at h
  split at h
  · cases h
  · split at h
    · cases h; exact .inl ⟨‹_›, rfl, rfl⟩
    · cases h; exact .inr ⟨‹_›, rfl, rfl⟩

/-- The longitude of the selected report: its index is a floor, and the subtraction of a turn a
comparison, of the arithmetic of the build. -/
theorem pairLon_spec (num : Numerics) (nl n : Nat) (xzE xzO xz : BitVec 17) : ∃ (m : Int) (b : Bool),
    num.IsFloor (rawFraction xzE * ((nl : Rat) - 1) - rawFraction xzO * nl + 1 / 2)
      (roundingDistance 120) m ∧
    num.Reaches (lonInZone n m xz) 180 (roundingDistance 360) (b = true) ∧
    pairLon num n (lonIndex num nl xzE xzO) xz =
      if b then lonInZone n m xz - 360 else lonInZone n m xz := by
  obtain ⟨b, hreaches, hlon⟩ := normalize_cases num .longitude
    [n, lonIndex num nl xzE xzO, rawFraction xz] 180 (lonInZone n (lonIndex num nl xzE xzO) xz)
  exact ⟨lonIndex num nl xzE xzO, b, lonIndex_isFloor num nl xzE xzO, hreaches, hlon⟩

/-- Settles O46: the resolver's own floors and comparisons are those of the arithmetic of the build
(`zoneIndex_isFloor`, `lonIndex_isFloor`, `normalize_cases`); the selected report decides which latitude
and which zones the longitude is computed with. -/
theorem cprPairFollowsTheAlgorithm : Obligations.CprPairFollowsTheAlgorithm := by
  refine ⟨fun _ _ _ _ _ _ => rfl, fun s yzE xzE tE yzO xzO tO => ?_⟩
  intro latE lonE latO lonO
  obtain ⟨evenOver, hevenOver, hlatEven⟩ := normalize_cases s.num .latEven
    (latOperands s.num 60 yzE yzO yzE) 270
    (360 / 60 * (((zoneIndex s.num yzE yzO % 60 : Int) : Rat) + rawFraction yzE))
  obtain ⟨oddOver, hoddOver, hlatOdd⟩ := normalize_cases s.num .latOdd
    (latOperands s.num 59 yzE yzO yzO) 270
    (360 / 59 * (((zoneIndex s.num yzE yzO % 59 : Int) : Rat) + rawFraction yzO))
  change latEven s.num yzE yzO = _ at hlatEven
  change latOdd s.num yzE yzO = _ at hlatOdd
  have hpair := exec_cprPair_next yzE xzE tE yzO xzO tO s
  rw [resolvePair_eq] at hpair
  by_cases ht : tO ≤ tE
  · obtain ⟨m, lonOver, hfloor, hlonOver, hlon⟩ := pairLon_spec s.num (pairNlEven s.num yzE yzO)
      (pairZonesEven s.num yzE yzO) xzE xzO xzE
    rw [if_pos ht, hlon] at hpair
    rw [pairZonesEven] at hpair hlonOver
    rw [pairNlEven, hlatEven] at hpair hlonOver hfloor
    rw [pairNlOdd, hlatOdd] at hpair
    refine ⟨zoneIndex s.num yzE yzO, m, evenOver, oddOver, lonOver, ?_⟩
    simp only [if_pos (show tO.toNat ≤ tE.toNat from ht)]
    exact ⟨zoneIndex_isFloor s.num yzE yzO, hevenOver, hoddOver, hfloor, hlonOver, hpair⟩
  · obtain ⟨m, lonOver, hfloor, hlonOver, hlon⟩ := pairLon_spec s.num (pairNlOdd s.num yzE yzO)
      (pairZonesOdd s.num yzE yzO) xzE xzO xzO
    rw [if_neg ht, hlon] at hpair
    rw [pairZonesOdd] at hpair hlonOver
    rw [pairNlEven, hlatEven] at hpair
    rw [pairNlOdd] at hpair hfloor
    rw [hlatOdd] at hpair hlonOver hfloor
    refine ⟨zoneIndex s.num yzE yzO, m, evenOver, oddOver, lonOver, ?_⟩
    simp only [if_neg (show ¬ tO.toNat ≤ tE.toNat from ht)]
    exact ⟨zoneIndex_isFloor s.num yzE yzO, hevenOver, hoddOver, hfloor, hlonOver, hpair⟩

/-! ### The ranges of a resolved position -/

/-- A number of the full turn, less a turn from the limit up, lies within a turn below the limit. -/
theorem normalize_range (num : Numerics) (p : Place) (l : List Rat) {limit low x : Rat}
    (h0 : 0 ≤ x) (h360 : x < 360) (hlo : low ≤ 0) (hhi : 0 ≤ limit) (hturn : low + 360 = limit) :
    let e := num.slack (roundingDistance 360)
    normalize num p l limit x < limit + e ∧ low - e ≤ normalize num p l limit x := by
  intro e
  have he : 0 ≤ e := num.slack_nonneg (roundingDistance_nonneg 360)
  obtain ⟨past, hreaches, hx⟩ := normalize_cases num p l limit x
  obtain ⟨hpast, hbelow⟩ := hreaches.bounds
  rw [hx]
  cases past with
  | true =>
    have := hpast rfl
    constructor <;> simp only [if_true] <;> linarith
  | false =>
    have := hbelow Bool.false_ne_true
    constructor <;> simp only [Bool.false_eq_true, if_false] <;> linarith

/-- A place within `n` zones is a number of the full turn. -/
theorem zone_turn {n : Nat} (hn : 0 < n) (m : Int) (z : BitVec 17) :
    0 ≤ 360 / (n : Rat) * (((m % (n : Int) : Int) : Rat) + rawFraction z) ∧
      360 / (n : Rat) * (((m % (n : Int) : Int) : Rat) + rawFraction z) < 360 := by
  obtain ⟨h0, h1⟩ := zone_range n hn m z
  rw [div_mul_eq_mul_div, mul_div_assoc]
  constructor <;> linarith

theorem latEven_range (num : Numerics) (yzE yzO : BitVec 17) :
    let e := num.slack (roundingDistance 360)
    latEven num yzE yzO < 270 + e ∧ -90 - e ≤ latEven num yzE yzO := by
  obtain ⟨h0, h360⟩ := zone_turn (n := 60) (by norm_num) (zoneIndex num yzE yzO) yzE
  exact normalize_range num .latEven (latOperands num 60 yzE yzO yzE) h0 h360
    (by norm_num) (by norm_num) (by norm_num)

theorem latOdd_range (num : Numerics) (yzE yzO : BitVec 17) :
    let e := num.slack (roundingDistance 360)
    latOdd num yzE yzO < 270 + e ∧ -90 - e ≤ latOdd num yzE yzO := by
  obtain ⟨h0, h360⟩ := zone_turn (n := 59) (by norm_num) (zoneIndex num yzE yzO) yzO
  exact normalize_range num .latOdd (latOperands num 59 yzE yzO yzO) h0 h360
    (by norm_num) (by norm_num) (by norm_num)

theorem pairLon_range (num : Numerics) {n : Nat} (hn : 0 < n) (m : Int) (xz : BitVec 17) :
    let e := num.slack (roundingDistance 360)
    pairLon num n m xz < 180 + e ∧ -180 - e ≤ pairLon num n m xz := by
  obtain ⟨h0, h360⟩ := zone_turn hn m xz
  exact normalize_range num .longitude [n, m, rawFraction xz] h0 h360
    (by norm_num) (by norm_num) (by norm_num)

/-- Settles O47: either report's latitude and longitude are numbers of the full turn, normalised
(`normalize_range`). -/
theorem resolvedPositionRanges : Obligations.ResolvedPositionRanges := by
  intro s t yzE xzE tE yzO xzO tO lat lon hexec hresponse
  rw [exec_cprPair_next] at hexec
  cases hexec
  have hpair : resolvePair s.num yzE xzE tE yzO xzO tO = some (lat, lon) := by
    simpa using hresponse
  rcases resolvePair_some hpair with ⟨-, rfl, rfl⟩ | ⟨-, rfl, rfl⟩
  · obtain ⟨hlat, hlat'⟩ := latEven_range s.num yzE yzO
    exact ⟨hlat, hlat', pairLon_range s.num (lt_max_of_lt_right one_pos) _ _⟩
  · obtain ⟨hlat, hlat'⟩ := latOdd_range s.num yzE yzO
    exact ⟨hlat, hlat', pairLon_range s.num (lt_max_of_lt_right one_pos) _ _⟩

end Sys2Proof.Machine
end

section
/-! Two reports of one position give it back, in the reference arithmetic (43_cpr R169). -/

namespace Sys2Proof.Machine

/-! ### One coordinate in two zonings -/

/-- The CPR integer of a coordinate `x` in `n` zones: the coordinate in zones, less a whole number of
them, to half a unit. -/
theorem rawFraction_in_zones (p : Place) (l : List Rat) (x : Rat) {n : Nat} (hn : 0 < n) :
    ∃ (i : Int) (e : Rat), rawFraction (cprInteger .exact p l x (360 / n)) = n * (x / 360) - i + e ∧
      |e| ≤ 1 / 262144 := by
  have hn' : (0 : Rat) < n := by exact_mod_cast hn
  obtain ⟨w, e, h, he⟩ := rawFraction_cprInteger (x := x) p l (d := 360 / n) (by positivity)
  refine ⟨⌊x / (360 / n)⌋ + w, e, ?_, he⟩
  rw [h]
  congr 2
  field_simp

/-- From the fractions of a turn `t` in `b = a + 1` and in `a` zones, to half a unit each, the index is
the whole zones taken off: those of `b` zones modulo `b`, those of `a` zones modulo `a`. -/
theorem floor_pair_index {a b : Nat} (hb : b = a + 1) (ha : a ≤ 60) {t f g e e' : Rat} {i i' : Int}
    (hf : f = b * t - i + e) (hg : g = a * t - i' + e') (he : |e| ≤ 1 / 262144)
    (he' : |e'| ≤ 1 / 262144) : ⌊f * a - g * b + 1 / 2⌋ = b * i' - a * i := by
  have ha' : (a : Rat) ≤ 60 := by exact_mod_cast ha
  have ha0 : (0 : Rat) ≤ a := Nat.cast_nonneg a
  obtain ⟨h1, h2⟩ := abs_le.mp he
  obtain ⟨h1', h2'⟩ := abs_le.mp he'
  subst hb
  rw [Int.floor_eq_iff]
  push_cast at hf ⊢
  subst hf hg
  constructor <;> nlinarith

/-- The index modulo the zones, with the fraction, is the coordinate again, to half a unit and up to
whole turns. -/
theorem zone_recovers {n : Nat} (hn : 0 < n) {m i : Int} (hm : (n : Int) ∣ m - i) {x f e : Rat}
    (hf : f = n * (x / 360) - i + e) :
    ∃ k : Int, 360 / (n : Rat) * (((m % (n : Int) : Int) : Rat) + f) = x + 360 / n * e + 360 * k := by
  obtain ⟨c, hc⟩ := hm
  have hmod : m % (n : Int) = i + n * (c - m / n) := by
    have := Int.mul_ediv_add_emod m n
    linarith
  refine ⟨c - m / n, ?_⟩
  have hn' : (n : Rat) ≠ 0 := by positivity
  rw [hmod, hf]
  push_cast
  field_simp
  ring

theorem normalized_zone_recovers (num : Numerics) (p : Place) (l : List Rat) (limit : Rat) {n : Nat}
    (hn : 0 < n) {m i : Int} (hm : (n : Int) ∣ m - i) {x f e : Rat}
    (hf : f = n * (x / 360) - i + e) :
    ∃ k : Int, normalize num p l limit (360 / (n : Rat) * (((m % (n : Int) : Int) : Rat) + f)) =
      x + 360 / n * e + 360 * k := by
  obtain ⟨k, hk⟩ := zone_recovers hn hm hf
  obtain ⟨past, -, hx⟩ := normalize_cases num p l limit
    (360 / (n : Rat) * (((m % (n : Int) : Int) : Rat) + f))
  rw [hx, hk]
  cases past with
  | true => exact ⟨k - 1, by push_cast; simp only [if_true]; ring⟩
  | false => exact ⟨k, by simp⟩

/-- An error of half a CPR unit, in degrees. -/
theorem half_unit (n : Nat) {e : Rat} (he : |e| ≤ 1 / 262144) :
    |360 / (n : Rat) * e| ≤ 360 / n / 131072 / 2 := by
  have hunit : 0 ≤ 360 / (n : Rat) := by positivity
  rw [abs_mul, abs_of_nonneg hunit]
  linarith [mul_le_mul_of_nonneg_left he hunit]

/-! ### The latitude -/

/-- A latitude of the reports of -90 degrees and up is not reported below -90: -90 degrees is a whole
number of units of any zoning. -/
theorem reported_latitude_ge {n : Nat} {lat e : Rat} {i : Int} {z : BitVec 17}
    (hz : rawFraction z = n * (lat / 360) - i + e) (he : |e| ≤ 1 / 262144) (hlat : -90 ≤ lat) :
    -(n / 4 : Rat) ≤ n * (lat / 360) + e := by
  by_contra hlt
  have hunits : ((131072 * i + z.toNat : Int) : Rat) = 131072 * (n * (lat / 360) + e) := by
    rw [rawFraction, div_eq_iff (by norm_num)] at hz
    push_cast
    linarith
  have hbelow : 131072 * i + (z.toNat : Int) < -(32768 * n) := by
    have : ((131072 * i + z.toNat : Int) : Rat) < ((-(32768 * n) : Int) : Rat) := by
      rw [hunits]
      push_cast
      linarith
    exact_mod_cast this
  have hunit : ((131072 * i + z.toNat : Int) : Rat) ≤ ((-(32768 * n) - 1 : Int) : Rat) := by
    exact_mod_cast Int.le_sub_one_of_lt hbelow
  rw [hunits] at hunit
  push_cast at hunit
  have hn : (0 : Rat) ≤ n := Nat.cast_nonneg n
  have he' := (abs_le.mp he).1
  nlinarith

/-- A reported latitude that is recovered up to whole turns, and normalised, is recovered: no turn is
left. -/
theorem latitude_recovered {n : Nat} (hn : 59 ≤ n) {lat lat' e : Rat} {i k : Int} {z : BitVec 17}
    (hz : rawFraction z = n * (lat / 360) - i + e) (he : |e| ≤ 1 / 262144)
    (hlo : -90 ≤ lat) (hhi : lat ≤ 90) (hlo' : -90 ≤ lat') (hhi' : lat' < 270)
    (hlat' : lat' = lat + 360 / n * e + 360 * k) : |lat' - lat| ≤ 360 / n / 131072 / 2 := by
  have hn' : (59 : Rat) ≤ n := by exact_mod_cast hn
  have hpos : (0 : Rat) < n := by linarith
  have hunit : 0 < 360 / (n : Rat) := by positivity
  have hshift := half_unit n he
  have hk : k = 0 := by
    have hge := reported_latitude_ge hz he hlo
    have hge' : -90 ≤ lat + 360 / n * e := by
      have := mul_le_mul_of_nonneg_left hge hunit.le
      have h1 : 360 / (n : Rat) * -(n / 4) = -90 := by field_simp; norm_num
      have h2 : 360 / (n : Rat) * (n * (lat / 360) + e) = lat + 360 / n * e := by field_simp
      linarith
    have hsmall : 360 / (n : Rat) ≤ 7 := by rw [div_le_iff₀ hpos]; linarith
    have hle := (abs_le.mp hshift).2
    have hupper : (k : Rat) < 1 := by linarith
    have hlower : (-1 : Rat) < k := by linarith
    have hupper' : k < 1 := by exact_mod_cast hupper
    have hlower' : -1 < k := by exact_mod_cast hlower
    omega
  rw [hlat', hk, Int.cast_zero, mul_zero, add_zero, add_sub_cancel_left]
  exact hshift

/-! ### The two reports CPR.ENC returns -/

theorem cprEncode_of_exec {s : State} {lat lon : Rat} {p : BitVec 1} {yz xz : BitVec 17}
    (h : exec (.cprEnc (.finite lat) (.finite lon) p) s = .next (s.after (.ok (.cpr yz xz)))) :
    (cprEncode s.num lat lon p).1 = yz ∧ (cprEncode s.num lat lon p).2 = xz := by
  have hanswer := answer_unique ((exec_cprEnc_finite lat lon p s).symm.trans h)
  simpa using hanswer

theorem resolvePair_of_exec {s : State} {yzE xzE yzO xzO : BitVec 17} {tE tO : BitVec 1}
    {pos : Option (Rat × Rat)} (h : exec (.cprPair yzE xzE tE yzO xzO tO) s =
      .next (s.after (.ok (.resolved pos)))) : resolvePair s.num yzE xzE tE yzO xzO tO = pos := by
  have hanswer := answer_unique ((exec_cprPair_next yzE xzE tE yzO xzO tO s).symm.trans h)
  simpa using hanswer

/-- The latitude integer of a report in `n` zones. -/
theorem cprEncode_lat_in_zones {n : Nat} {p : BitVec 1} (hn : 0 < n) (hd : dLat p = 360 / (n : Rat))
    (lat lon : Rat) : ∃ (i : Int) (e : Rat),
      rawFraction (cprEncode .exact lat lon p).1 = n * (lat / 360) - i + e ∧ |e| ≤ 1 / 262144 := by
  rw [cprEncode, hd]
  exact rawFraction_in_zones _ _ lat hn

theorem dLat_zero : dLat 0 = 360 / ((60 : Nat) : Rat) := by norm_num [dLat]

theorem dLat_one : dLat 1 = 360 / ((59 : Nat) : Rat) := by
  rw [dLat, show (1 : BitVec 1).toNat = 1 from rfl]
  norm_num

/-- The zone index of the two reports of a latitude. -/
theorem zoneIndex_of_reports {yzE yzO : BitVec 17} {t e e' : Rat} {i i' : Int}
    (hf : rawFraction yzE = (60 : Nat) * t - i + e) (hg : rawFraction yzO = (59 : Nat) * t - i' + e')
    (he : |e| ≤ 1 / 262144) (he' : |e'| ≤ 1 / 262144) :
    zoneIndex .exact yzE yzO = 60 * i' - 59 * i := by
  rw [zoneIndex, Numerics.floorOf_exact, mul_comm 59, mul_comm 60]
  exact floor_pair_index (b := 60) rfl (by norm_num) hf hg he he'

/-- Settles O48: the zone index is the whole zones of the even report modulo 60 and of the odd one modulo
59 (`zoneIndex_of_reports`), so the selected latitude is the true one to half a unit, up to whole turns
(`normalized_zone_recovers`), and no turn is left (`latitude_recovered`). -/
theorem pairRecoversTheLatitude : Obligations.PairRecoversTheLatitude := by
  intro s lat lon lat' lon' yzE xzE yzO xzO tE tO hnum hlo hhi heven hodd hpair
  obtain ⟨hyzE, -⟩ := cprEncode_of_exec heven
  obtain ⟨hyzO, -⟩ := cprEncode_of_exec hodd
  replace hpair := resolvePair_of_exec hpair
  rw [hnum] at hyzE hyzO hpair
  obtain ⟨i, e, hf, he⟩ := cprEncode_lat_in_zones (by norm_num) dLat_zero lat lon
  obtain ⟨i', e', hg, he'⟩ := cprEncode_lat_in_zones (by norm_num) dLat_one lat lon
  rw [hyzE] at hf
  rw [hyzO] at hg
  have hindex := zoneIndex_of_reports hf hg he he'
  rcases resolvePair_some hpair with ⟨ht, rfl, -⟩ | ⟨ht, rfl, -⟩
  · refine ⟨fun _ => ?_, fun h => absurd ht h⟩
    have hdvd : ((60 : Nat) : Int) ∣ zoneIndex .exact yzE yzO - i := ⟨i' - i, by omega⟩
    obtain ⟨k, hk⟩ := normalized_zone_recovers .exact .latEven (latOperands .exact 60 yzE yzO yzE) 270
      (by norm_num) hdvd hf
    obtain ⟨hlt, hge⟩ := latEven_range .exact yzE yzO
    rw [Numerics.slack_exact] at hlt hge
    exact latitude_recovered (by norm_num) hf he hlo hhi (by linarith) (by linarith) hk
  · refine ⟨fun h => absurd h ht, fun _ => ?_⟩
    have hdvd : ((59 : Nat) : Int) ∣ zoneIndex .exact yzE yzO - i' := ⟨i' - i, by omega⟩
    obtain ⟨k, hk⟩ := normalized_zone_recovers .exact .latOdd (latOperands .exact 59 yzE yzO yzO) 270
      (by norm_num) hdvd hg
    obtain ⟨hlt, hge⟩ := latOdd_range .exact yzE yzO
    rw [Numerics.slack_exact] at hlt hge
    exact latitude_recovered (by norm_num) hg he' hlo hhi (by linarith) (by linarith) hk

/-! ### The longitude -/

/-- The reference does not look at what a latitude was computed from. -/
theorem calculateNL_exact (l : List Rat) (lat : Rat) :
    calculateNL .exact l lat = calculateNL .exact [] lat := rfl

/-- The longitude integer of a report in `n` zones: of the longitude itself, up to one turn. -/
theorem cprEncode_lon_in_zones {n : Nat} {lat lon : Rat} {p : BitVec 1}
    (hn : calculateNL .exact [] (lat + (p.toNat : Rat)) = n) : ∃ (i : Int) (e : Rat),
      rawFraction (cprEncode .exact lat lon p).2 =
        n * ((if lon < 0 then lon + 360 else lon) / 360) - i + e ∧ |e| ≤ 1 / 262144 := by
  have hd : dLonEnc .exact lat p = 360 / (n : Rat) := by rw [dLonEnc_eq, calculateNL_exact, hn]
  rw [cprEncode, hd]
  exact rawFraction_in_zones _ _ _ (hn ▸ (calculateNL_bounds _ _ _).1)

/-- The longitude index of two reports, the odd one with one zone fewer. -/
theorem lonIndex_of_reports {a n : Nat} (hn : n = a + 1) (ha : a ≤ 60) {xzE xzO : BitVec 17}
    {t e e' : Rat} {i i' : Int} (hf : rawFraction xzE = n * t - i + e)
    (hg : rawFraction xzO = a * t - i' + e') (he : |e| ≤ 1 / 262144) (he' : |e'| ≤ 1 / 262144) :
    lonIndex .exact n xzE xzO = n * i' - a * i := by
  rw [lonIndex, Numerics.floorOf_exact, ← floor_pair_index hn ha hf hg he he', hn]
  push_cast
  rw [add_sub_cancel_right]

/-- The longitude a report in `n` zones gives back, up to whole turns and to half a unit. -/
theorem pairLon_recovers {n : Nat} (hn : 0 < n) {m i : Int} (hm : (n : Int) ∣ m - i)
    {lon e : Rat} {xz : BitVec 17} (he : |e| ≤ 1 / 262144)
    (hf : rawFraction xz = n * ((if lon < 0 then lon + 360 else lon) / 360) - i + e) :
    ∃ k : Int, |pairLon .exact n m xz - lon - 360 * k| ≤ 360 / n / 131072 / 2 := by
  obtain ⟨k, hk⟩ := normalized_zone_recovers .exact .longitude [n, m, rawFraction xz] 180 hn hm hf
  have hshift := half_unit n he
  rw [pairLon, lonInZone, hk]
  split
  · refine ⟨k + 1, ?_⟩
    convert hshift using 2
    push_cast
    ring
  · refine ⟨k, ?_⟩
    convert hshift using 2
    ring

/-- Settles O49: the odd report has one longitude zone fewer, so the longitude index is the whole zones
of the even report modulo its zones (`lonIndex_of_reports`), and the longitude is the true one to half a
unit, up to whole turns (`pairLon_recovers`). -/
theorem pairRecoversTheLongitude : Obligations.PairRecoversTheLongitude := by
  intro s lat lon lat' lon' yzE xzE yzO xzO tE tO hnum ht hnorth hcount heven hodd hpair
  obtain ⟨-, hxzE⟩ := cprEncode_of_exec heven
  obtain ⟨-, hxzO⟩ := cprEncode_of_exec hodd
  replace hpair := resolvePair_of_exec hpair
  rw [hnum] at *
  obtain ⟨i, e, hf, he⟩ := cprEncode_lon_in_zones (lat := lat) (lon := lon) (p := 0)
    (n := calculateNL .exact [] lat) (by simp)
  obtain ⟨i', e', hg, he'⟩ := cprEncode_lon_in_zones (lat := lat) (lon := lon) (p := 1)
    (n := calculateNL .exact [] (lat + 1))
    (by rw [show (1 : BitVec 1).toNat = 1 from rfl, Nat.cast_one])
  rw [hxzE] at hf
  rw [hxzO] at hg
  rcases resolvePair_some hpair with ⟨-, rfl, rfl⟩ | ⟨hnot, -, -⟩
  · have hnl : pairNlEven .exact yzE yzO = calculateNL .exact [] lat := hcount
    have hpos := (calculateNL_bounds .exact [] lat).1
    have hbound := (calculateNL_bounds .exact [] (lat + 1)).2
    rw [pairZonesEven, hnl, max_eq_left hpos, lonIndex_of_reports hnorth.symm hbound hf hg he he']
    refine pairLon_recovers hpos ⟨i' - i, ?_⟩ he hf
    rw [← hnorth]
    push_cast
    ring
  · exact absurd ht hnot

end Sys2Proof.Machine
end

section
/-! The modulated signal and the receiver's decisions, as real numbers (44_phy_channel R185, R193 to
R195). -/

namespace Sys2Proof.Machine

/-! ### The energy of a modulated signal -/

theorem modulate_energy {fc : Rat} (hfc : fc ≠ 0) (sps : Sps) (v : Bits) :
    ((modulate fc sps.count v).map fun x => x.val ^ 2).sum = v.length * (sps.count / 2 : ℝ) := by
  induction v with
  | nil => simp [modulate]
  | cons b bs ih =>
    change ((symbol fc sps.count b ++ modulate fc sps.count bs).map _).sum = _
    rw [List.map_append, List.sum_append, symbol_energy hfc, ih, List.length_cons]
    push_cast
    ring

theorem Sps.count_pos (sps : Sps) : (0 : ℝ) < sps.count := by
  cases sps <;> norm_num [Sps.count]

/-- Settles O53: the sums over one symbol are `reference_sums` and `reference_product`; every symbol of a
signal has the energy of one (`modulate_energy`). -/
theorem waveformSums : Obligations.WaveformSums := by
  intro fc sps hpos
  obtain ⟨hsum, hsquares⟩ := reference_sums hpos.ne' sps
  refine ⟨hsum, hsquares, reference_product hpos.ne' sps, fun v hv => ?_⟩
  have henergy := modulate_energy hpos.ne' sps v
  rw [sum_squares, modulate_length] at henergy
  have hlength : (0 : ℝ) < v.length := by exact_mod_cast List.length_pos_iff.mpr hv
  have hcount := sps.count_pos
  rw [henergy]
  field_simp

/-! ### Windows -/

theorem sampleVal_window {sps : Nat} (x : List ExactReal) (j : Nat) {k : Nat} (hk : k < sps) :
    sampleVal (window sps x j) k = sampleVal x (j * sps + k) := by
  rw [sampleVal, sampleVal, window_getElem? sps x j hk]

/-- The correlation the receiver computes on a window is that of the signal there. -/
theorem sum_window_ref1 {fc : Rat} (hfc : fc ≠ 0) (sps : Sps) (x : List ExactReal) (j : Nat) :
    ∑ k ∈ Finset.range sps.count, sampleVal (window sps.count x j) k * (ref1 fc sps.count k).val =
      correlationReal sps x j :=
  Finset.sum_congr rfl fun k hk => by
    rw [sampleVal_window x j (Finset.mem_range.mp hk), val_ref1 hfc]

/-- The energy of a window within a signal. -/
theorem window_energy {sps : Nat} {x : List ExactReal} {j : Nat} (hj : j < x.length / sps) :
    ((window sps x j).map fun a => a.val ^ 2).sum =
      ∑ k ∈ Finset.range sps, sampleVal x (j * sps + k) ^ 2 := by
  rw [sum_squares, window_length hj]
  exact Finset.sum_congr rfl fun k hk => by rw [sampleVal_window x j (Finset.mem_range.mp hk)]

/-! ### The bits -/

theorem demodulate_getElem? (num : Numerics) (fc : Rat) (sps : Nat) {r : List ExactReal}
    (parts sources : List (List ExactReal)) {j : Nat} (hj : j < r.length / sps) :
    (demodulate num fc sps r parts sources)[j]? = some (decideBit num fc sps (window sps r j)
      (parts.map fun p => window sps p j) (Config.roundedBit fc sps j sources)) := by
  simp [demodulate, hj]

/-- The bit on a window of a signal that is an operand, where it is settled. -/
theorem demodulate_bit {num : Numerics} {fc : Rat} (hfc : fc ≠ 0) {sps : Sps} {r : List ExactReal}
    {j : Nat} (hj : j < r.length / sps.count) (hs : settled num sps r j)
    (sources : List (List ExactReal)) :
    (demodulate num fc sps.count r [r] sources)[j]? = some true ↔ 0 < correlationReal sps r j := by
  rw [demodulate_getElem? num fc sps.count [r] sources hj, Option.some.injEq,
    decideBit_iff hfc (window_length hj) ?_, sum_window_ref1 hfc]
  rw [sum_window_ref1 hfc]
  refine hs.imp id fun h => ?_
  simpa [window_energy hj] using h

theorem window_index_lt {len sps j k : Nat} (hj : j < len / sps) (hk : k < sps) :
    j * sps + k < len :=
  calc j * sps + k < (j + 1) * sps := by rw [Nat.succ_mul]; omega
    _ ≤ len := (Nat.le_div_iff_mul_le (Nat.zero_lt_of_lt hk)).mp hj

/-- The energy of the parts a received window is the sum of. -/
theorem link_energy {sps : Nat} {x w : List ExactReal} (hw : w.length = x.length) {j : Nat}
    (hj : j < x.length / sps) : ∑ k ∈ Finset.range sps, (sampleVal x (j * sps + k) ^ 2 +
        (sampleVal (received x w) (j * sps + k) - sampleVal x (j * sps + k)) ^ 2) =
      ((window sps x j).map fun a => a.val ^ 2).sum +
        ((window sps w j).map fun a => a.val ^ 2).sum := by
  rw [window_energy hj, window_energy (hw ▸ hj), ← Finset.sum_add_distrib]
  refine Finset.sum_congr rfl fun k hk => ?_
  rw [sampleVal_received hw (window_index_lt hj (Finset.mem_range.mp hk)), add_sub_cancel_left]

/-- The bit on a window of a signal received over the link, where it is settled. -/
theorem demodulate_link_bit {num : Numerics} {fc : Rat} (hfc : fc ≠ 0) {sps : Sps}
    {x w : List ExactReal} (hw : w.length = x.length) {j : Nat} (hj : j < x.length / sps.count)
    (hs : settledLink num sps x (received x w) j) (sources : List (List ExactReal)) :
    (demodulate num fc sps.count (received x w) [x, w] sources)[j]? = some true ↔
      0 < correlationReal sps (received x w) j := by
  have hj' : j < (received x w).length / sps.count := by rwa [received_length hw]
  rw [demodulate_getElem? num fc sps.count [x, w] sources hj', Option.some.injEq,
    decideBit_iff hfc (window_length hj') ?_, sum_window_ref1 hfc]
  rw [sum_window_ref1 hfc]
  refine hs.imp id fun h => ?_
  rw [link_energy hw hj] at h
  simpa using h

/-! ### A modulated signal at the receiver -/

theorem modulate_windows (fc : Rat) (sps : Sps) (v : Bits) :
    (modulate fc sps.count v).length % sps.count = 0 ∧
      (modulate fc sps.count v).length / sps.count = v.length := by
  have hcount : 0 < sps.count := by exact_mod_cast sps.count_pos
  rw [modulate_length]
  exact ⟨Nat.mul_mod_left _ _, Nat.mul_div_cancel _ hcount⟩

theorem window_lt_of_bit (fc : Rat) (sps : Sps) {v : Bits} {j : Nat} {b : Bool}
    (hb : v[j]? = some b) : j < (modulate fc sps.count v).length / sps.count := by
  rw [(modulate_windows fc sps v).2]
  exact (List.getElem?_eq_some_iff.mp hb).1

section
variable {fc : Rat} (hfc : fc ≠ 0) (sps : Sps) {v : Bits} {j : Nat} {b : Bool} (hb : v[j]? = some b)
include hfc hb

theorem correlationReal_modulate : correlationReal sps (modulate fc sps.count v) j =
    if b then (sps.count / 2 : ℝ) else -(sps.count / 2 : ℝ) := by
  rw [← sum_window_ref1 hfc, window_modulate fc sps.count hb]
  have hsample : ∀ k ∈ Finset.range sps.count, sampleVal (symbol fc sps.count b) k =
      if b then (ref1 fc sps.count k).val else (ref0 fc sps.count k).val := by
    intro k hk
    rw [sampleVal, symbol_getElem? fc sps.count b (Finset.mem_range.mp hk)]
    cases b <;> rfl
  rw [Finset.sum_congr rfl fun k hk => by rw [hsample k hk]]
  cases b with
  | true => simpa [sq] using (reference_sums hfc sps).2
  | false => simpa [mul_comm] using reference_product hfc sps

theorem window_modulate_energy :
    ((window sps.count (modulate fc sps.count v) j).map fun a => a.val ^ 2).sum =
      (sps.count / 2 : ℝ) := by
  rw [window_modulate fc sps.count hb, symbol_energy hfc]

end

/-- Half the samples, the correlation of a symbol, is far beyond rounding distance of 0, for a window of
the symbol's energy or of twice that. -/
theorem tieBand_bound (c : ℝ) {e : ℝ} (he : e = c / 2 ∨ e = 2 * (c / 2)) (hc : 0 < c) (b : Bool) :
    (tieBand : ℝ) ^ 2 * (c / 2) * e ≤ (if b then c / 2 else -(c / 2)) ^ 2 := by
  have hband : (tieBand : ℝ) ^ 2 * 2 ≤ 1 := by norm_num [tieBand]
  have hsq : (if b then c / 2 else -(c / 2)) ^ 2 = (c / 2) * (c / 2) := by
    cases b <;> simp [sq]
  rw [hsq]
  have hpos : 0 < (c / 2) * (c / 2) := by positivity
  rcases he with rfl | rfl <;> nlinarith

theorem settled_modulate {fc : Rat} (hfc : fc ≠ 0) (num : Numerics) (sps : Sps) {v : Bits} {j : Nat}
    {b : Bool} (hb : v[j]? = some b) : settled num sps (modulate fc sps.count v) j := by
  right
  rw [← window_energy (window_lt_of_bit fc sps hb), window_modulate_energy hfc sps hb,
    correlationReal_modulate hfc sps hb]
  exact tieBand_bound _ (.inl rfl) sps.count_pos b

/-- Bits that are 1 on one condition are one bit. -/
theorem getElem?_eq_of_ones {b b' : Bits} {j : Nat} (hj : j < b.length) (hj' : j < b'.length)
    {p : Prop} (h : b[j]? = some true ↔ p) (h' : b'[j]? = some true ↔ p) : b[j]? = b'[j]? := by
  rw [← h', List.getElem?_eq_getElem hj, List.getElem?_eq_getElem hj'] at h
  rw [List.getElem?_eq_getElem hj, List.getElem?_eq_getElem hj']
  simp only [Option.some.injEq] at h ⊢
  exact Bool.eq_iff_iff.mpr h

/-- A bit vector whose bits are 1 where another's are is that vector. -/
theorem bits_eq_of_ones {b v : Bits} (hl : b.length = v.length)
    (h : ∀ (j : Nat) (sent : Bool), v[j]? = some sent → (b[j]? = some true ↔ sent = true)) : b = v := by
  apply List.ext_getElem hl
  intro j hj hj'
  have hone := h j v[j] (List.getElem?_eq_getElem hj')
  rw [List.getElem?_eq_getElem hj, Option.some.injEq] at hone
  exact Bool.eq_iff_iff.mpr hone

theorem symbol_correlation_pos_iff (sps : Sps) (sent : Bool) :
    (0 < if sent then (sps.count / 2 : ℝ) else -(sps.count / 2 : ℝ)) ↔ sent = true := by
  have hcount := sps.count_pos
  cases sent with
  | true => exact iff_of_true (by rw [if_pos rfl]; linarith) rfl
  | false => exact iff_of_false (by rw [if_neg Bool.false_ne_true]; linarith) Bool.false_ne_true

/-- The receiver gives back the bits of a modulated signal. -/
theorem demodulate_modulate {fc : Rat} (hfc : fc ≠ 0) (num : Numerics) (sps : Sps) (v : Bits)
    (sources : List (List ExactReal)) : demodulate num fc sps.count (modulate fc sps.count v)
      [modulate fc sps.count v] sources = v := by
  refine bits_eq_of_ones ?_ fun j sent hsent => ?_
  · rw [demodulate_length, (modulate_windows fc sps v).2]
  · rw [demodulate_bit hfc (window_lt_of_bit fc sps hsent) (settled_modulate hfc num sps hsent),
      correlationReal_modulate hfc sps hsent]
    exact symbol_correlation_pos_iff sps sent

/-- Settles O54: with the registers set and a length that fits DEMOD answers the receiver's bits, whose
decisions are the signs of the correlations where these are settled (`demodulate_bit`). -/
theorem demodulatedBitsAreCorrelationSigns : Obligations.DemodulatedBitsAreCorrelationSigns :=
  ⟨fun _ => rfl, fun s fc sps r hfc hpos hsps hmod hlen =>
    ⟨demodulate s.num fc sps.count r [r] [r], exec_demod_of_fits hfc hsps hmod hlen,
      demodulate_length _ _ _ _ _ _, fun _ hj hs => demodulate_bit hpos.ne' hj hs _⟩⟩

/-! ### What the noise may be -/

section
variable {s : State} {fc : Rat} {sps : Sps} (hfc : s.fc = some fc) (hsps : s.sps = some sps)
include hfc hsps

/-- MOD answers a signal only for a vector that fits. -/
theorem modulate_of_exec_ok {v : Bits} {x : List ExactReal}
    (h : exec (.mod v) s = .next (s.after (.ok (.signal x)))) : x = modulate fc sps.count v := by
  rcases le_or_gt v.length Config.nbitsMax with hle | hgt
  · rw [exec_mod_of_le hfc hsps hle] at h
    cases answer_unique h
    rfl
  · rw [exec_mod_outOfRange (by simp [hfc]) (by simp [hsps]) hgt] at h
    cases answer_unique h

/-- DEMOD answers bits only for a signal that fits. -/
theorem demodulate_of_exec_ok {r : List ExactReal} {b : Bits}
    (h : exec (.demod (r.map .finite)) s = .next (s.after (.ok (.bits b)))) :
    b = demodulate s.num fc sps.count r [r] [r] := by
  by_cases hlen : r.length % sps.count ≠ 0 ∨ Config.nbitsMax < r.length / sps.count
  · rw [exec_demod_length hfc hsps hlen] at h
    cases answer_unique h
  · rw [exec_demod_of_fits hfc hsps (by omega) (by omega)] at h
    cases answer_unique h
    rfl

end

/-- A bit is the sent one exactly when the condition for a 1 holds as the sent bit says. -/
theorem bit_eq_sent_iff {b : Bits} {j : Nat} (hj : j < b.length) {p : Prop}
    (h : b[j]? = some true ↔ p) (sent : Bool) : b[j]? = some sent ↔ if sent = true then p else ¬ p := by
  cases sent with
  | true => simpa using h
  | false =>
    rw [if_neg Bool.false_ne_true, ← h, List.getElem?_eq_getElem hj, Option.some.injEq,
      Option.some.injEq, Bool.not_eq_true]

/-- Settles O55: the bits of a modulated signal are decided beyond rounding distance
(`demodulate_modulate`); any other signal's correlation is that of the sent symbol, half SPS or its
opposite (`correlationReal_modulate`), plus the noise's. -/
theorem bitsSurviveBoundedNoise : Obligations.BitsSurviveBoundedNoise := by
  refine ⟨fun s fc sps v hfc hpos hsps hl => ?_, fun s fc sps v b x r hfc hpos hsps hlen hmod hdemod =>
    ?_⟩
  · obtain ⟨hwhole, hwindows⟩ := modulate_windows fc sps v
    refine ⟨modulate fc sps.count v, exec_mod_of_le hfc hsps hl, ?_⟩
    rw [exec_demod_of_fits hfc hsps hwhole (hwindows.trans_le hl),
      demodulate_modulate hpos.ne' s.num sps v]
  · obtain rfl := modulate_of_exec_ok hfc hsps hmod
    obtain rfl := demodulate_of_exec_ok hfc hsps hdemod
    obtain ⟨-, hwindows⟩ := modulate_windows fc sps v
    have hbits : (demodulate s.num fc sps.count r [r] [r]).length = v.length := by
      rw [demodulate_length, ← hlen, hwindows]
    refine ⟨hbits, fun j sent hsent hs => ?_⟩
    have hj : j < v.length := (List.getElem?_eq_some_iff.mp hsent).1
    have hj' : j < r.length / sps.count := by rwa [← hlen, hwindows]
    intro noise
    have hnoise : correlationReal sps r j = noise + if sent then (sps.count / 2 : ℝ) else
        -(sps.count / 2 : ℝ) := by
      rw [← correlationReal_modulate hpos.ne' sps hsent]
      ring
    rw [bit_eq_sent_iff (hbits ▸ hj) (demodulate_bit hpos.ne' hj' hs [r]), hnoise]
    cases sent with
    | true =>
      simp only [if_true]
      constructor <;> intro h <;> linarith
    | false =>
      simp only [Bool.false_eq_true, if_false, not_lt]
      constructor <;> intro h <;> linarith

end Sys2Proof.Machine
end

section
/-! The carrier frequency cancels (44_phy_channel R183). -/

namespace Sys2Proof.Machine

/-! ### Waveforms and decisions -/

theorem modulate_fc {fc fc' : Rat} (h : fc ≠ 0) (h' : fc' ≠ 0) (sps : Nat) (v : Bits) :
    modulate fc sps v = modulate fc' sps v := by
  rw [modulate, modulate, show symbol fc sps = symbol fc' sps from funext (symbol_eq h h' sps)]

/-- The reference decides by the references alone, in which FC cancels. -/
theorem demodulate_exact_fc {fc fc' : Rat} (h : fc ≠ 0) (h' : fc' ≠ 0) (sps : Nat)
    (r : List ExactReal) (parts parts' sources sources' : List (List ExactReal)) :
    demodulate .exact fc sps r parts sources = demodulate .exact fc' sps r parts' sources' := by
  simp only [demodulate, decideBit, symbol_eq h h']

/-! ### Operations run with two carrier frequencies -/

/-- The state with FC at a value. -/
def State.withFc (s : State) (fc : Rat) : State := { s with fc := some fc }

section
variable (s : State) (fc : Rat)

@[simp] theorem State.withFc_fc : (s.withFc fc).fc = some fc := rfl
@[simp] theorem State.withFc_sps : (s.withFc fc).sps = s.sps := rfl
@[simp] theorem State.withFc_snrDb : (s.withFc fc).snrDb = s.snrDb := rfl
@[simp] theorem State.withFc_fading : (s.withFc fc).fading = s.fading := rfl
@[simp] theorem State.withFc_rng : (s.withFc fc).rng = s.rng := rfl
@[simp] theorem State.withFc_num : (s.withFc fc).num = s.num := rfl
@[simp] theorem State.withFc_noise : (s.withFc fc).noise = s.noise := rfl

end

/-- Two outcomes that differ in FC and the result alone, and in FC alone where `same` holds. -/
inductive SameButFc (fc fc' : Rat) (same : Prop) :
    Except Exc (State × Result) → Except Exc (State × Result) → Prop where
  | ok (t : State) (q q' : Result) (h : same → q' = q) :
    SameButFc fc fc' same (.ok (t.withFc fc, q)) (.ok (t.withFc fc', q'))
  | error (e : Exc) : SameButFc fc fc' same (.error e) (.error e)

/-- Two operations that end in states that differ in FC and the response alone, and in FC alone where
`same` holds. -/
def EndSameButFc (fc' : Rat) (same : Prop) (o o' : Host.Outcome State Fault Refusal) : Prop :=
  ∃ t r, o = .next t ∧ o' = .next { t with fc := some fc', response := r } ∧
    (same → r = t.response)

theorem commit_sameButFc {s : State} {fc fc' : Rat} {same : Prop}
    {x x' : Except Exc (State × Result)} (h : SameButFc fc fc' same x x') :
    EndSameButFc fc' same (commit (s.withFc fc) x) (commit (s.withFc fc') x') := by
  cases h with
  | ok t q q' hq =>
    exact ⟨(t.withFc fc).after (.ok q), some (.ok q'), rfl, rfl, fun hs => by rw [hq hs]; rfl⟩
  | error e =>
    refine ⟨(s.withFc fc).raise e, some (.raised e), rfl, ?_, fun _ => by simp⟩
    cases e <;> rfl

/-- An operation that only answers commits the state it found. -/
theorem answer_eq_commit (s : State) (x : Except Exc Result) :
    answer s x = commit s (x.map fun q => (s, q)) := by
  cases x <;> rfl

section
variable {fc fc' : Rat} (h : fc ≠ 0) (h' : fc' ≠ 0)
include h h'

theorem exec_mod_sameButFc (s : State) (same : Prop) (v : Bits) :
    EndSameButFc fc' same (exec (.mod v) (s.withFc fc)) (exec (.mod v) (s.withFc fc')) := by
  rw [exec_mod, exec_mod, answer_eq_commit, answer_eq_commit]
  refine commit_sameButFc ?_
  rw [s.withFc_fc, s.withFc_fc, s.withFc_sps, s.withFc_sps]
  rcases whenSet s.sps with e | sps
  · exact .error e
  · simp only [whenSet_some, modulate_fc h h']
    split
    · exact .error _
    · exact .ok s _ _ fun _ => rfl

theorem exec_demod_sameButFc (s : State) (x : List (Port ExactReal)) :
    EndSameButFc fc' (s.num = .exact) (exec (.demod x) (s.withFc fc))
      (exec (.demod x) (s.withFc fc')) := by
  rw [exec_demod, exec_demod, answer_eq_commit, answer_eq_commit]
  refine commit_sameButFc ?_
  rw [s.withFc_fc, s.withFc_fc, s.withFc_sps, s.withFc_sps, s.withFc_num, s.withFc_num]
  rcases whenSet s.sps with e | sps
  · exact .error e
  rcases samples x with e | r
  · exact .error e
  simp only [whenSet_some]
  split
  · exact .error _
  · refine .ok s _ _ fun hnum => ?_
    rw [hnum, demodulate_exact_fc h h']

theorem xmitWith_sameButFc (s : State) (sps : Sps) (snr : Rat) (fam : Fading) (rng : Rng) (v : Bits) :
    SameButFc fc fc' (s.num = .exact) (xmitWith (s.withFc fc) fc sps snr fam rng v)
      (xmitWith (s.withFc fc') fc' sps snr fam rng v) := by
  rw [xmitWith, xmitWith, modulate_fc h h', s.withFc_noise, s.withFc_noise, s.withFc_num,
    s.withFc_num]
  rcases channelNoise _ _ _ _ _ with e | w
  · exact .error e
  · refine .ok (s.drawn rng _) _ _ fun hnum => ?_
    rw [hnum, demodulate_exact_fc h h']

theorem exec_xmit_sameButFc (s : State) (str : Chars) :
    EndSameButFc fc' (s.num = .exact) (exec (.xmit str) (s.withFc fc))
      (exec (.xmit str) (s.withFc fc')) := by
  rw [exec_xmit, exec_xmit]
  refine commit_sameButFc ?_
  rw [s.withFc_fc, s.withFc_fc, s.withFc_sps, s.withFc_sps, s.withFc_snrDb, s.withFc_snrDb,
    s.withFc_fading, s.withFc_fading, s.withFc_rng, s.withFc_rng]
  rcases frameString str with e | v
  · exact .error e
  rcases whenSet s.sps with e | sps
  · exact .error e
  rcases whenSet s.snrDb with e | snr
  · exact .error e
  rcases whenSet s.fading with e | fam
  · exact .error e
  rcases whenSet s.rng with e | rng
  · exact .error e
  exact xmitWith_sameButFc h h' s sps snr fam rng v

end

/-- Settled bits of a signal are the same for any two carrier frequencies. -/
theorem demodulate_settled_fc {fc fc' : Rat} (h : fc ≠ 0) (h' : fc' ≠ 0) {num : Numerics} {sps : Sps}
    {r : List ExactReal} {j : Nat} (hs : settled num sps r j) (sources sources' : List (List ExactReal)) :
    (demodulate num fc sps.count r [r] sources)[j]? =
      (demodulate num fc' sps.count r [r] sources')[j]? := by
  by_cases hj : j < r.length / sps.count
  · exact getElem?_eq_of_ones (by rwa [demodulate_length]) (by rwa [demodulate_length])
      (demodulate_bit h hj hs sources) (demodulate_bit h' hj hs sources')
  · rw [List.getElem?_eq_none (by rw [demodulate_length]; omega),
      List.getElem?_eq_none (by rw [demodulate_length]; omega)]

/-- Settles O52: MOD's signal does not depend on FC, nor do the decisions of the reference
(`exec_mod_sameButFc`, `exec_demod_sameButFc`, `exec_xmit_sameButFc`); in a build that rounds the settled
bits do not (`demodulate_settled_fc`). -/
theorem carrierFrequencyCancels : Obligations.CarrierFrequencyCancels := by
  refine ⟨fun s fc fc' i hpos hpos' hi => ?_, fun s fc fc' sps r hpos hpos' hsps hmod hlen => ?_⟩
  · rcases hi with ⟨v, rfl⟩ | ⟨x, rfl⟩ | ⟨str, rfl⟩
    · exact exec_mod_sameButFc hpos.ne' hpos'.ne' s _ v
    · obtain ⟨t, r, ht, ht', hsame⟩ := exec_demod_sameButFc hpos.ne' hpos'.ne' s x
      exact ⟨t, r, ht, ht', fun h => hsame (h.resolve_right (by simp))⟩
    · obtain ⟨t, r, ht, ht', hsame⟩ := exec_xmit_sameButFc hpos.ne' hpos'.ne' s str
      exact ⟨t, r, ht, ht', fun h => hsame (h.resolve_right (by simp))⟩
  · refine ⟨_, _, exec_demod_of_fits (s := s.withFc fc) rfl hsps hmod hlen,
      exec_demod_of_fits (s := s.withFc fc') rfl hsps hmod hlen, ?_,
      fun j hs => demodulate_settled_fc hpos.ne' hpos'.ne' hs _ _⟩
    rw [demodulate_length, demodulate_length]

end Sys2Proof.Machine
end

section
/-! The channel in real numbers, and the link composed of its operations (44_phy_channel R186 to R196). -/

namespace Sys2Proof.Machine

/-! ### The channel's output -/

/-- The noise on a sample as a real number (44_phy_channel R190 to R192). -/
theorem val_noiseTerm (draw : Nat → Surd3) (n : Nat) (snr : Rat) (fam : Fading) (x : List ExactReal)
    (k : Nat) : (noiseTerm (noiseScale (signalPower (fadings draw n x.length fam) x) snr)
        (fade fam (draw (n + 2 * k)) (draw (n + 2 * k + 1))) (.alg (draw (n + 2 * x.length + k)))).val =
      √(noiseDensityReal (fadingReal fam draw n) snr x / 2) * (draw (n + 2 * x.length + k)).val /
        fadingReal fam draw n k := by
  simp only [noiseTerm, noiseScale, noiseDensity, ExactReal.val_quot, ExactReal.val_times,
    ExactReal.val_root, ExactReal.val_tenPow, ExactReal.val_ofRat, ExactReal.val_alg,
    val_signalPower, val_fade, noiseDensityReal]
  push_cast
  rfl

/-- Where no fading magnitude is 0 the channel has its noise, sample by sample. -/
theorem channelNoise_val {draw : Nat → Surd3} {n : Nat} (snr : Rat) {fam : Fading}
    {x : List ExactReal} (h : ∀ k, k < x.length → fadingReal fam draw n k ≠ 0) :
    ∃ w, channelNoise draw n snr fam x = .ok w ∧ w.length = x.length ∧
      ∀ k, k < x.length → sampleVal w k =
        √(noiseDensityReal (fadingReal fam draw n) snr x / 2) *
          (draw (n + 2 * x.length + k)).val / fadingReal fam draw n k := by
  obtain ⟨w, hw, hlen, hk⟩ := channelNoise_ok (snr := snr) h
  exact ⟨w, hw, hlen, fun k hkl => by
    rw [sampleVal, hk k hkl, Option.getD_some, val_noiseTerm]⟩

/-- Settles O56: CHAN adds the channel's noise (`exec_chan_of_noise`), each sample of which has the stated
real value (`channelNoise_val`). -/
theorem channelOutputIsTheFormula : Obligations.ChannelOutputIsTheFormula := by
  refine ⟨fun _ => rfl, fun s snr fam rng x _ hsnr hfading hrng hfade => ?_⟩
  obtain ⟨w, hw, hlen, hval⟩ := channelNoise_val snr hfade
  refine ⟨received x w, exec_chan_of_noise hsnr hfading hrng hw, received_length hlen, fun k hk => ?_⟩
  rw [sampleVal_received hlen hk, hval k hk]

/-! ### A frame on the link -/

/-- The bits of a frame's text, and the length of its modulated signal. -/
theorem frameText_bits {str : Chars} (h : frameText str) (fc : Rat) (sps : Sps) :
    ∃ v : Bits, frameString str = .ok v ∧ v.length = 112 ∧ hexChars v = str ∧
      (modulate fc sps.count v).length = 112 * sps.count := by
  obtain ⟨v, hv⟩ := (frameString_ok_iff str).mpr h
  obtain ⟨hlen, hstr⟩ := frameHex_of_frameString hv
  rw [frameHex, wireBits_ofWire hlen] at hstr
  exact ⟨v, hv, hlen, hstr.symm, by rw [modulate_length, hlen]⟩

/-- Settles O57: a fading magnitude of 0 fails the channel (`channelNoise_divZero`); without one the
channel succeeds (`channelNoise_val`), and what else can end the operation is another status. -/
theorem zeroFadingIsDivZero : Obligations.ZeroFadingIsDivZero := by
  refine ⟨fun s snr fam rng x k hsnr hfading hrng hk hzero => ?_,
    fun s fc sps snr fam rng str k htext hfc hsps hsnr hfading hrng hk hzero => ?_,
    fun s t snr fam rng x hsnr hfading hrng hfade hexec => ?_,
    fun s t sps fam rng str hsps hfading hrng hfade hexec => ?_⟩
  · exact exec_chan_divZero hsnr hfading hrng (channelNoise_divZero hk hzero)
  · obtain ⟨v, hv, -, -, hlen⟩ := frameText_bits htext fc sps
    exact exec_xmit_divZero hfc hsps hsnr hfading hrng hv
      (channelNoise_divZero (hlen ▸ hk) hzero)
  · obtain ⟨w, hw, -, -⟩ := channelNoise_val snr hfade
    rw [exec_chan_of_noise hsnr hfading hrng hw] at hexec
    cases hexec
    simp
  · by_cases htext : frameText str
    · cases hfc : s.fc with
      | none =>
        rw [exec_xmit_unset htext (.inl hfc)] at hexec
        cases hexec
        simp
      | some fc =>
        cases hsnr : s.snrDb with
        | none =>
          rw [exec_xmit_unset htext (.inr (.inr (.inl hsnr)))] at hexec
          cases hexec
          simp
        | some snr =>
          obtain ⟨v, hv, -, -, hlen⟩ := frameText_bits htext fc sps
          obtain ⟨w, hw, -, -⟩ := channelNoise_val snr (x := modulate fc sps.count v)
            fun k hk => hfade k (hlen ▸ hk)
          rw [exec_xmit_of_noise hfc hsps hsnr hfading hrng hv rfl hw] at hexec
          cases hexec
          simp
    · rw [exec_xmit_malformed htext] at hexec
      cases hexec
      simp

/-! ### XMIT as a composition -/

/-- A bit settled on the link is settled on the signal received: that has at most twice the energy of its
parts. -/
theorem settled_of_settledLink {num : Numerics} {sps : Sps} {x r : List ExactReal} {j : Nat}
    (h : settledLink num sps x r j) : settled num sps r j := by
  refine h.imp id fun hlink => le_trans ?_ hlink
  refine mul_le_mul_of_nonneg_left ?_ (by positivity)
  rw [Finset.mul_sum]
  refine Finset.sum_le_sum fun k _ => ?_
  nlinarith [sq_nonneg (2 * sampleVal x (j * sps.count + k) - sampleVal r (j * sps.count + k))]

theorem hexToBits_of_frameString {str : Chars} {v : Bits} (h : frameString str = .ok v) :
    hexToBits str = .ok v := by
  unfold frameString at h
  split at h
  · cases h
  · exact h

theorem frameText_hexChars {v : Bits} (h : v.length = 112) : frameText (hexChars v) :=
  ⟨hexChars_length 28 v h, hexDigit_hexChars v⟩

theorem le_nbitsMax : 112 ≤ Config.nbitsMax := Nat.le_add_left 112 Config.nbitsExtra

/-- The draws of a frame: three a sample. -/
theorem drawn_frame (s : State) (rng : Rng) {len : Nat} {sps : Sps} (h : len = 112 * sps.count) :
    s.drawn rng (3 * len) = { s with rng := some ⟨rng.seed, rng.n + 336 * sps.count⟩ } := by
  rw [State.drawn, h, ← Nat.mul_assoc]

theorem frame_windows {len : Nat} {sps : Sps} (h : len = 112 * sps.count) :
    len % sps.count = 0 ∧ len / sps.count = 112 := by
  have hcount : 0 < sps.count := by exact_mod_cast sps.count_pos
  rw [h]
  exact ⟨Nat.mul_mod_left _ _, Nat.mul_div_cancel _ hcount⟩

/-- Settles O59: XMIT demodulates the modulated frame with the channel's noise added
(`exec_xmit_of_noise`), the signal CHAN answers with; both decide by the sign of its correlation where
the bit is settled (`demodulate_link_bit`, `demodulate_bit`). -/
theorem xmitComposesTheLink : Obligations.XmitComposesTheLink := by
  refine ⟨fun _ => rfl, fun s fc sps snr fam rng str htext hfc hsps hsnr hfading hrng hfade => ?_⟩
  obtain ⟨v, hv, hbits, -, hlen⟩ := frameText_bits htext fc sps
  have hmod := exec_mod_of_le hfc hsps (hbits.trans_le le_nbitsMax)
  obtain ⟨x, hx⟩ : ∃ x, modulate fc sps.count v = x := ⟨_, rfl⟩
  rw [hx] at hlen hmod
  obtain ⟨w, hw, hwlen, -⟩ := channelNoise_val snr (x := x) fun k hk => hfade k (hlen ▸ hk)
  have hxmit := exec_xmit_of_noise hfc hsps hsnr hfading hrng hv hx hw
  have hchan := exec_chan_of_noise hsnr hfading hrng hw
  rw [drawn_frame s rng hlen] at hxmit hchan
  have hrlen : (received x w).length = 112 * sps.count := (received_length hwlen).trans hlen
  obtain ⟨hwhole, hwindows⟩ := frame_windows hrlen
  have hsent : ∀ parts sources,
      (demodulate s.num fc sps.count (received x w) parts sources).length = 112 :=
    fun _ _ => (demodulate_length _ _ _ _ _ _).trans hwindows
  have hdemod := exec_demod_of_fits hfc hsps hwhole (hwindows.trans_le le_nbitsMax)
  refine ⟨_, v, _, _, x, received x w, hxmit, frameText_hexChars (hsent _ _),
    exec_hex2bit_of_ok (hexToBits_of_frameString hv) s, hmod, hchan, hdemod,
    exec_bit2hex_of_width (by rw [hsent]) (hsent _ _).le s, hsent _ _, fun hnum => ?_,
    fun hpos j hj hs => ?_⟩
  · rw [hnum]
    exact demodulate_exact _ _ _ _ _ _ _
  · have hjr : j < (received x w).length / sps.count := by rwa [hwindows]
    have hjx : j < x.length / sps.count := by rwa [(frame_windows hlen).2]
    exact getElem?_eq_of_ones (by rwa [hsent]) (by rwa [hsent])
      (demodulate_link_bit hpos.ne' hwlen hjx hs _)
      (demodulate_bit hpos.ne' hjr (settled_of_settledLink hs) _)

/-! ### A link without noise -/

section
variable {fc : Rat} (hfc : fc ≠ 0) {sps : Sps} {v : Bits} {w : List ExactReal}
  (hw : w.length = (modulate fc sps.count v).length)
  (hzero : ∀ k, k < (modulate fc sps.count v).length → sampleVal w k = 0)
include hfc hw hzero

/-- With nothing added, the correlation of a window is that of the sent symbol. -/
theorem correlationReal_noiseless {j : Nat} {sent : Bool} (hsent : v[j]? = some sent) :
    correlationReal sps (received (modulate fc sps.count v) w) j =
      if sent then (sps.count / 2 : ℝ) else -(sps.count / 2 : ℝ) := by
  rw [← correlationReal_modulate hfc sps hsent]
  refine Finset.sum_congr rfl fun k hk => ?_
  have hlt := window_index_lt (window_lt_of_bit fc sps hsent) (Finset.mem_range.mp hk)
  rw [sampleVal_received hw hlt, hzero _ hlt, add_zero]

theorem settledLink_noiseless (num : Numerics) {j : Nat} {sent : Bool} (hsent : v[j]? = some sent) :
    settledLink num sps (modulate fc sps.count v) (received (modulate fc sps.count v) w) j := by
  right
  have hj := window_lt_of_bit fc sps hsent
  have hquiet : ((window sps.count w j).map fun a => a.val ^ 2).sum = 0 := by
    rw [window_energy (hw ▸ hj)]
    refine Finset.sum_eq_zero fun k hk => ?_
    rw [hzero _ (window_index_lt hj (Finset.mem_range.mp hk))]
    norm_num
  rw [link_energy hw hj, window_modulate_energy hfc sps hsent, hquiet, add_zero,
    correlationReal_noiseless hfc hw hzero hsent]
  exact tieBand_bound _ (.inr rfl) sps.count_pos sent

/-- With nothing added, the receiver gives back the sent bits. -/
theorem demodulate_noiseless (num : Numerics) (sources : List (List ExactReal)) :
    demodulate num fc sps.count (received (modulate fc sps.count v) w) [modulate fc sps.count v, w]
      sources = v := by
  refine bits_eq_of_ones ?_ fun j sent hsent => ?_
  · rw [demodulate_length, received_length hw, (modulate_windows fc sps v).2]
  · rw [demodulate_link_bit hfc hw (window_lt_of_bit fc sps hsent)
      (settledLink_noiseless hfc hw hzero num hsent),
      correlationReal_noiseless hfc hw hzero hsent]
    exact symbol_correlation_pos_iff sps sent

end

/-- Settles O60: noise draws of 0 make the noise 0 whatever the fading (`channelNoise_val`), and then the
receiver gives back the frame's bits (`demodulate_noiseless`). -/
theorem noiselessXmitReproducesTheFrame : Obligations.NoiselessXmitReproducesTheFrame := by
  intro s fc sps snr fam rng str htext hfc hpos hsps hsnr hfading hrng hfade hquiet
  obtain ⟨v, hv, -, hstr, hlen⟩ := frameText_bits htext fc sps
  obtain ⟨w, hw, hwlen, hval⟩ := channelNoise_val snr (x := modulate fc sps.count v)
    fun k hk => hfade k (hlen ▸ hk)
  have hzero : ∀ k, k < (modulate fc sps.count v).length → sampleVal w k = 0 := by
    intro k hk
    rw [hval k hk, hlen, hquiet k (hlen ▸ hk), Surd3.val_ofRat]
    simp
  rw [exec_xmit_of_noise hfc hsps hsnr hfading hrng hv rfl hw, drawn_frame s rng hlen,
    demodulate_noiseless hpos.ne' hwlen hzero, hstr]

end Sys2Proof.Machine
end
